-- ==== Sys2Proof/Word.lean ====
section
/-! DEFINITION. The word types of the block (00_scope.md R5, R6) and the list of all symbols. -/

namespace Sys2Proof

/-- A symbol: one byte value, `SYM_W` = 8 bits (R2, R5). -/
abbrev Sym := BitVec 8

/-- An entry of `FREQ`: `FREQ_W` = 32 bits (R5, R11). -/
abbrev Count := BitVec 32

/-- A node's frequency: `NFREQ_W` = 40 bits (R5, R13). -/
abbrev NodeFreq := BitVec 40

/-- A command word: `CMD_W` = 48 bits (R5, R50). -/
abbrev CmdWord := BitVec 48

/-- A response word: `RSP_W` = 16 bits (R5, R57). -/
abbrev RspWord := BitVec 16

/-- The 256 symbols in ascending order (R2). -/
def allSyms : List Sym := (List.range 256).map (BitVec.ofNat 8)

end Sys2Proof
end

