-- ==== Sys2Proof/Config.lean ====
section
/-! DEFINITION. What is fixed for the hardware: the parameters of 00_scope.md R5. -/

namespace Sys2Proof

/-- `NODE_CAP`: the number of slots of the arena (R5, R12; D7, D17). -/
abbrev nodeCap : Nat := 511

/-- `MERGE_SYM`: which child's symbol a merged node copies (R5, R74; D9). The spec leaves it OPEN, so the
value is an argument of the machine (`State.mergeSym`); log 6. -/
inductive MergeSym where
  | c0
  | c1
deriving DecidableEq, Repr

/-- The spec's default of `MERGE_SYM` (R5). -/
def MergeSym.default : MergeSym := .c0

end Sys2Proof
end

