-- ==== Sys2Proof/Syntax.lean ====
section
/-! DEFINITION. The commands of the block (spec/opcode_table.json, 30_encoding.md R53), the fields of a
command word (R50) and a command as it is written down (R59). -/

namespace Sys2Proof

/-- One constructor per row of the opcode table. The operands are the fields `sym` = w[39:32] and
`data` = w[31:0], used as they stand (R51). -/
inductive Instr where
  /-- SETF `sym`, `count`: set one frequency entry (R65). -/
  | setf (sym : Sym) (count : Count)
  /-- CLRF: clear the frequency table (R66). -/
  | clrf
  /-- BUILD: build the tree from the table (R70). -/
  | build
  /-- ENC `sym`: write the code of one symbol to the sink (R80). -/
  | enc (sym : Sym)
  /-- DEC: read one code word from the source (R85). -/
  | dec
  /-- SER: write the tree header to the sink (R90). -/
  | ser
  /-- DES: read a tree header from the source (R95). -/
  | des
deriving DecidableEq, Repr

/-- The four fields of a command word (R50). -/
structure Fields where
  op   : BitVec 4
  mbz  : BitVec 4
  sym  : Sym
  data : Count
deriving DecidableEq, Repr

/-- Why a word is no command (R52, R54). Every one of these is the one fault ILLEGAL. -/
inductive Illegal where
  /-- `op` is 0x0 or 0x8 to 0xF. -/
  | reservedOp (op : BitVec 4)
  /-- `mbz` is not 0. -/
  | mbzNonZero
  /-- `sym` is not 0 in a command that does not use it. -/
  | symNonZero
  /-- `data` is not 0 in a command that does not use it. -/
  | dataNonZero
deriving DecidableEq, Repr

/-- A command as it is written in a command sequence: operands are numbers not yet checked (R59). -/
inductive AsmCommand where
  | setf (sym count : Nat)
  | clrf
  | build
  | enc (sym : Nat)
  | dec
  | ser
  | des
deriving DecidableEq, Repr

end Sys2Proof
end

