-- ==== Sys2Proof/WellFormed.lean ====
section
/-! DEFINITION. What makes the fields of a word a command (30_encoding.md R52), and the operands of a written
command encodable (R59). A term of `Instr` needs no check: its operands have exactly the fields' widths. -/

namespace Sys2Proof

/-- `op` is one of the seven opcodes (R53). -/
def Fields.opKnown (f : Fields) : Bool := decide (1 ≤ f.op.toNat) && decide (f.op.toNat ≤ 7)

/-- `mbz` must be 0 in every command (R52). -/
def Fields.mbzClear (f : Fields) : Bool := f.mbz == 0

/-- The commands that use `sym`: SETF and ENC (R52). -/
def Fields.usesSym (f : Fields) : Bool := f.op == 1 || f.op == 4

/-- The one command that uses `data`: SETF (R52). -/
def Fields.usesData (f : Fields) : Bool := f.op == 1

/-- A command that does not use `sym` must have `sym = 0` (R52). -/
def Fields.symClear (f : Fields) : Bool := f.usesSym || f.sym == 0

/-- A command that does not use `data` must have `data = 0` (R52). -/
def Fields.dataClear (f : Fields) : Bool := f.usesData || f.data == 0

/-- The fields are those of a command (R52, R54). -/
def Fields.legal (f : Fields) : Bool := f.opKnown && f.mbzClear && f.symClear && f.dataClear

/-- The operands of a written command are in range (R59): `0 <= sym <= 255`, `0 <= count <= 4294967295`. -/
def AsmCommand.wellFormed : AsmCommand → Bool
  | .setf sym count => decide (sym ≤ 255) && decide (count ≤ 4294967295)
  | .enc sym => decide (sym ≤ 255)
  | .clrf | .build | .dec | .ser | .des => true

/-- The command a written command stands for; an operand out of range "has no encoding" (R59). -/
def AsmCommand.instr (a : AsmCommand) : Option Instr :=
  if a.wellFormed then
    match a with
    | .setf sym count => some (.setf (BitVec.ofNat 8 sym) (BitVec.ofNat 32 count))
    | .clrf => some .clrf
    | .build => some .build
    | .enc sym => some (.enc (BitVec.ofNat 8 sym))
    | .dec => some .dec
    | .ser => some .ser
    | .des => some .des
  else none

end Sys2Proof
end

