-- ==== Sys2Proof/Decode.lean ====
section
/-! DEFINITION. The decoder (30_encoding.md R50 to R56), the encoder, and the host's view of the decoder. -/

namespace Sys2Proof

/-- The fields of a word: op [47:44], mbz [43:40], sym [39:32], data [31:0] (R50). -/
def fieldsOf (w : CmdWord) : Fields where
  op   := w.extractLsb' 44 4
  mbz  := w.extractLsb' 40 4
  sym  := w.extractLsb' 32 8
  data := w.extractLsb' 0 32

/-- The word with the given fields, most significant first (R50). -/
def packFields (f : Fields) : CmdWord := f.op ++ f.mbz ++ f.sym ++ f.data

/-- A command that uses neither operand: `sym` and `data` must both be 0 (R52, R56). -/
def decodeBare (i : Instr) (f : Fields) : Except Illegal Instr :=
  if f.sym ≠ 0 then .error .symNonZero
  else if f.data ≠ 0 then .error .dataNonZero
  else .ok i

/-- The command of a word's fields, by the case list of R56. -/
def decodeFields (f : Fields) : Except Illegal Instr :=
  if f.mbz ≠ 0 then .error .mbzNonZero
  else match f.op with
    | 0x1#4 => .ok (.setf f.sym f.data)
    | 0x2#4 => decodeBare .clrf f
    | 0x3#4 => decodeBare .build f
    | 0x4#4 => if f.data ≠ 0 then .error .dataNonZero else .ok (.enc f.sym)
    | 0x5#4 => decodeBare .dec f
    | 0x6#4 => decodeBare .ser f
    | 0x7#4 => decodeBare .des f
    | op => .error (.reservedOp op)

/-- `Decode(w)` of R56: total, every word is exactly one command or illegal (R54). -/
def decode (w : CmdWord) : Except Illegal Instr := decodeFields (fieldsOf w)

/-- The fields of a command (R50, R52, R53). -/
def fieldsOfInstr : Instr → Fields
  | .setf sym count => { op := 0x1, mbz := 0, sym := sym, data := count }
  | .clrf => { op := 0x2, mbz := 0, sym := 0, data := 0 }
  | .build => { op := 0x3, mbz := 0, sym := 0, data := 0 }
  | .enc sym => { op := 0x4, mbz := 0, sym := sym, data := 0 }
  | .dec => { op := 0x5, mbz := 0, sym := 0, data := 0 }
  | .ser => { op := 0x6, mbz := 0, sym := 0, data := 0 }
  | .des => { op := 0x7, mbz := 0, sym := 0, data := 0 }

/-- The word of a command (R53). -/
def encode (i : Instr) : CmdWord := packFields (fieldsOfInstr i)

/-- The instruction the decoder reads from a word of `nbits` bits numbered as the opcode table numbers them. A
command is one word of 48 bits (R50) and crosses its port whole (R34), so the table's bit numbers are the word's
own and no byte order enters (log 16). A value too wide for the word is no command. -/
def decodeTableWord (nbits w : Nat) : Option Instr :=
  if nbits ≤ 48 ∧ w < 2 ^ nbits then
    match decode (BitVec.ofNat 48 w) with
    | .ok i => some i
    | .error _ => none
  else none

/-! The word of each constructor, written from R53's table, decodes to it. -/

theorem decode_setf_word : decode 0x106100000005 = .ok (.setf 97 5) := by decide
theorem decode_clrf_word : decode 0x200000000000 = .ok .clrf := by decide
theorem decode_build_word : decode 0x300000000000 = .ok .build := by decide
theorem decode_enc_word : decode 0x406200000000 = .ok (.enc 98) := by decide
theorem decode_dec_word : decode 0x500000000000 = .ok .dec := by decide
theorem decode_ser_word : decode 0x600000000000 = .ok .ser := by decide
theorem decode_des_word : decode 0x700000000000 = .ok .des := by decide

end Sys2Proof
end

