-- ==== Sys2Proof/Machine/State.lean ====
section
/-! DEFINITION. The state of the block (10_state.md), of the two far ends as the block meets them (20_memory.md
R31, R32), the reasons a step stops, and the state after reset (R28). All of it is plain data. -/

namespace Sys2Proof.Machine

/-- A handle: the number of an arena slot, 0 to 510 (R12). `nil` is `none` in an `Option Handle` (R5: "kept as a
separate valid bit"); log 8. -/
abbrev Handle := Fin nodeCap

/-- One node of the arena (R12, R13). -/
structure Node where
  /-- The symbol; means something at a leaf, and serves ties at an internal node. -/
  sym    : Sym
  /-- The aggregate frequency, 40 bits. -/
  freq   : NodeFreq
  /-- child0, the branch taken on bit 0. -/
  c0     : Option Handle
  /-- child1, the branch taken on bit 1. -/
  c1     : Option Handle
  /-- The parent, absent at the root. -/
  parent : Option Handle
deriving DecidableEq, Repr

/-- The arena `NODE` (R12): the slots in use, slot 0 first. "A slot `h >= NCOUNT` holds nothing and no rule reads it",
so it is not held (U10: "a model need not hold them at all"); log 5. -/
abbrev Arena := List Node

/-- The frequency table `FREQ[0..255]` (R11), as its entries that are not 0, in ascending order of symbol. An entry
not listed is 0; a write keeps this form. -/
abbrev FreqTable := List (Sym × Count)

/-- The leaf table `LEAF[0..255]` (R16), as its entries that are present, in ascending order of symbol. An entry not
listed is `absent`; a write keeps this form. -/
abbrev LeafTable := List (Sym × Handle)

/-- What tree the block holds (R17). -/
inductive Kind where
  | none
  | full
  | singleton
  | leafroot
deriving DecidableEq, Repr

/-- The tree's share of the state: `NODE`, `NCOUNT`, `ROOT`, `LEAF`, `KIND` (R10). -/
structure Tree where
  /-- `NODE` (R12). `NCOUNT`, the number of slots in use (R15), is its length: `Tree.ncount`. -/
  node   : Arena
  /-- `ROOT`: a handle or nil (R15). -/
  root   : Option Handle
  /-- `LEAF`: for each symbol a handle or absent (R16). -/
  leaf   : LeafTable
  /-- `KIND` (R17). -/
  kind   : Kind
deriving DecidableEq, Repr

/-- `NCOUNT`, 0 to 511: the number of arena slots in use (R15). -/
def Tree.ncount (t : Tree) : Nat := t.node.length

/-- The causes of a fault (60_exceptions.md R105). Their codes are in Machine/Flags.lean. -/
inductive Cause where
  /-- ENC of a symbol with no leaf; BUILD of an all-zero table. -/
  | domain
  /-- The source ended inside a DEC or a DES. -/
  | corrupt
  /-- A sink or source transfer failed. -/
  | io
  /-- ENC, DEC or SER with no tree. -/
  | notree
  /-- ENC or DEC on a tree whose root is a leaf. -/
  | shape
  /-- DES of a header that needs a 512th node. -/
  | capacity
  /-- The word is no command. -/
  | illegal
deriving DecidableEq, Repr

/-- What the far end of the sink does with one transfer, as the port shows it (30_encoding.md R63). -/
inductive SinkBeat where
  /-- The transfer happens (`snk_valid` and `snk_ready` both 1), with `snk_err` as given. -/
  | ready (err : Bool)
  /-- `snk_ready` stays 0 for as long as the command asks (R64, R135). -/
  | never
deriving DecidableEq, Repr

/-- What the far end of the source does with one transfer, as the port shows it (R63). -/
inductive SourceBeat where
  /-- The transfer happens (`src_ready` and `src_valid` both 1), with `src_err`, `src_eos`, `src_bit` as given. -/
  | valid (err eos bit : Bool)
  /-- `src_valid` stays 0 for as long as the command asks (R64, R135). -/
  | never
deriving DecidableEq, Repr

/-- The sink port and its far end. `snk` is the string the sink has accepted (`SNK`, R31). `script`, then `after`
for ever, is what the far end will do: the host's free draw per transfer (R31, U14), held as data; log 1. -/
structure Sink where
  snk    : List Bool
  script : List SinkBeat
  after  : SinkBeat
deriving DecidableEq, Repr

/-- The source port and its far end. `taken` is the number of bits the source has given up (R24, R32). `script`,
then `after` for ever, is what the far end will do: the host's free draw per transfer (R32, U14), held as data;
log 1. -/
structure Source where
  taken  : Nat
  script : List SourceBeat
  after  : SourceBeat
deriving DecidableEq, Repr

/-- A stream port. -/
inductive Port where
  | sink
  | source
deriving DecidableEq, Repr

/-- One input of the host (R9, R63). -/
inductive HostInput where
  /-- A word on the command channel. -/
  | command (w : CmdWord)
  /-- The reset input (R125), while no command runs or while one is held by a stream. -/
  | reset
  /-- A word on the command channel, and the reset input after the command's last transfer and before its
  response (R125: "also in the middle of a command"); log 4. -/
  | commandCutByReset (w : CmdWord)
deriving DecidableEq, Repr

/-- The machine's state. -/
structure State where
  /-- `FREQ` (R11). -/
  freq     : FreqTable
  /-- `NODE`, `NCOUNT`, `ROOT`, `LEAF`, `KIND` (R12 to R17). -/
  tree     : Tree
  /-- `ERR` (R18): `none` is 0; log 9. -/
  err      : Option Cause
  /-- `RES` (R18). -/
  res      : Sym
  /-- The stream that holds the command being run, if one does (R64, R135); log 2. -/
  waiting  : Option Port
  /-- The response given by the last step (R57, R63: `rsp_valid` for one cycle); log 10. -/
  rsp      : Option RspWord
  /-- The sink (R31). -/
  sink     : Sink
  /-- The source (R32). -/
  source   : Source
  /-- The host's coming inputs, first first (R9); log 3. -/
  host     : List HostInput
  /-- `MERGE_SYM` (R5, R74); log 6. -/
  mergeSym : MergeSym
deriving DecidableEq, Repr

/-- Why the machine stops. Neither is a fault of the spec's R105: those are taken, and are next states. -/
inductive Fault where
  /-- Raised by `step` when the running command is held by a sink that never answers and the host's next input
  is not reset: the command "has no further step" (93_implementation_defined.md U15, R135). Safe. -/
  | sinkStalled
  /-- The same for a source that never answers (U15, R135). Safe. -/
  | sourceStalled
  /-- Raised by a walk of ENC, DEC or SER through an arena that is no tree (a missing root or child, a chain of
  more than 511 nodes), and by BUILD never: a state no run reaches, of which the spec says nothing. Safe; log 7. -/
  | brokenTree
deriving DecidableEq, Repr

/-- Why the machine gives an instruction no meaning. -/
inductive Refusal where
  /-- Raised by `exec`'s arm of an instruction that has no meaning yet; no arm does now. Safe. -/
  | notModelled (mnemonic : String)
deriving DecidableEq, Repr

/-- No tree: the value of the tree registers after reset (R28) and after `DiscardTree()` (R19). -/
def Tree.reset : Tree where
  node := []
  root := none
  leaf := []
  kind := .none

/-- The far end of the sink in `State.reset`: nothing accepted, every transfer accepted; log 1. -/
def Sink.initial : Sink := { snk := [], script := [], after := .ready false }

/-- The far end of the source in `State.reset`: no bit, end of stream for ever (R32's deterministic source);
log 1. -/
def Source.initial : Source := { taken := 0, script := [], after := .valid false true false }

/-- The machine right after reset (R28), with a host and far ends that have done nothing yet. -/
def State.reset : State where
  freq     := []
  tree     := Tree.reset
  err      := none
  res      := 0
  waiting  := none
  rsp      := none
  sink     := Sink.initial
  source   := Source.initial
  host     := []
  mergeSym := MergeSym.default

end Sys2Proof.Machine
end

