-- ==== Sys2Proof/Machine/Operands.lean ====
section
/-! DEFINITION. The operand forms: reading and writing an entry of FREQ, LEAF and NODE (00_scope.md R7,
20_memory.md R30), and a symbol as eight bits of a stream (R33). There are no other operand forms: no register
number, address or offset (30_encoding.md R51). -/

namespace Sys2Proof.Machine

/-- The entry of a table at a symbol, if one is listed. -/
def cellAt {β : Type} : List (Sym × β) → Sym → Option β
  | [], _ => none
  | (z, v) :: cs, y => if z = y then some v else cellAt cs y

/-- A table with the entry at `y` taken off the list. -/
def cellDrop {β : Type} (cs : List (Sym × β)) (y : Sym) : List (Sym × β) := cs.filter (fun c => decide (c.1 ≠ y))

/-- An entry put before the first one of a higher symbol. -/
def cellInsert {β : Type} (y : Sym) (v : β) : List (Sym × β) → List (Sym × β)
  | [] => [(y, v)]
  | c :: cs => if y.toNat < c.1.toNat then (y, v) :: c :: cs else c :: cellInsert y v cs

/-- A table with the value `v` listed at `y`. -/
def cellPut {β : Type} (cs : List (Sym × β)) (y : Sym) (v : β) : List (Sym × β) := cellInsert y v (cellDrop cs y)

/-- `FREQ[s]` (R11). -/
def freqAt (f : FreqTable) (y : Sym) : Count := (cellAt f y).getD 0

/-- `FREQ[s] <- v` (R11): an entry of 0 is not listed. -/
def freqPut (f : FreqTable) (y : Sym) (v : Count) : FreqTable := if v = 0 then cellDrop f y else cellPut f y v

/-- `LEAF[s]` (R16). -/
def leafAt (l : LeafTable) (y : Sym) : Option Handle := cellAt l y

/-- `LEAF[s] <- h` (R16). -/
def leafPut (l : LeafTable) (y : Sym) (h : Handle) : LeafTable := cellPut l y h

/-- What a slot holds between `Alloc()` and its first write; no rule reads it (R12, R98). -/
def Node.blank : Node := { sym := 0, freq := 0, c0 := none, c1 := none, parent := none }

/-- `NODE[h]` of a slot in use (R12). -/
def nodeAt? (n : Arena) (h : Handle) : Option Node := n[h.val]?

/-- `NODE[h]` where the slot is known to be in use (R12). -/
def nodeAt (n : Arena) (h : Handle) : Node := (nodeAt? n h).getD Node.blank

/-- `NODE[h] <- x` (R12). -/
def nodePut (n : Arena) (h : Handle) (x : Node) : Arena := n.set h.val x

/-- `NODE[h].parent <- p` (R12). -/
def parentPut (n : Arena) (h p : Handle) : Arena := nodePut n h { nodeAt n h with parent := some p }

/-- `IsLeaf`: `NODE[h].c0 = nil` (R14). -/
def Node.isLeaf (x : Node) : Bool := x.c0.isNone

/-- The child a bit names: `c0` on 0, `c1` on 1 (R12, R85). -/
def Node.child (x : Node) (b : Bool) : Option Handle := if b then x.c1 else x.c0

/-- The 40-bit frequency of a leaf: `zext_40(FREQ[s])` (R13). -/
def zext40 (c : Count) : NodeFreq := c.setWidth 40

/-- A symbol as it crosses a stream: eight bits, bit 7 first (R33). -/
def symBits (y : Sym) : List Bool :=
  [y.getLsbD 7, y.getLsbD 6, y.getLsbD 5, y.getLsbD 4, y.getLsbD 3, y.getLsbD 2, y.getLsbD 1, y.getLsbD 0]

/-- One bit shifted into a symbol being read: the first of eight bits read ends as bit 7 (R33). -/
def shiftIn (v : Sym) (b : Bool) : Sym := (v <<< 1) ||| (BitVec.ofBool b).setWidth 8

end Sys2Proof.Machine
end

