-- ==== Sys2Proof/Machine/Flags.lean ====
section
/-! DEFINITION. Status. There are no condition codes, carry or overflow flags and no command sets one (10_state.md
R25), so no flag is computed here; what a command leaves to be seen is its status, `KIND`, `ERR` and `RES`
(30_encoding.md R57, R58; 60_exceptions.md R105). -/

namespace Sys2Proof.Machine

/-- The code of a fault: its `ERR` value and its status (R58, R105). -/
def Cause.code : Cause → BitVec 4
  | .domain => 1
  | .corrupt => 2
  | .io => 3
  | .notree => 4
  | .shape => 5
  | .capacity => 6
  | .illegal => 7

/-- Status OK (R58). -/
def stOk : BitVec 4 := 0

/-- Status LOCKED, seen only in responses (R58, R108). -/
def stLocked : BitVec 4 := 8

/-- The two bits of `KIND` (R17). -/
def Kind.bits : Kind → BitVec 2
  | .none => 0
  | .full => 1
  | .singleton => 2
  | .leafroot => 3

/-- A response word: `st` [15:12], `kind` [11:10], zero [9:8], `sym` [7:0] (R57). -/
def rspWord (st : BitVec 4) (kind : Kind) (res : Sym) : RspWord := st ++ kind.bits ++ 0#2 ++ res

/-- The four bits of `ERR` (R18). -/
def State.errBits (s : State) : BitVec 4 :=
  match s.err with
  | none => 0
  | some x => x.code

/-- The `err` output: 1 exactly when `ERR != 0` (R63, R112). -/
def State.errPin (s : State) : Bool := s.err.isSome

/-- `ERR != 0`: the block is locked (R108). -/
def State.locked (s : State) : Bool := s.err.isSome

/-- `cmd_ready`: the block takes a word unless a command is running (R63, R64). Between two steps a command runs
only when a stream holds it. -/
def State.cmdReady (s : State) : Bool := s.waiting.isNone

end Sys2Proof.Machine
end

