-- ==== Sys2Proof/Machine/Ops.lean ====
section
/-! DEFINITION. The shared operations: the flow of a command's pseudocode, the stream primitives (20_memory.md R31
to R33), the tree primitives of 00_scope.md R7, taking a fault (60_exceptions.md R107), the lock (R108), reset
(70_reset_and_hazards.md R125), the shape every command has (R106), and taking the host's next input (R9, R63). -/

namespace Sys2Proof.Machine

/-! ## The flow of a command -/

/-- How a piece of pseudocode over a state `σ` ends. -/
inductive Flow (σ α : Type) where
  /-- It ran to its end and gives `a`. -/
  | done (a : α) (s : σ)
  /-- It met `raise x`; `s` is what was written up to the raising line (R107). -/
  | raise (x : Cause) (s : σ)
  /-- It stands at a transfer on port `p` whose far end never answers (R64, R135). -/
  | wait (p : Port) (s : σ)
  /-- It met an arena that is no tree; log 7. -/
  | broken
deriving DecidableEq, Repr

/-- One piece of pseudocode after another. -/
def Flow.bind {σ α β : Type} (m : Flow σ α) (f : α → σ → Flow σ β) : Flow σ β :=
  match m with
  | .done a s => f a s
  | .raise x s => .raise x s
  | .wait p s => .wait p s
  | .broken => .broken

/-- The same pseudocode seen as acting on a larger state. -/
def Flow.mapState {σ τ α : Type} (f : σ → τ) (m : Flow σ α) : Flow τ α :=
  match m with
  | .done a s => .done a (f s)
  | .raise x s => .raise x (f s)
  | .wait p s => .wait p (f s)
  | .broken => .broken

/-- Pseudocode on the sink, as pseudocode on the whole state. -/
def onSink {α : Type} (m : Sink → Flow Sink α) (s : State) : Flow State α :=
  (m s.sink).mapState (fun k => { s with sink := k })

/-- Pseudocode on the source, as pseudocode on the whole state. -/
def onSource {α : Type} (m : Source → Flow Source α) (s : State) : Flow State α :=
  (m s.source).mapState (fun k => { s with source := k })

/-- Pseudocode on the tree registers, as pseudocode on the whole state. -/
def onTree {α : Type} (m : Tree → Flow Tree α) (s : State) : Flow State α :=
  (m s.tree).mapState (fun t => { s with tree := t })

/-- Pseudocode on the tree registers and the source, as pseudocode on the whole state. -/
def onTreeSource {α : Type} (m : Tree × Source → Flow (Tree × Source) α) (s : State) : Flow State α :=
  (m (s.tree, s.source)).mapState (fun p => { s with tree := p.1, source := p.2 })

/-! ## The sink -/

/-- What the far end does with the next transfer, and the sink with that one behind it. -/
def Sink.next (k : Sink) : SinkBeat × Sink :=
  match k.script with
  | [] => (k.after, k)
  | b :: rest => (b, { k with script := rest })

/-- `SinkBit(b)` (R31, R63): `ok` makes `b` the next bit of `SNK`, `ioerr` raises IO and leaves `SNK`. -/
def sinkBit (b : Bool) (k : Sink) : Flow Sink Unit :=
  match k.next.1 with
  | .ready false => .done () { k.next.2 with snk := k.snk ++ [b] }
  | .ready true => .raise .io k.next.2
  | .never => .wait .sink k.next.2

/-- The bits of a list handed to the sink one after another; stops at the first transfer that fails (R33, R40). -/
def sinkBits : List Bool → Sink → Flow Sink Unit
  | [], k => .done () k
  | b :: bs, k => (sinkBit b k).bind fun _ k' => sinkBits bs k'

/-- `SinkSym(v)`: eight `SinkBit`, bit 7 first (R33). -/
def sinkSym (y : Sym) (k : Sink) : Flow Sink Unit := sinkBits (symBits y) k

/-! ## The source -/

/-- What the far end does with the next transfer, and the source with that one behind it. -/
def Source.next (k : Source) : SourceBeat × Source :=
  match k.script with
  | [] => (k.after, k)
  | b :: rest => (b, { k with script := rest })

/-- `SrcBit()` (R32, R63): `ioerr` if `src_err`, else `eos` if `src_eos`, else the bit, which is then consumed. -/
def srcBit (k : Source) : Flow Source Bool :=
  match k.next.1 with
  | .valid true _ _ => .raise .io k.next.2
  | .valid false true _ => .raise .corrupt k.next.2
  | .valid false false b => .done b { k.next.2 with taken := k.taken + 1 }
  | .never => .wait .source k.next.2

/-- `n` more bits read into a symbol, most significant first (R33). -/
def srcSymBits : Nat → Sym → Source → Flow Source Sym
  | 0, v, k => .done v k
  | n + 1, v, k => (srcBit k).bind fun b k' => srcSymBits n (shiftIn v b) k'

/-- `SrcSym()`: eight `SrcBit`, the first bit read becomes bit 7 (R33). -/
def srcSym (k : Source) : Flow Source Sym := srcSymBits 8 0 k

/-- `SRC`: the bits the far end will still give before it answers anything else (R32). -/
def Source.bits (k : Source) : List Bool :=
  k.script.takeWhile (fun b => match b with | .valid false false _ => true | _ => false)
    |>.map (fun b => match b with | .valid _ _ v => v | .never => false)

/-- A source that gives the bits of `bs` and then does what `rest` says: R32's "finite bit string" is
`Source.giving bs` on a source that answers `eos` for ever. -/
def Source.giving (bs : List Bool) (k : Source) : Source :=
  { k with script := bs.map (SourceBeat.valid false false) ++ k.script }

/-! ## The tree registers -/

/-- `Alloc()` (R7, R15): the handle `NCOUNT`, after which `NCOUNT` is one more; `none` when all 511 slots are
taken. -/
def Tree.alloc (t : Tree) : Option (Handle × Tree) :=
  if h : t.node.length < nodeCap then
    some (⟨t.node.length, h⟩, { t with node := t.node ++ [Node.blank] })
  else none

/-- `DiscardTree()` (R19): with `NCOUNT = 0` no slot is in use. -/
def Tree.discard (_ : Tree) : Tree := Tree.reset

/-- `NODE[h] <- x`. -/
def Tree.putNode (t : Tree) (h : Handle) (x : Node) : Tree := { t with node := nodePut t.node h x }

/-- `NODE[h].parent <- p`. -/
def Tree.putParent (t : Tree) (h p : Handle) : Tree := { t with node := parentPut t.node h p }

/-- `LEAF[s] <- h`. -/
def Tree.putLeaf (t : Tree) (y : Sym) (h : Handle) : Tree := { t with leaf := leafPut t.leaf y h }

/-! ## Ending a command -/

/-- The response of a command that ends with status `st`: `KIND` and `RES` as they are now (R57, R106). -/
def State.respond (st : BitVec 4) (s : State) : State :=
  { s with rsp := some (rspWord st s.tree.kind s.res) }

/-- `raise X` (R107): BUILD and DES (`discards`) discard the tree, then `ERR <- X`, then the response. -/
def takeFault (discards : Bool) (x : Cause) (s : State) : State :=
  State.respond x.code
    { s with tree := if discards then s.tree.discard else s.tree, err := some x }

/-- The one way out of the faulted state (R111): reset (R125) puts every piece of the block's state to its value of
R28, gives no response and does not touch the far ends (R46). -/
def State.resetBlock (s : State) : State :=
  { s with
    freq := [], tree := Tree.reset, err := none, res := 0, waiting := none, rsp := none }

/-- A command held by a stream that never answers: no response is given (R64, R135); log 2. -/
def State.hold (p : Port) (s : State) : State := { s with waiting := some p, rsp := none }

/-- A locked block's answer to any word (R108). -/
def lockedAnswer (s : State) : State := s.respond stLocked

/-- The shape of every command (R106): the lock, then the rule's pseudocode, which ends in `respond(OK)` or in a
raise. `discards` is true for BUILD and DES. -/
def runCommand (discards : Bool) (body : State → Flow State Unit) (s : State) :
    Host.Outcome State Fault Refusal :=
  if s.locked then .next (lockedAnswer s)
  else match body s with
    | .done _ t => .next (t.respond stOk)
    | .raise x t => .next (takeFault discards x t)
    | .wait p t => .next (t.hold p)
    | .broken => .fault .brokenTree

/-- A word that is no command (R54, R106): LOCKED if the block is locked, else ILLEGAL. -/
def illegalWord (s : State) : State := if s.locked then lockedAnswer s else takeFault false .illegal s

/-! ## The host's next input -/

/-- What a step is to do. -/
inductive Fetched where
  /-- The step needs no instruction: here is its next state. -/
  | settled (t : State)
  /-- Run the instruction in this state. -/
  | run (i : Instr) (t : State)
  /-- Run the instruction in this state, then reset before the response. -/
  | runThenReset (i : Instr) (t : State)
  /-- The block has no further step. -/
  | stop (r : Fault)
deriving DecidableEq, Repr

/-- The stop of a block whose command is held by `p` (U15). -/
def stalledAt (p : Port) : Fault :=
  match p with
  | .sink => .sinkStalled
  | .source => .sourceStalled

/-- Taking the host's next input (R9, R63, R64). An idle block waits, holding all state (R114). A block held by a
stream takes no word; only reset ends that (R135). Anything else is a word to execute (R106). -/
def fetch (s : State) : Fetched :=
  match s.host, s.waiting with
  | .reset :: rest, _ => .settled ({ s with host := rest } : State).resetBlock
  | _, some p => .stop (stalledAt p)
  | [], none => .settled { s with rsp := none }
  | .command w :: rest, none =>
    match decode w with
    | .ok i => .run i { s with host := rest }
    | .error _ => .settled (illegalWord { s with host := rest })
  | .commandCutByReset w :: rest, none =>
    match decode w with
    | .ok i => .runThenReset i { s with host := rest }
    | .error _ => .settled ({ s with host := rest } : State).resetBlock

/-- A command abandoned before its response (R125): what it moved on the streams stays moved (R46), the block is
reset, and no response is given. -/
def cutByReset (o : Host.Outcome State Fault Refusal) : Host.Outcome State Fault Refusal :=
  match o with
  | .next t => .next t.resetBlock
  | .fault r => .fault r
  | .refused r => .refused r

end Sys2Proof.Machine
end

