-- ==== Sys2Proof/Machine/Builder.lean ====
section
/-! DEFINITION. The tree builder, command BUILD (41_tree_builder.md). -/

namespace Sys2Proof.Machine

/-- `P` of R70: the symbols with a positive entry, ascending. -/
def presentSyms (f : FreqTable) : List Sym := allSyms.filter (fun y => freqAt f y != 0)

/-- The order of the pending collection (R71): frequency, then symbol, both unsigned. -/
def precedes (n : Arena) (x y : Handle) : Bool :=
  BitVec.ult (nodeAt n x).freq (nodeAt n y).freq ||
    ((nodeAt n x).freq == (nodeAt n y).freq && BitVec.ult (nodeAt n x).sym (nodeAt n y).sym)

/-- `Q` with `m` added. The pending nodes are kept in the order of R71, so that `ExtractMin(Q)` takes the head; how
the collection is held cannot be observed (R71, R27); log 11. -/
def addPending (n : Arena) (m : Handle) : List Handle → List Handle
  | [] => [m]
  | q :: qs => if precedes n m q then m :: q :: qs else q :: addPending n m qs

/-- The pending collection of some nodes. -/
def pendingOf (n : Arena) (hs : List Handle) : List Handle := hs.foldr (addPending n) []

/-- The leaf BUILD makes for a symbol (R72). -/
def seedNode (y : Sym) (c : Count) : Node := { sym := y, freq := zext40 c, c0 := none, c1 := none, parent := none }

/-- Seeding (R70, R72): one leaf per symbol of the list, in its order; gives the leaves' handles. The arena cannot
be full here (R70, R72: at most 256 leaves after DiscardTree); log 12. -/
def seed (f : FreqTable) : List Sym → Tree → Flow Tree (List Handle)
  | [], t => .done [] t
  | y :: ys, t =>
    match t.alloc with
    | none => .raise .capacity t
    | some (h, t') =>
      (seed f ys ((t'.putNode h (seedNode y (freqAt f y))).putLeaf y h)).bind fun hs t'' => .done (h :: hs) t''

/-- `MergeSym(a, b)` (R74): the symbol of child0 or of child1, as `MERGE_SYM` says. -/
def mergedSym (ms : MergeSym) (a b : Node) : Sym :=
  match ms with
  | .c0 => a.sym
  | .c1 => b.sym

/-- The node that merges `a` and `b`, child0 and child1 (R70, R73, R74). The sum is in 40 bits, in which it never
wraps (R13). -/
def mergedNode (ms : MergeSym) (n : Arena) (a b : Handle) : Node where
  sym    := mergedSym ms (nodeAt n a) (nodeAt n b)
  freq   := (nodeAt n a).freq + (nodeAt n b).freq
  c0     := some a
  c1     := some b
  parent := none

/-- The merge loop (R70, R73) on a pending collection. `fuel` is the number of pending nodes. The last arm is a
collection of fewer than two nodes, which BUILD never hands it; the arena cannot be full (R70); log 12. -/
def mergeLoop (ms : MergeSym) : Nat → List Handle → Tree → Flow Tree Unit
  | fuel + 1, a :: b :: rest, t =>
    match t.alloc with
    | none => .raise .capacity t
    | some (m, t') =>
      let u := ((t'.putNode m (mergedNode ms t.node a b)).putParent a m).putParent b m
      match rest with
      | [] => .done () { u with root := some m, kind := .full }
      | q :: qs => mergeLoop ms fuel (addPending u.node m (q :: qs)) u
  | _, _, _ => .broken

/-- One symbol present (R75, R21): the root whose two children are the one leaf. -/
def singletonRoot (leaf : Handle) (t : Tree) : Flow Tree Unit :=
  match t.alloc with
  | none => .raise .capacity t
  | some (r, t') =>
    let x := nodeAt t.node leaf
    let u := (t'.putNode r { sym := x.sym, freq := x.freq, c0 := some leaf, c1 := some leaf, parent := none })
    .done () { u.putParent leaf r with root := some r, kind := .singleton }

/-- The pseudocode of BUILD (R70) on the tree registers. -/
def buildTree (ms : MergeSym) (f : FreqTable) (t : Tree) : Flow Tree Unit :=
  match presentSyms f with
  | [] => .raise .domain t.discard
  | y :: ys =>
    (seed f (y :: ys) t.discard).bind fun hs u =>
      match hs with
      | [h] => singletonRoot h u
      | _ => mergeLoop ms hs.length (pendingOf u.node hs) u

/-- The pseudocode of BUILD (R70). -/
def buildBody (s : State) : Flow State Unit := onTree (buildTree s.mergeSym s.freq) s

/-- BUILD (R70): a fault inside it discards the tree (R107). -/
def execBuild (s : State) : Host.Outcome State Fault Refusal := runCommand true buildBody s

end Sys2Proof.Machine
end

