-- ==== Sys2Proof/Machine/Decoder.lean ====
section
/-! DEFINITION. The decoder, command DEC (43_decoder.md). -/

namespace Sys2Proof.Machine

/-- The loop of R85 from a node: read a bit, go to the child it names, until a leaf; gives the leaf's symbol. Broken
if there is no such child or no leaf within `fuel` bits; log 7. -/
def descend (n : Arena) : Nat → Node → Source → Flow Source Sym
  | 0, _, _ => .broken
  | fuel + 1, x, k =>
    (srcBit k).bind fun b k' =>
      match (x.child b).bind (nodeAt? n) with
      | none => .broken
      | some c => if c.isLeaf then .done c.sym k' else descend n fuel c k'

/-- The pseudocode of DEC (R85). -/
def decBody (s : State) : Flow State Unit :=
  match s.tree.kind with
  | .none => .raise .notree s
  | .leafroot => .raise .shape s
  | .full | .singleton =>
    match s.tree.root.bind (nodeAt? s.tree.node) with
    | none => .broken
    | some r => (onSource (descend s.tree.node nodeCap r) s).bind fun y t => .done () { t with res := y }

/-- DEC (R85). -/
def execDec (s : State) : Host.Outcome State Fault Refusal := runCommand false decBody s

end Sys2Proof.Machine
end

