-- ==== Sys2Proof/Machine/Deserializer.lean ====
section
/-! DEFINITION. The tree deserializer, command DES (45_tree_deserializer.md). -/

namespace Sys2Proof.Machine

/-- The leaf DES makes (R95, R104). -/
def readLeafNode (y : Sym) : Node := { sym := y, freq := 0, c0 := none, c1 := none, parent := none }

/-- The internal node DES makes: frequency 0 and child0's symbol (R95, R104). -/
def readInnerNode (n : Arena) (a b : Handle) : Node :=
  { sym := (nodeAt n a).sym, freq := 0, c0 := some a, c1 := some b, parent := none }

/-- One bit of the source while the tree is under construction. -/
def readFlag (p : Tree × Source) : Flow (Tree × Source) Bool := (srcBit p.2).mapState (fun k => (p.1, k))

/-- One symbol of the source while the tree is under construction. -/
def readSym (p : Tree × Source) : Flow (Tree × Source) Sym := (srcSym p.2).mapState (fun k => (p.1, k))

/-- `Des()` of R95, its call depth bounded by `fuel`. The test `NCOUNT = 511` is `alloc`'s, and comes before the flag
is read (R100). With no fuel left 511 calls are open, each holding a slot, so that the arena is full (R100). -/
def desNode : Nat → Tree × Source → Flow (Tree × Source) Handle
  | 0, p => .raise .capacity p
  | fuel + 1, p =>
    match p.1.alloc with
    | none => .raise .capacity p
    | some (h, t) =>
      (readFlag (t, p.2)).bind fun f q =>
        if f then
          (readSym q).bind fun y r => .done h ((r.1.putNode h (readLeafNode y)).putLeaf y h, r.2)
        else
          (desNode fuel q).bind fun a r =>
            (desNode fuel r).bind fun b u =>
              .done h (((u.1.putNode h (readInnerNode u.1.node a b)).putParent a h).putParent b h, u.2)

/-- The pseudocode of DES (R95) on the tree registers and the source. -/
def desTree (p : Tree × Source) : Flow (Tree × Source) Unit :=
  (desNode nodeCap (p.1.discard, p.2)).bind fun r q =>
    .done () ({ q.1 with root := some r, kind := if (nodeAt q.1.node r).isLeaf then .leafroot else .full }, q.2)

/-- The pseudocode of DES (R95). -/
def desBody (s : State) : Flow State Unit := onTreeSource desTree s

/-- DES (R95): a fault inside it discards the tree again (R95, R107). -/
def execDes (s : State) : Host.Outcome State Fault Refusal := runCommand true desBody s

end Sys2Proof.Machine
end

