-- ==== Sys2Proof/Machine/Encoder.lean ====
section
/-! DEFINITION. The encoder, command ENC (42_encoder.md). -/

namespace Sys2Proof.Machine

/-- The bit of a step up from `h` to the parent `x`: 0 if `h` is child0, tested first, else 1 (R80, R81). -/
def branchBit (x : Node) (h : Handle) : Bool := !decide (x.c0 = some h)

/-- The walk from `h`, whose node is `x`, up to the root (R81) with the bits pushed so far, the last pushed first: the
whole last-in first-out buffer in the order its bits are popped. `none` if a slot on the way is not in use or the root
is not met within `fuel` nodes; log 7. -/
def climb (n : Arena) : Nat → Handle → Node → List Bool → Option (List Bool)
  | 0, _, _, _ => none
  | fuel + 1, h, x, pushed =>
    match x.parent with
    | none => some pushed
    | some p =>
      match nodeAt? n p with
      | none => none
      | some px => climb n fuel p px (branchBit px h :: pushed)

/-- The code of the leaf `h`, root first (30_encoding.md R62). -/
def codeOf (n : Arena) (h : Handle) : Option (List Bool) :=
  match nodeAt? n h with
  | none => none
  | some x => climb n nodeCap h x []

/-- The pseudocode of ENC (R80). -/
def encBody (y : Sym) (s : State) : Flow State Unit :=
  match s.tree.kind with
  | .none => .raise .notree s
  | .leafroot => .raise .shape s
  | .full | .singleton =>
    match leafAt s.tree.leaf y with
    | none => .raise .domain s
    | some h =>
      match codeOf s.tree.node h with
      | none => .broken
      | some bits => onSink (sinkBits bits) s

/-- ENC `sym` (R80). -/
def execEnc (y : Sym) (s : State) : Host.Outcome State Fault Refusal := runCommand false (encBody y) s

end Sys2Proof.Machine
end

