-- ==== Sys2Proof/Machine/Serializer.lean ====
section
/-! DEFINITION. The tree serializer, command SER (44_tree_serializer.md). -/

namespace Sys2Proof.Machine

/-- `Ser(h)` of R90: a leaf is flag 1 and its symbol, an internal node is flag 0, then child0, then child1. `fuel`
bounds the depth; broken if a slot is not in use, a child is missing or the depth is not met; log 7. -/
def serNode (n : Arena) : Nat → Option Handle → Sink → Flow Sink Unit
  | 0, _, _ => .broken
  | fuel + 1, h, k =>
    match h.bind (nodeAt? n) with
    | none => .broken
    | some x =>
      if x.isLeaf then (sinkBit true k).bind fun _ k' => sinkSym x.sym k'
      else (sinkBit false k).bind fun _ k' =>
        (serNode n fuel x.c0 k').bind fun _ k'' => serNode n fuel x.c1 k''

/-- The pseudocode of SER (R90): legal for every kind of tree but NONE (R93). -/
def serBody (s : State) : Flow State Unit :=
  match s.tree.kind with
  | .none => .raise .notree s
  | .full | .singleton | .leafroot => onSink (serNode s.tree.node nodeCap s.tree.root) s

/-- SER (R90). -/
def execSer (s : State) : Host.Outcome State Fault Refusal := runCommand false serBody s

end Sys2Proof.Machine
end

