-- ==== Sys2Proof/Machine/Table.lean ====
section
/-! DEFINITION. The frequency-table commands SETF and CLRF (40_table_commands.md). -/

namespace Sys2Proof.Machine

/-- The pseudocode of SETF (R65). -/
def setfBody (y : Sym) (count : Count) (s : State) : Flow State Unit :=
  .done () { s with freq := freqPut s.freq y count }

/-- SETF `sym`, `count` (R65). -/
def execSetf (y : Sym) (count : Count) (s : State) : Host.Outcome State Fault Refusal :=
  runCommand false (setfBody y count) s

/-- The pseudocode of CLRF (R66): FREQ[s] <- 0 for every s. -/
def clrfBody (s : State) : Flow State Unit := .done () { s with freq := [] }

/-- CLRF (R66). -/
def execClrf (s : State) : Host.Outcome State Fault Refusal := runCommand false clrfBody s

end Sys2Proof.Machine
end

