-- ==== Sys2Proof/Machine/Dispatch.lean ====
section
/-! DEFINITION. One arm per command: what executing it does (60_exceptions.md R106). -/

namespace Sys2Proof.Machine

def exec (i : Instr) (s : State) : Host.Outcome State Fault Refusal :=
  match i with
  | .setf sym count => Sys2Proof.Machine.execSetf sym count s
  | .clrf => Sys2Proof.Machine.execClrf s
  | .build => Sys2Proof.Machine.execBuild s
  | .enc sym => Sys2Proof.Machine.execEnc sym s
  | .dec => Sys2Proof.Machine.execDec s
  | .ser => Sys2Proof.Machine.execSer s
  | .des => Sys2Proof.Machine.execDes s

end Sys2Proof.Machine
end

