-- ==== Sys2Proof/Machine/Step.lean ====
section
/-! DEFINITION. The step: the host's next input is taken and, if it is a command, executed to its end
(00_scope.md R9, 60_exceptions.md R106). -/

namespace Sys2Proof.Machine

/-- One step of the block. -/
def step (s : State) : Host.Outcome State Fault Refusal :=
  match fetch s with
  | .settled t => .next t
  | .run i t => exec i t
  | .runThenReset i t => cutByReset (exec i t)
  | .stop r => .fault r

/-- `s` with the word `w` on the command channel as the host's next input, and the block ready to take it. The
block fetches nothing (10_state.md R24): the host presents each word, so this is where an instruction stands
(log 3, log 16). -/
def State.withFetchWord (s : State) (nbits w : Nat) : State :=
  { s with host := .command (BitVec.ofNat 48 (w % 2 ^ nbits)) :: s.host, waiting := none }

end Sys2Proof.Machine
end

