-- ==== Sys2Proof/Machine/Assembler.lean ====
section
/-! DEFINITION. Command sequences as text (30_encoding.md R59): one mnemonic per command, operands in decimal, `0x`
hexadecimal or a quoted character (its byte value), separated by a comma, one command per line, `;` starting a
comment. Which characters separate words, and that mnemonics are in capitals, are readings of the model (log 15). -/

namespace Sys2Proof.Machine

/-- A piece of a line. -/
inductive Token where
  | word (cs : List Char)
  | quoted (c : Char)
  | comma
  | bad
deriving DecidableEq, Repr

/-- The quotation mark of a quoted character. -/
def quoteMark : Char := Char.ofNat 39

/-- A space or a tab. -/
def isBlank (c : Char) : Bool := c == ' ' || c == Char.ofNat 9

/-- The word read so far, last character first, as a token in front of the others. -/
def flushWord (held : List Char) (ts : List Token) : List Token :=
  if held.isEmpty then ts else .word held.reverse :: ts

/-- The tokens of a line; `held` is the word being read, last character first. A `;` ends the line. -/
def tokens : List Char → List Char → List Token
  | held, [] => flushWord held []
  | held, [c] =>
    if c == ';' then flushWord held []
    else if isBlank c then flushWord held []
    else if c == ',' then flushWord held [.comma]
    else if c == quoteMark then flushWord held [.bad]
    else flushWord (c :: held) []
  | held, [c, d] =>
    if c == ';' then flushWord held []
    else if isBlank c then flushWord held (tokens [] [d])
    else if c == ',' then flushWord held (.comma :: tokens [] [d])
    else if c == quoteMark then flushWord held [.bad]
    else tokens (c :: held) [d]
  | held, c :: d :: e :: cs =>
    if c == ';' then flushWord held []
    else if isBlank c then flushWord held (tokens [] (d :: e :: cs))
    else if c == ',' then flushWord held (.comma :: tokens [] (d :: e :: cs))
    else if c == quoteMark then
      flushWord held (if e == quoteMark then .quoted d :: tokens [] cs else [.bad])
    else tokens (c :: held) (d :: e :: cs)

/-- The value of a digit, decimal or hexadecimal in either case. -/
def digitValue (c : Char) : Option Nat :=
  if '0'.toNat ≤ c.toNat ∧ c.toNat ≤ '9'.toNat then some (c.toNat - '0'.toNat)
  else if 'a'.toNat ≤ c.toNat ∧ c.toNat ≤ 'f'.toNat then some (c.toNat - 'a'.toNat + 10)
  else if 'A'.toNat ≤ c.toNat ∧ c.toNat ≤ 'F'.toNat then some (c.toNat - 'A'.toNat + 10)
  else none

/-- Digits of a numeral to `base`, after the value `acc`. -/
def numeralFrom (base acc : Nat) : List Char → Option Nat
  | [] => some acc
  | c :: cs =>
    match digitValue c with
    | some d => if d < base then numeralFrom base (acc * base + d) cs else none
    | none => none

/-- A number: decimal unless written `0x..` (R6, R59). -/
def numeral : List Char → Option Nat
  | [] => none
  | '0' :: 'x' :: c :: cs => numeralFrom 16 0 (c :: cs)
  | c :: cs => numeralFrom 10 0 (c :: cs)

/-- An operand: a number or a quoted character. -/
def operand : Token → Option Nat
  | .word cs => numeral cs
  | .quoted c => some c.toNat
  | .comma => none
  | .bad => none

/-- A command that takes no operand. -/
def bareCommand (cs : List Char) : Option AsmCommand :=
  if cs == ['C', 'L', 'R', 'F'] then some .clrf
  else if cs == ['B', 'U', 'I', 'L', 'D'] then some .build
  else if cs == ['D', 'E', 'C'] then some .dec
  else if cs == ['S', 'E', 'R'] then some .ser
  else if cs == ['D', 'E', 'S'] then some .des
  else none

/-- The command a line's tokens write down. -/
def commandOf : List Token → Option AsmCommand
  | [.word cs] => bareCommand cs
  | [.word cs, y] =>
    if cs == ['E', 'N', 'C'] then
      match operand y with
      | some a => some (.enc a)
      | none => none
    else none
  | [.word cs, y, .comma, c] =>
    if cs == ['S', 'E', 'T', 'F'] then
      match operand y, operand c with
      | some a, some b => some (.setf a b)
      | _, _ => none
    else none
  | _ => none

/-- What a line stands for: `some none` for a line with no command, `none` for one that is an error of whoever wrote
it (an operand out of range "has no encoding", R59). -/
def assembleLine (cs : List Char) : Option (Option CmdWord) :=
  match tokens [] cs with
  | [] => some none
  | ts =>
    match commandOf ts with
    | none => none
    | some a =>
      match a.instr with
      | none => none
      | some i => some (some (encode i))

end Sys2Proof.Machine
end

