-- ==== Sys2Proof/Safety.lean ====
section
/-! DEFINITION. The terms claims use: a tree as a value (10_state.md R23) and its header, codes and decoding; what the
far ends of the streams do over several transfers; the invariant of the block's state. None of it is run by `step`. -/

namespace Sys2Proof.Machine

/-! ## A tree as a value (R23) -/

/-- The tree as R23 lets a model hold it: a leaf of a symbol, or a node of two subtrees. -/
inductive CodeTree where
  | leaf (y : Sym)
  | node (l r : CodeTree)
deriving DecidableEq, Repr

/-- The number of nodes. -/
def CodeTree.size : CodeTree → Nat
  | .leaf _ => 1
  | .node l r => 1 + l.size + r.size

/-- The number of leaves. -/
def CodeTree.leaves : CodeTree → Nat
  | .leaf _ => 1
  | .node l r => l.leaves + r.leaves

/-- The root is an internal node. -/
def CodeTree.isInner : CodeTree → Bool
  | .leaf _ => false
  | .node _ _ => true

/-- The header of a tree, by the grammar of 30_encoding.md R60. -/
def CodeTree.header : CodeTree → List Bool
  | .leaf y => true :: symBits y
  | .node l r => false :: (l.header ++ r.header)

/-- The header's bits of the first `n` nodes in header order, flags and symbols, and how many of the `n` are left when
the tree has fewer (R100). -/
def CodeTree.firstNodes : Nat → CodeTree → List Bool × Nat
  | 0, _ => ([], 0)
  | n + 1, .leaf y => (true :: symBits y, n)
  | n + 1, .node l r =>
    let (a, m) := l.firstNodes n
    let (b, m') := r.firstNodes m
    (false :: (a ++ b), m')

/-- Where branch bits lead from the root: the subtree they name, child0 on 0 and child1 on 1. -/
def CodeTree.follow : CodeTree → List Bool → Option CodeTree
  | t, [] => some t
  | .leaf _, _ :: _ => none
  | .node l r, b :: bs => (if b then r else l).follow bs

/-- The bits are the path from the root to the last leaf of symbol `y` in header order (R99). -/
def CodeTree.lastPath : CodeTree → Sym → Option (List Bool)
  | .leaf z, y => if z = y then some [] else none
  | .node l r, y =>
    match r.lastPath y with
    | some bs => some (true :: bs)
    | none => (l.lastPath y).map (fun bs => false :: bs)

/-- The subtree under a handle, read off the arena; `none` if it is no tree of at most `fuel` levels. -/
def treeAt (n : Arena) : Nat → Option Handle → Option CodeTree
  | 0, _ => none
  | fuel + 1, h =>
    match h.bind (nodeAt? n) with
    | none => none
    | some x =>
      if x.isLeaf then some (.leaf x.sym)
      else
        match treeAt n fuel x.c0, treeAt n fuel x.c1 with
        | some l, some r => some (.node l r)
        | _, _ => none

/-- The tree the block holds. -/
def Tree.code (t : Tree) : Option CodeTree := treeAt t.node nodeCap t.root

/-! ## The tree of a table, by the merge procedure on values (41_tree_builder.md R71 to R74) -/

/-- A pending node as a value: its exact frequency, its symbol, and the tree below it. -/
structure Weighted where
  freq : Nat
  sym  : Sym
  tree : CodeTree
deriving DecidableEq, Repr

/-- The total order of R71: frequency ascending, then symbol ascending. -/
def Weighted.before (x y : Weighted) : Bool :=
  decide (x.freq < y.freq) || (decide (x.freq = y.freq) && decide (x.sym.toNat < y.sym.toNat))

/-- `ExtractMin` of the collection `x :: xs`, by a scan: the node no other comes before, and the others (R71). -/
def extractMin : Weighted → List Weighted → Weighted × List Weighted
  | x, [] => (x, [])
  | x, y :: ys =>
    let (m, rest) := extractMin y ys
    if m.before x then (m, x :: rest) else (x, y :: ys)

/-- The node made of child0 `a` and child1 `b` (R73, R74). -/
def Weighted.merge (ms : MergeSym) (a b : Weighted) : Weighted where
  freq := a.freq + b.freq
  sym  := match ms with
    | .c0 => a.sym
    | .c1 => b.sym
  tree := .node a.tree b.tree

/-- The merge loop of R73 on a collection; `fuel` is at least the number of merges. -/
def huffman (ms : MergeSym) : Nat → List Weighted → Option CodeTree
  | 0, _ => none
  | _ + 1, [] => none
  | _ + 1, [x] => some x.tree
  | fuel + 1, x :: y :: ys =>
    match extractMin x (y :: ys) with
    | (_, []) => none
    | (a, z :: zs) =>
      match extractMin z zs with
      | (b, rest) => huffman ms fuel (a.merge ms b :: rest)

/-- The leaves of a table, one per symbol with a positive entry (R72). -/
def seedsOf (f : FreqTable) : List Weighted :=
  (presentSyms f).map fun y => { freq := (freqAt f y).toNat, sym := y, tree := .leaf y }

/-- The sum of the entries of a table. -/
def totalCount (f : FreqTable) : Nat := (allSyms.map fun y => (freqAt f y).toNat).sum

/-! ## A command's pseudocode (R106) -/

/-- BUILD and DES discard the tree on a fault (R107). -/
def discardsTree : Instr → Bool
  | .setf _ _ => false
  | .clrf => false
  | .build => true
  | .enc _ => false
  | .dec => false
  | .ser => false
  | .des => true

/-- The pseudocode of a command, between the lock and the response (R106): what its rule runs, and how that ends. -/
def bodyOf : Instr → State → Flow State Unit
  | .setf y c => setfBody y c
  | .clrf => clrfBody
  | .build => buildBody
  | .enc y => encBody y
  | .dec => decBody
  | .ser => serBody
  | .des => desBody

/-! ## The far ends over several transfers -/

/-- The sink after `n` more transfers, as far as its far end goes. -/
def Sink.skip : Nat → Sink → Sink
  | 0, k => k
  | n + 1, k => Sink.skip n k.next.2

/-- The next `n` transfers are accepted. -/
def Sink.accepts : Nat → Sink → Bool
  | 0, _ => true
  | n + 1, k => decide (k.next.1 = .ready false) && Sink.accepts n k.next.2

/-- The sink after it has accepted the bits of `bs`. -/
def Sink.written (bs : List Bool) (k : Sink) : Sink := { k.skip bs.length with snk := k.snk ++ bs }

/-- The source after `n` more transfers, as far as its far end goes. -/
def Source.skip : Nat → Source → Source
  | 0, k => k
  | n + 1, k => Source.skip n k.next.2

/-- The next transfers give the bits of `bs`. -/
def Source.gives : List Bool → Source → Bool
  | [], _ => true
  | b :: bs, k => decide (k.next.1 = .valid false false b) && Source.gives bs k.next.2

/-- The source after it has given `n` bits. -/
def Source.past (n : Nat) (k : Source) : Source := { k.skip n with taken := k.taken + n }

/-- What the transfer after `n` others meets. -/
def Source.beat (n : Nat) (k : Source) : SourceBeat := (k.skip n).next.1

/-- What the transfer after `n` others meets. -/
def Sink.beat (n : Nat) (k : Sink) : SinkBeat := (k.skip n).next.1

/-! ## The form of the tables -/

/-- The entries of a table stand in strictly ascending order of symbol. -/
def cellsSorted {β : Type} : List (Sym × β) → Bool
  | [] => true
  | c :: cs => cs.all (fun d => decide (c.1.toNat < d.1.toNat)) && cellsSorted cs

/-- The canonical form of `FREQ`: sorted, and no entry of 0 listed. -/
def freqWf (f : FreqTable) : Bool := cellsSorted f && f.all (fun c => decide (c.2 ≠ 0))

/-! ## The invariant -/

/-- A tree of arena slots: which slot each of its nodes stands in. -/
inductive SlotTree where
  | leaf (h : Handle)
  | node (h : Handle) (l r : SlotTree)
deriving DecidableEq, Repr

/-- The slot of the root. -/
def SlotTree.top : SlotTree → Handle
  | .leaf h => h
  | .node h _ _ => h

/-- The slots, in header order. -/
def SlotTree.slots : SlotTree → List Handle
  | .leaf h => [h]
  | .node h l r => h :: (l.slots ++ r.slots)

/-- The slots of the leaves, in header order. -/
def SlotTree.leafSlots : SlotTree → List Handle
  | .leaf h => [h]
  | .node _ l r => l.leafSlots ++ r.leafSlots

/-- The root is an internal node. -/
def SlotTree.isInner : SlotTree → Bool
  | .leaf _ => false
  | .node _ _ _ => true

/-- The tree as a value: the leaves' symbols in place of the slots (R23). -/
def SlotTree.value (n : Arena) : SlotTree → CodeTree
  | .leaf h => .leaf (nodeAt n h).sym
  | .node _ l r => .node (l.value n) (r.value n)

/-- The last leaf of symbol `y` in header order (R99). -/
def SlotTree.lastLeaf (n : Arena) (y : Sym) : SlotTree → Option Handle
  | .leaf h => if (nodeAt n h).sym = y then some h else none
  | .node _ l r => (r.lastLeaf n y).or (l.lastLeaf n y)

/-- The arena holds this tree, its root having the parent `p`: a leaf has no child, an internal node has exactly two,
each child's parent field names its parent, and an internal node's symbol is one of its children's (R12, R14, R20). -/
def SlotTree.heldBy (n : Arena) (p : Option Handle) : SlotTree → Prop
  | .leaf h => ∃ x, nodeAt? n h = some x ∧ x.c0 = none ∧ x.c1 = none ∧ x.parent = p
  | .node h l r =>
    (∃ x, nodeAt? n h = some x ∧ x.c0 = some l.top ∧ x.c1 = some r.top ∧ x.parent = p ∧
      (x.sym = (nodeAt n l.top).sym ∨ x.sym = (nodeAt n r.top).sym)) ∧
    l.heldBy n (some h) ∧ r.heldBy n (some h)

/-- The tree registers hold the tree `a`: it is a strict tree (no slot twice) of all the slots in use, at most 511 of
them, `ROOT` is its root, and `LEAF` names the last leaf of each symbol (R12, R15, R16, R20, R22). -/
def Tree.holds (t : Tree) (a : SlotTree) : Prop :=
  a.heldBy t.node none ∧ a.slots.Nodup ∧ a.slots.length = t.ncount ∧ t.ncount ≤ nodeCap ∧
  t.root = some a.top ∧ ∀ y, leafAt t.leaf y = a.lastLeaf t.node y

/-- Branch bits lead from the root to the slot `h`, down the child fields (R12, R62). -/
def Tree.leadsTo (t : Tree) (bits : List Bool) (h : Handle) : Prop :=
  bits.foldl (fun r b => r.bind fun g => (nodeAt t.node g).child b) t.root = some h

/-- The degenerate tree of R21 for the symbol `y` of frequency `c`. -/
def Tree.degenerate (y : Sym) (c : Count) : Tree where
  node := [{ sym := y, freq := zext40 c, c0 := none, c1 := none, parent := some 1 },
           { sym := y, freq := zext40 c, c0 := some 0, c1 := some 0, parent := none }]
  root := some 1
  leaf := [(y, 0)]
  kind := .singleton

/-- What the tree registers hold between commands, by `KIND` (R17, R19, R20, R21, R22). -/
def Tree.Inv (t : Tree) : Prop :=
  match t.kind with
  | .none => t = Tree.reset
  | .full => ∃ a : SlotTree, a.isInner = true ∧ t.holds a ∧ cellsSorted t.leaf = true
  | .singleton => ∃ y c, c ≠ 0 ∧ t = Tree.degenerate y c
  | .leafroot => ∃ a : SlotTree, a.isInner = false ∧ t.holds a ∧ cellsSorted t.leaf = true

/-- The invariant of the block's state: `FREQ` in its canonical form, and, unless a command is being held by a stream,
the tree registers as `Tree.Inv` says. -/
def State.Inv (s : State) : Prop := freqWf s.freq = true ∧ (s.waiting = none → s.tree.Inv)

end Sys2Proof.Machine
end

