-- ==== Sys2Proof/Certificates/Slice0/Obligations.lean ====
section
/-! DEFINITION. The statements for the provers. Each cites the rule of spec/ it formalises; OBLIGATIONS.json lists them. -/

open Sys2Proof Sys2Proof.Machine

/-! ## Words, fields and the step -/

/-- The words of V-X1 and of V-X2, written out from R50 and R53, decode to the commands they stand for, or are illegal. -/
def Obligations.WrittenOutWordsDecode : Prop :=
  decode 0x100A00000001 = .ok (.setf 10 1) ∧ decode 0x10FFFFFFFFFF = .ok (.setf 255 4294967295) ∧
  decode 0x200000000000 = .ok .clrf ∧ decode 0x300000000000 = .ok .build ∧
  decode 0x406200000000 = .ok (.enc 98) ∧ decode 0x500000000000 = .ok .dec ∧
  decode 0x600000000000 = .ok .ser ∧ decode 0x700000000000 = .ok .des ∧
  decode 0x000000000000 = .error (.reservedOp 0) ∧ decode 0x116100000005 = .error .mbzNonZero ∧
  decode 0x300100000000 = .error .symNonZero ∧ decode 0x406100000001 = .error .dataNonZero

/-- Decoding the encoding of a command gives the command, with every operand at every value (R50 to R53). -/
def Obligations.DecodeUndoesEncode : Prop := ∀ i : Instr, decode (encode i) = .ok i

/-- A word that decodes to a command is that command's one encoding (R52: CLRF, BUILD, DEC, SER, DES are one value
each, ENC 256, SETF 2^40). -/
def Obligations.DecodedWordIsItsEncoding : Prop := ∀ (w : CmdWord) (i : Instr), decode w = .ok i → encode i = w

/-- A word is the command of a row exactly when `w AND mask = match` (R53). -/
def Obligations.WordMatchesItsRow : Prop :=
  ∀ w : CmdWord,
    ((∃ y c, decode w = .ok (.setf y c)) ↔ w &&& 0xFF0000000000 = 0x100000000000) ∧
    (decode w = .ok .clrf ↔ w &&& 0xFFFFFFFFFFFF = 0x200000000000) ∧
    (decode w = .ok .build ↔ w &&& 0xFFFFFFFFFFFF = 0x300000000000) ∧
    ((∃ y, decode w = .ok (.enc y)) ↔ w &&& 0xFF00FFFFFFFF = 0x400000000000) ∧
    (decode w = .ok .dec ↔ w &&& 0xFFFFFFFFFFFF = 0x500000000000) ∧
    (decode w = .ok .ser ↔ w &&& 0xFFFFFFFFFFFF = 0x600000000000) ∧
    (decode w = .ok .des ↔ w &&& 0xFFFFFFFFFFFF = 0x700000000000)

/-- A word is illegal exactly when its fields are not those of a command; given to an unlocked block it sets ERR to 7,
changes nothing else, moves no stream and is answered with status 7 (R54). -/
def Obligations.IllegalWordsFault : Prop :=
  (∀ w : CmdWord, (∃ e, decode w = .error e) ↔ (fieldsOf w).legal = false) ∧
  (∀ (s : State) (w : CmdWord) (rest : List HostInput), s.host = .command w :: rest → s.waiting = none → s.err = none →
    (fieldsOf w).legal = false →
    step s = .next { s with host := rest, err := some .illegal, rsp := some (rspWord 7 s.tree.kind s.res) })

/-- When the word on the command channel decodes to `i` and no command is running, the step is `exec i` on the state
with the word taken (R9, R106; that the host's inputs stand in a list of State is the model's choice, log 3). -/
def Obligations.StepRunsTheDecodedCommand : Prop :=
  ∀ (s : State) (w : CmdWord) (rest : List HostInput) (i : Instr), s.host = .command w :: rest → s.waiting = none →
    decode w = .ok i → step s = exec i { s with host := rest }

/-- Operands of a written command that are in range are the command's operands; out of range there is no encoding
(R59). -/
def Obligations.WrittenOperandsInRange : Prop :=
  (∀ y c : Nat, y ≤ 255 → c ≤ 4294967295 →
    ∃ a b, (AsmCommand.setf y c).instr = some (.setf a b) ∧ a.toNat = y ∧ b.toNat = c) ∧
  (∀ y c : Nat, 255 < y ∨ 4294967295 < c → (AsmCommand.setf y c).instr = none) ∧
  (∀ y : Nat, y ≤ 255 → ∃ a, (AsmCommand.enc y).instr = some (.enc a) ∧ a.toNat = y) ∧
  (∀ y : Nat, 255 < y → (AsmCommand.enc y).instr = none)

/-! ## The lock, responses, reset, waiting -/

/-- While ERR is not 0 every word, legal or not, is answered with status 8 and does nothing else, whatever command it
is; and no step but a reset makes ERR anything else (R108). -/
def Obligations.LockedBlockDoesNothing : Prop :=
  ∀ (s : State) (x : Cause), s.err = some x →
    (∀ i : Instr, exec i s = .next { s with rsp := some (rspWord 8 s.tree.kind s.res) }) ∧
    (∀ (w : CmdWord) (rest : List HostInput), s.host = .command w :: rest → s.waiting = none →
      step s = .next { s with host := rest, rsp := some (rspWord 8 s.tree.kind s.res) }) ∧
    (∀ t : State, (∀ rest, s.host ≠ .reset :: rest) → (∀ w rest, s.host ≠ .commandCutByReset w :: rest) →
      step s = .next t → t.err = some x)

/-- A word the block accepts is answered, when its command ends, by one response: bits [15:12] a status, [11:10] KIND
after the command, [9:8] zero, [7:0] RES after the command (R57). -/
def Obligations.EveryWordIsAnswered : Prop :=
  (∀ (s t : State) (w : CmdWord) (rest : List HostInput), s.host = .command w :: rest → s.waiting = none →
    step s = .next t → t.waiting = none → ∃ st, t.rsp = some (rspWord st t.tree.kind t.res)) ∧
  (∀ (st : BitVec 4) (kind : Kind) (res : Sym),
    (rspWord st kind res).extractLsb' 12 4 = st ∧ (rspWord st kind res).extractLsb' 10 2 = kind.bits ∧
    (rspWord st kind res).extractLsb' 8 2 = 0 ∧ (rspWord st kind res).extractLsb' 0 8 = res)

/-- A command given to an unlocked block ends with status 0 and ERR 0 if its pseudocode comes to its end, and with
status and ERR the code of X, which is not 0, and the err output 1, if its pseudocode meets `raise X`; and one that ends
with ERR 0 passed over no failing transfer: each bit it handed to the sink was accepted and each answer it took from the
source was a bit (R115: "No error is silently swallowed"; R105, R106, R107). -/
def Obligations.StatusIsTheFaultMet : Prop :=
  ∀ (i : Instr) (s t : State), s.err = none → s.waiting = none → exec i s = .next t →
    (∀ u, bodyOf i s = .done () u → t.err = none ∧ t.errPin = false ∧ t.rsp = some (rspWord 0 t.tree.kind t.res)) ∧
    (∀ x u, bodyOf i s = .raise x u → t.err = some x ∧ x.code ≠ 0 ∧ t.errPin = true ∧
      t.rsp = some (rspWord x.code t.tree.kind t.res)) ∧
    (t.waiting = none → t.rsp = some (rspWord t.errBits t.tree.kind t.res)) ∧
    (t.waiting = none → t.err = none → ∃ out inp : List Bool,
      s.sink.accepts out.length = true ∧ t.sink = s.sink.written out ∧
      s.source.gives inp = true ∧ t.source = s.source.past inp.length)

/-- A command held by a stream gives no response and raises no fault, and then the block takes no word: unless the
host's next input is reset, it has no further step, and reset ends it (R64, R135, 93_implementation_defined.md U15). That
the held command gives a next state and that a later step stops with a fault of the model's own, also where a reset stands
behind a word among the host's inputs, is the model's reading of U15 (log 2). -/
def Obligations.HeldCommandHangs : Prop :=
  (∀ (i : Instr) (s t : State), s.err = none → s.waiting = none → exec i s = .next t → t.waiting ≠ none →
    t.rsp = none ∧ t.err = none ∧ t.cmdReady = false) ∧
  (∀ (s : State) (p : Port), s.waiting = some p → (∀ rest, s.host ≠ .reset :: rest) →
    step s = .fault (stalledAt p)) ∧
  (∀ (s : State) (p : Port) (rest : List HostInput), s.waiting = some p → s.host = .reset :: rest →
    ∃ t, step s = .next t ∧ t.waiting = none ∧ t.cmdReady = true ∧ t.rsp = none)

/-- The reset input, also with a command held by a stream, puts the block's state to its reset values, gives no
response, and leaves the sink and the source as they are (R125, R46). -/
def Obligations.ResetInputResetsTheBlock : Prop :=
  ∀ (s : State) (rest : List HostInput), s.host = .reset :: rest →
    ∃ t, step s = .next t ∧ (∀ y, freqAt t.freq y = 0) ∧ t.tree.ncount = 0 ∧ t.tree.root = none ∧
      (∀ y, leafAt t.tree.leaf y = none) ∧ t.tree.kind = .none ∧ t.err = none ∧ t.errPin = false ∧ t.res = 0 ∧
      t.waiting = none ∧ t.cmdReady = true ∧ t.rsp = none ∧ t.sink = s.sink ∧ t.source = s.source ∧ t.host = rest ∧
      t.mergeSym = s.mergeSym

/-- Reset inside a command, after its last transfer: no response, the block reset, and what the command moved on the
streams stays moved (R125, R46). With a word that is no command, which moves nothing, the streams stand as they stood
(R54, R125). That such a reset is an input of its own is the model's form of it (log 4). -/
def Obligations.ResetAbandonsACommand : Prop :=
  (∀ (s u : State) (w : CmdWord) (i : Instr) (rest : List HostInput), s.host = .commandCutByReset w :: rest →
    s.waiting = none → decode w = .ok i → exec i { s with host := rest } = .next u →
    ∃ t, step s = .next t ∧ t.rsp = none ∧ t.sink = u.sink ∧ t.source = u.source ∧ (∀ y, freqAt t.freq y = 0) ∧
      t.tree = Tree.reset ∧ t.err = none ∧ t.res = 0 ∧ t.waiting = none ∧ t.host = rest) ∧
  (∀ (s : State) (w : CmdWord) (e : Illegal) (rest : List HostInput), s.host = .commandCutByReset w :: rest →
    s.waiting = none → decode w = .error e →
    ∃ t, step s = .next t ∧ t.rsp = none ∧ t.sink = s.sink ∧ t.source = s.source ∧ (∀ y, freqAt t.freq y = 0) ∧
      t.tree = Tree.reset ∧ t.err = none ∧ t.res = 0 ∧ t.waiting = none ∧ t.host = rest)

/-- Every register's value after reset, the block's first and any later one, the arena with no slot to read and no
command under way; a later reset does not touch the sink and the source (R28). -/
def Obligations.ResetStateValues : Prop :=
  (∀ t : State, (t = State.reset ∨ ∃ s : State, t = s.resetBlock) →
    (∀ y, freqAt t.freq y = 0) ∧ (∀ h, nodeAt? t.tree.node h = none) ∧ t.tree.ncount = 0 ∧ t.tree.root = none ∧
    (∀ y, leafAt t.tree.leaf y = none) ∧ t.tree.kind = .none ∧ t.errBits = 0 ∧ t.res = 0 ∧ t.waiting = none) ∧
  (∀ s : State, s.resetBlock.sink = s.sink ∧ s.resetBlock.source = s.source)

/-- With no command the block waits, holding all state (R114); no response is given (log 10). -/
def Obligations.IdleBlockHoldsItsState : Prop :=
  ∀ s : State, s.host = [] → s.waiting = none → step s = .next { s with rsp := none }

/-- Nothing the block does takes a bit back from the sink or gives one back to the source, reset included (R24, R31,
R32, R46). -/
def Obligations.StreamsOnlyGrow : Prop :=
  ∀ s t : State, step s = .next t → s.sink.snk <+: t.sink.snk ∧ s.source.taken ≤ t.source.taken

/-! ## The invariant -/

/-- The reset state meets the invariant. -/
def Obligations.ResetStateMeetsTheInvariant : Prop := State.reset.Inv

/-- Every step keeps the invariant: FREQ canonical, and the tree registers a strict tree filling the slots in use, with
LEAF naming the last leaf of each symbol, or the degenerate tree, or no tree, as KIND says (R17, R19 to R22). -/
def Obligations.StepKeepsTheInvariant : Prop := ∀ s t : State, s.Inv → step s = .next t → t.Inv

/-- From a state that meets the invariant no step meets a broken arena: every command of the opcode table that the
block accepts there has a next state (R20, R22, R26). The fault `brokenTree`, for an arena that is no tree, is the model's
own (log 7), and so is the next state of a command that a stream holds for ever (log 2). -/
def Obligations.NoBrokenArena : Prop :=
  (∀ s : State, s.Inv → step s ≠ .fault .brokenTree) ∧
  (∀ (i : Instr) (s : State), s.Inv → s.waiting = none → ∃ t, exec i s = .next t)

/-! ## SETF and CLRF -/

/-- SETF writes its one entry, aliases no other, and is answered OK (R65, R11). -/
def Obligations.SetfWritesOneEntry : Prop :=
  ∀ (y : Sym) (c : Count) (s : State), s.err = none →
    ∃ t, exec (.setf y c) s = .next t ∧ freqAt t.freq y = c ∧ (∀ z, z ≠ y → freqAt t.freq z = freqAt s.freq z) ∧
      t.rsp = some (rspWord 0 s.tree.kind s.res) ∧ t.err = none ∧ t.tree = s.tree

/-- CLRF makes every entry 0 and is answered OK (R66). -/
def Obligations.ClrfClearsTheTable : Prop :=
  ∀ s : State, s.err = none →
    ∃ t, exec .clrf s = .next t ∧ (∀ y, freqAt t.freq y = 0) ∧ t.rsp = some (rspWord 0 s.tree.kind s.res) ∧
      t.err = none ∧ t.tree = s.tree

/-- What SETF and CLRF leave unchanged (R29). -/
def Obligations.SetfAndClrfFrame : Prop :=
  ∀ (i : Instr) (s t : State), (i = .clrf ∨ ∃ y c, i = .setf y c) → exec i s = .next t →
    t.tree = s.tree ∧ t.err = s.err ∧ t.res = s.res ∧ t.waiting = s.waiting ∧ t.sink = s.sink ∧
    t.source = s.source ∧ t.host = s.host ∧ t.mergeSym = s.mergeSym ∧
    (∀ y c z, i = .setf y c → z ≠ y → freqAt t.freq z = freqAt s.freq z)

/-! ## BUILD -/

/-- BUILD with no positive entry: the tree is discarded, ERR is DOMAIN (1), the block is locked (R76). -/
def Obligations.BuildOfNothingFaults : Prop :=
  ∀ s : State, s.err = none → (∀ y, freqAt s.freq y = 0) →
    ∃ t, exec .build s = .next t ∧ t.tree.kind = .none ∧ t.tree.root = none ∧ t.tree.ncount = 0 ∧
      (∀ y, leafAt t.tree.leaf y = none) ∧ t.err = some .domain ∧ t.errBits = 1 ∧ t.locked = true ∧
      t.rsp = some (rspWord 1 .none s.res)

/-- BUILD with exactly one symbol present makes the degenerate tree of R21 (R75). -/
def Obligations.BuildOfOneSymbol : Prop :=
  ∀ (s : State) (y : Sym), s.err = none → freqAt s.freq y ≠ 0 → (∀ z, z ≠ y → freqAt s.freq z = 0) →
    exec .build s =
      .next { s with
        tree := {
          node := [{ sym := y, freq := (freqAt s.freq y).setWidth 40, c0 := none, c1 := none, parent := some 1 },
                   { sym := y, freq := (freqAt s.freq y).setWidth 40, c0 := some 0, c1 := some 0, parent := none }],
          root := some 1, leaf := [(y, 0)], kind := .singleton },
        rsp := some (rspWord 0 .singleton s.res) }

/-- BUILD with two or more symbols present ends OK with KIND FULL: `2L - 1` slots, the root in the last, a strict tree
of them all, its leaves exactly the symbols present with their entries, LEAF naming each (R70, R72, R78, R20). -/
def Obligations.BuildOfManySymbols : Prop :=
  ∀ s : State, s.err = none → 2 ≤ (presentSyms s.freq).length →
    ∃ t a, exec .build s = .next t ∧ t.tree.kind = .full ∧ t.err = none ∧
      t.rsp = some (rspWord 0 .full s.res) ∧ t.tree.ncount + 1 = 2 * (presentSyms s.freq).length ∧
      (∃ r, t.tree.root = some r ∧ r.val + 1 = t.tree.ncount) ∧ a.isInner = true ∧ t.tree.holds a ∧
      (a.leafSlots.map fun h => ((nodeAt t.tree.node h).sym, (nodeAt t.tree.node h).freq)).Perm
        ((presentSyms s.freq).map fun y => (y, (freqAt s.freq y).setWidth 40)) ∧
      (∀ y, leafAt t.tree.leaf y ≠ none ↔ freqAt s.freq y ≠ 0)

/-- The tree BUILD makes is the one the merge procedure makes on values: exact sums, the least of all pending nodes
extracted first as child0 and the next as child1, under frequency then unsigned symbol, the merged symbol as MERGE_SYM
says, whichever it is (R71 to R74, R13). -/
def Obligations.BuildMakesTheMergeTree : Prop :=
  ∀ s : State, s.err = none → 2 ≤ (presentSyms s.freq).length →
    ∃ t T, exec .build s = .next t ∧ t.tree.code = some T ∧ huffman s.mergeSym 256 (seedsOf s.freq) = some T

/-- No sum wraps: every internal node's frequency is the exact sum of its two children's, and the root's is the sum of
the table's entries (R13, R20 item 4). -/
def Obligations.BuildFrequenciesAreExactSums : Prop :=
  ∀ s : State, s.err = none → 2 ≤ (presentSyms s.freq).length →
    ∃ t r, exec .build s = .next t ∧ t.tree.root = some r ∧ (nodeAt t.tree.node r).freq.toNat = totalCount s.freq ∧
      ∀ h a b, (nodeAt t.tree.node h).c0 = some a → (nodeAt t.tree.node h).c1 = some b →
        (nodeAt t.tree.node h).freq.toNat = (nodeAt t.tree.node a).freq.toNat + (nodeAt t.tree.node b).freq.toNat

/-- With MERGE_SYM fixed, the tree registers after BUILD are a function of the table: what tree was there before, and
everything else of the state, does not matter (R77 item 3, R70). -/
def Obligations.BuildDependsOnTheTableOnly : Prop :=
  ∀ s u : State, s.err = none → u.err = none → s.mergeSym = u.mergeSym → (∀ y, freqAt s.freq y = freqAt u.freq y) →
    ∃ t v, exec .build s = .next t ∧ exec .build u = .next v ∧ t.tree = v.tree ∧ t.err = v.err

/-- BUILD always ends, in any state, and raises nothing but DOMAIN; it leaves FREQ, RES, the streams and the host's
inputs as they are (R70, R79, R105, R29). -/
def Obligations.BuildFrame : Prop :=
  ∀ s : State, ∃ t, exec .build s = .next t ∧
    (s.err = none → t.err = none ∨ t.err = some .domain) ∧ (∀ x, s.err = some x → t.err = some x ∧ t.tree = s.tree) ∧
    t.freq = s.freq ∧ t.res = s.res ∧ t.waiting = s.waiting ∧ t.sink = s.sink ∧ t.source = s.source ∧
    t.host = s.host ∧ t.mergeSym = s.mergeSym

/-! ## ENC -/

/-- ENC on a FULL tree writes the path from the root to the leaf LEAF names, root first, and is answered OK (R80, R81,
R62, R99). -/
def Obligations.EncWritesThePath : Prop :=
  ∀ (y : Sym) (s : State) (T : CodeTree) (bits : List Bool), s.Inv → s.waiting = none → s.err = none →
    s.tree.kind = .full → s.tree.code = some T → T.lastPath y = some bits → s.sink.accepts bits.length = true →
    exec (.enc y) s =
      .next { s with
        sink := { s.sink.skip bits.length with snk := s.sink.snk ++ bits }, rsp := some (rspWord 0 .full s.res) }

/-- ENC on the degenerate tree writes exactly one bit, 0 (R84). -/
def Obligations.EncOfTheSingleton : Prop :=
  ∀ (y : Sym) (c : Count) (s : State), s.err = none → s.tree = Tree.degenerate y c → s.sink.accepts 1 = true →
    exec (.enc y) s =
      .next { s with
        sink := { s.sink.skip 1 with snk := s.sink.snk ++ [false] }, rsp := some (rspWord 0 .singleton s.res) }

/-- ENC with no tree faults NOTREE, on a tree that is one leaf SHAPE, both before LEAF is read (R83). -/
def Obligations.EncOnUnusableTrees : Prop :=
  ∀ (y : Sym) (s : State), s.err = none →
    (s.tree.kind = .none →
      exec (.enc y) s = .next { s with err := some .notree, rsp := some (rspWord 4 .none s.res) }) ∧
    (s.tree.kind = .leafroot →
      exec (.enc y) s = .next { s with err := some .shape, rsp := some (rspWord 5 .leafroot s.res) })

/-- ENC of a symbol with no leaf faults DOMAIN (1) with nothing written; the block is then locked (R82). -/
def Obligations.EncOfAbsentSymbol : Prop :=
  ∀ (y : Sym) (s : State), s.err = none → (s.tree.kind = .full ∨ s.tree.kind = .singleton) →
    leafAt s.tree.leaf y = none →
    ∃ t, exec (.enc y) s = .next t ∧ t.err = some .domain ∧ t.rsp = some (rspWord 1 s.tree.kind s.res) ∧
      t.sink = s.sink ∧ t.tree = s.tree ∧ t.locked = true

/-- An ENC whose n-th transfer fails has written a proper prefix of the code and faults IO; one whose n-th transfer is
never taken is held there (R31, R109, R135; the held state is the model's, log 2). On the degenerate tree, whose code is
the one bit 0, nothing is written in either case (R84). -/
def Obligations.EncStopsAtABadTransfer : Prop :=
  (∀ (y : Sym) (s : State) (T : CodeTree) (bits : List Bool) (n : Nat), s.Inv → s.waiting = none → s.err = none →
    s.tree.kind = .full → s.tree.code = some T → T.lastPath y = some bits → n < bits.length →
    s.sink.accepts n = true →
    (s.sink.beat n = .ready true →
      ∃ t, exec (.enc y) s = .next t ∧ t.sink.snk = s.sink.snk ++ bits.take n ∧ t.err = some .io ∧
        t.rsp = some (rspWord 3 .full s.res) ∧ t.tree = s.tree) ∧
    (s.sink.beat n = .never →
      ∃ t, exec (.enc y) s = .next t ∧ t.sink.snk = s.sink.snk ++ bits.take n ∧ t.err = none ∧ t.rsp = none ∧
        t.waiting = some .sink)) ∧
  (∀ (y : Sym) (c : Count) (s : State), s.waiting = none → s.err = none → s.tree = Tree.degenerate y c →
    (s.sink.beat 0 = .ready true →
      ∃ t, exec (.enc y) s = .next t ∧ t.sink.snk = s.sink.snk ∧ t.err = some .io ∧
        t.rsp = some (rspWord 3 .singleton s.res) ∧ t.tree = s.tree) ∧
    (s.sink.beat 0 = .never →
      ∃ t, exec (.enc y) s = .next t ∧ t.sink.snk = s.sink.snk ∧ t.err = none ∧ t.rsp = none ∧
        t.waiting = some .sink))

/-- Every code is 1 to 255 bits long (R62, R20 item 6, R137). -/
def Obligations.CodeLengthsAreBounded : Prop :=
  ∀ (s : State) (y : Sym) (h : Handle), s.Inv → s.waiting = none → (s.tree.kind = .full ∨ s.tree.kind = .singleton) →
    leafAt s.tree.leaf y = some h → ∃ bits, codeOf s.tree.node h = some bits ∧ 1 ≤ bits.length ∧ bits.length ≤ 255

/-- No code of a FULL tree is a prefix of another symbol's (R77 item 4). -/
def Obligations.CodesArePrefixFree : Prop :=
  ∀ (s : State) (y z : Sym) (g h : Handle) (a b : List Bool), s.Inv → s.waiting = none → s.tree.kind = .full →
    y ≠ z → leafAt s.tree.leaf y = some g → leafAt s.tree.leaf z = some h → codeOf s.tree.node g = some a →
    codeOf s.tree.node h = some b → ¬ a <+: b

/-- What ENC and SER leave unchanged, however they end: all of the block but ERR, the sink and the response (R26,
R29). -/
def Obligations.EncAndSerFrame : Prop :=
  ∀ (i : Instr) (s t : State), (i = .ser ∨ ∃ y, i = .enc y) → exec i s = .next t →
    t.freq = s.freq ∧ t.tree = s.tree ∧ t.res = s.res ∧ t.source = s.source ∧ t.host = s.host ∧
    t.mergeSym = s.mergeSym ∧ s.sink.snk <+: t.sink.snk ∧ (t.err = s.err ∨ s.err = none) ∧
    (t.waiting = s.waiting ∨ t.waiting = some .sink)

/-! ## DEC -/

/-- DEC reads the bits of a path to a leaf, no more, puts the leaf's symbol into RES and is answered OK with it (R85,
R86). -/
def Obligations.DecReturnsTheLeafsSymbol : Prop :=
  ∀ (s : State) (T : CodeTree) (bits : List Bool) (y : Sym), s.err = none →
    (s.tree.kind = .full ∨ s.tree.kind = .singleton) → s.tree.code = some T → bits ≠ [] →
    T.follow bits = some (.leaf y) → s.source.gives bits = true →
    exec .dec s =
      .next { s with
        res := y, source := { s.source.skip bits.length with taken := s.source.taken + bits.length },
        rsp := some (rspWord 0 s.tree.kind y) }

/-- DEC on the degenerate tree reads exactly one bit and returns the one symbol, whichever value the bit has (R87). -/
def Obligations.DecOfTheSingleton : Prop :=
  ∀ (y : Sym) (c : Count) (b : Bool) (s : State), s.err = none → s.tree = Tree.degenerate y c →
    s.source.gives [b] = true →
    exec .dec s =
      .next { s with
        res := y, source := { s.source.skip 1 with taken := s.source.taken + 1 },
        rsp := some (rspWord 0 .singleton y) }

/-- DEC with no tree faults NOTREE, on a tree that is one leaf SHAPE, both before any bit is read (R88). -/
def Obligations.DecOnUnusableTrees : Prop :=
  ∀ s : State, s.err = none →
    (s.tree.kind = .none → exec .dec s = .next { s with err := some .notree, rsp := some (rspWord 4 .none s.res) }) ∧
    (s.tree.kind = .leafroot →
      exec .dec s = .next { s with err := some .shape, rsp := some (rspWord 5 .leafroot s.res) })

/-- A DEC that stands at an internal node when the source is at its end faults CORRUPT, when the transfer fails IO, and
is held when the source never answers; the bits before are consumed and RES keeps its value (R85, R86, R109, R135; the
held state is the model's, log 2). -/
def Obligations.DecStopsAtABadTransfer : Prop :=
  ∀ (s : State) (T U : CodeTree) (bits : List Bool), s.err = none → s.waiting = none →
    (s.tree.kind = .full ∨ s.tree.kind = .singleton) → s.tree.code = some T → T.follow bits = some U →
    U.isInner = true → s.source.gives bits = true →
    ((∃ b, s.source.beat bits.length = .valid false true b) →
      ∃ t, exec .dec s = .next t ∧ t.err = some .corrupt ∧ t.rsp = some (rspWord 2 s.tree.kind s.res) ∧
        t.res = s.res ∧ t.tree = s.tree ∧ t.source.taken = s.source.taken + bits.length) ∧
    ((∃ eos b, s.source.beat bits.length = .valid true eos b) →
      ∃ t, exec .dec s = .next t ∧ t.err = some .io ∧ t.rsp = some (rspWord 3 s.tree.kind s.res) ∧
        t.res = s.res ∧ t.tree = s.tree ∧ t.source.taken = s.source.taken + bits.length) ∧
    (s.source.beat bits.length = .never →
      ∃ t, exec .dec s = .next t ∧ t.err = none ∧ t.rsp = none ∧ t.res = s.res ∧ t.waiting = some .source)

/-- What DEC leaves unchanged, however it ends; on a fault RES too (R26, R29, R85). -/
def Obligations.DecFrame : Prop :=
  ∀ s t : State, exec .dec s = .next t →
    t.freq = s.freq ∧ t.tree = s.tree ∧ t.sink = s.sink ∧ t.host = s.host ∧ t.mergeSym = s.mergeSym ∧
    (t.err ≠ none → t.res = s.res) ∧ (t.err = s.err ∨ s.err = none) ∧
    (t.waiting = s.waiting ∨ t.waiting = some .source)

/-! ## SER -/

/-- SER writes the header of the tree, flag, symbol, child0 before child1, and is answered OK; for `L` leaves of a tree
as a value that is `10L - 1` bits (R90, R91, R60, R61). -/
def Obligations.SerWritesTheHeader : Prop :=
  ∀ (s : State) (T : CodeTree), s.err = none → s.tree.kind ≠ .none → s.tree.code = some T →
    s.sink.accepts T.header.length = true →
    exec .ser s =
      .next { s with
        sink := { s.sink.skip T.header.length with snk := s.sink.snk ++ T.header },
        rsp := some (rspWord 0 s.tree.kind s.res) } ∧
    T.header.length + 1 = 10 * T.leaves

/-- SER of the degenerate tree writes 19 bits: flag 0, then the one leaf twice (R92). -/
def Obligations.SerOfTheSingleton : Prop :=
  ∀ (y : Sym) (c : Count) (s : State), s.err = none → s.tree = Tree.degenerate y c → s.sink.accepts 19 = true →
    ∃ t, exec .ser s = .next t ∧ t.err = none ∧ t.rsp = some (rspWord 0 .singleton s.res) ∧
      t.sink.snk = s.sink.snk ++ (false :: true :: symBits y ++ true :: symBits y)

/-- SER with no tree faults NOTREE; on a tree that is one leaf it is legal and writes nine bits (R93). -/
def Obligations.SerOnNoTreeAndOnOneLeaf : Prop :=
  ∀ s : State, s.err = none →
    (s.tree.kind = .none → exec .ser s = .next { s with err := some .notree, rsp := some (rspWord 4 .none s.res) }) ∧
    (∀ y : Sym, s.tree.kind = .leafroot → s.tree.code = some (.leaf y) → s.sink.accepts 9 = true →
      ∃ t, exec .ser s = .next t ∧ t.err = none ∧ t.rsp = some (rspWord 0 .leafroot s.res) ∧
        t.sink.snk = s.sink.snk ++ true :: symBits y)

/-- A SER whose n-th transfer fails has written a proper prefix of the header and faults IO; one whose n-th transfer is
never taken is held there (R31, R109, R135; the held state is the model's, log 2). -/
def Obligations.SerStopsAtABadTransfer : Prop :=
  ∀ (s : State) (T : CodeTree) (n : Nat), s.err = none → s.waiting = none → s.tree.kind ≠ .none →
    s.tree.code = some T → n < T.header.length → s.sink.accepts n = true →
    (s.sink.beat n = .ready true →
      ∃ t, exec .ser s = .next t ∧ t.sink.snk = s.sink.snk ++ T.header.take n ∧ t.err = some .io ∧
        t.rsp = some (rspWord 3 s.tree.kind s.res) ∧ t.tree = s.tree) ∧
    (s.sink.beat n = .never →
      ∃ t, exec .ser s = .next t ∧ t.sink.snk = s.sink.snk ++ T.header.take n ∧ t.err = none ∧ t.rsp = none ∧
        t.waiting = some .sink)

/-! ## DES -/

/-- DES reads exactly the bits of one header of at most 511 nodes and holds its tree: KIND by the root, slots in header
order with ROOT = 0, every frequency 0, LEAF the last leaf of each symbol; answered OK (R95, R96, R98, R99, R22). -/
def Obligations.DesReadsAHeader : Prop :=
  ∀ (s : State) (T : CodeTree), s.err = none → T.size ≤ 511 → s.source.gives T.header = true →
    ∃ t a, exec .des s = .next t ∧ t.err = none ∧ t.tree.code = some T ∧
      t.tree.kind = (if T.isInner then .full else .leafroot) ∧ t.tree.root = some 0 ∧ t.tree.ncount = T.size ∧
      t.source = { s.source.skip T.header.length with taken := s.source.taken + T.header.length } ∧
      t.rsp = some (rspWord 0 t.tree.kind s.res) ∧ t.tree.holds a ∧ a.value t.tree.node = T ∧
      a.slots.map Fin.val = List.range T.size ∧ (∀ h ∈ a.slots, (nodeAt t.tree.node h).freq = 0)

/-- DES of the header of the degenerate tree makes a FULL tree of three nodes, on which DEC returns the symbol for
either bit and ENC writes 1; no DES makes the degenerate tree itself (R101). -/
def Obligations.DesOfTheSingletonHeader : Prop :=
  (∀ s t : State, s.err = none → exec .des s = .next t → t.tree.kind ≠ .singleton) ∧
  ∀ (y : Sym) (s : State), s.err = none →
    s.source.gives (false :: true :: symBits y ++ true :: symBits y) = true →
    ∃ t, exec .des s = .next t ∧ t.err = none ∧
      t.tree = {
        node := [{ sym := y, freq := 0, c0 := some 1, c1 := some 2, parent := none },
                 { sym := y, freq := 0, c0 := none, c1 := none, parent := some 0 },
                 { sym := y, freq := 0, c0 := none, c1 := none, parent := some 0 }],
        root := some 0, leaf := [(y, 2)], kind := .full } ∧
      (∀ b, t.source.gives [b] = true → ∃ u, exec .dec t = .next u ∧ u.err = none ∧ u.res = y ∧
        u.source = { t.source.skip 1 with taken := t.source.taken + 1 }) ∧
      (t.sink.accepts 1 = true → ∃ u, exec (.enc y) t = .next u ∧ u.err = none ∧ u.sink.snk = t.sink.snk ++ [true])

/-- DES of a header that is one leaf makes the LEAFROOT tree of one slot; on it SER writes the nine bits again and ENC
and DEC fault SHAPE; no tree BUILD makes is one leaf (R102). -/
def Obligations.DesOfOneLeaf : Prop :=
  (∀ s t : State, s.err = none → exec .build s = .next t → ∀ z, t.tree.code ≠ some (.leaf z)) ∧
  ∀ (y : Sym) (s : State), s.err = none → s.source.gives (true :: symBits y) = true →
    ∃ t, exec .des s = .next t ∧ t.err = none ∧
      t.tree = {
        node := [{ sym := y, freq := 0, c0 := none, c1 := none, parent := none }],
        root := some 0, leaf := [(y, 0)], kind := .leafroot } ∧
      (t.sink.accepts 9 = true → ∃ u, exec .ser t = .next u ∧ u.err = none ∧
        u.sink.snk = t.sink.snk ++ true :: symBits y) ∧
      (∀ z, ∃ u, exec (.enc z) t = .next u ∧ u.err = some .shape) ∧ (∃ u, exec .dec t = .next u ∧ u.err = some .shape)

/-- A header of more than 511 nodes faults CAPACITY (6) when the flags of exactly 511 nodes, and the symbols of the
leaves among them, have been read (R100). -/
def Obligations.DesOverCapacityFaults : Prop :=
  ∀ (s : State) (T : CodeTree), s.err = none → 511 < T.size → s.source.gives (T.firstNodes 511).1 = true →
    ∃ t, exec .des s = .next t ∧ t.err = some .capacity ∧ t.rsp = some (rspWord 6 .none s.res) ∧
      t.tree = Tree.reset ∧
      t.source = { s.source.skip (T.firstNodes 511).1.length with
        taken := s.source.taken + (T.firstNodes 511).1.length }

/-- The source ending anywhere inside the part of a header that DES reads, at a flag or inside a symbol, also before its
first bit, is CORRUPT (2); the bits before are consumed and the block holds no tree (R103, R95). -/
def Obligations.DesSourceEndsInHeader : Prop :=
  ∀ (s : State) (T : CodeTree) (bits : List Bool) (b : Bool), s.err = none → bits <+: (T.firstNodes 511).1 →
    bits.length < (T.firstNodes 511).1.length → s.source.gives bits = true →
    s.source.beat bits.length = .valid false true b →
    ∃ t, exec .des s = .next t ∧ t.err = some .corrupt ∧ t.rsp = some (rspWord 2 .none s.res) ∧
      t.tree = Tree.reset ∧ t.source.taken = s.source.taken + bits.length

/-- A transfer that fails inside the part of a header that DES reads is IO and leaves no tree; one that never happens
holds the command (R95, R107, R135; the held state is the model's, log 2). -/
def Obligations.DesStopsAtABadTransfer : Prop :=
  ∀ (s : State) (T : CodeTree) (bits : List Bool), s.err = none → bits <+: (T.firstNodes 511).1 →
    bits.length < (T.firstNodes 511).1.length → s.source.gives bits = true →
    ((∃ eos b, s.source.beat bits.length = .valid true eos b) →
      ∃ t, exec .des s = .next t ∧ t.err = some .io ∧ t.rsp = some (rspWord 3 .none s.res) ∧
        t.tree = Tree.reset ∧ t.source.taken = s.source.taken + bits.length) ∧
    (s.source.beat bits.length = .never →
      ∃ t, exec .des s = .next t ∧ t.err = none ∧ t.rsp = none ∧ t.waiting = some .source ∧
        t.source.taken = s.source.taken + bits.length)

/-- A fault inside DES is CORRUPT, IO or CAPACITY and leaves no tree, the one that was there included (R95, R107). -/
def Obligations.DesFaultLeavesNoTree : Prop :=
  ∀ (s t : State) (x : Cause), s.err = none → exec .des s = .next t → t.err = some x →
    (x = .corrupt ∨ x = .io ∨ x = .capacity) ∧ t.tree = Tree.reset ∧ t.rsp = some (rspWord x.code .none s.res)

/-- DES has a next state in every state, and leaves FREQ, RES, the sink and the host's inputs as they are (R95, R29,
R108). For a source that never answers, where R135 says that the command never ends, that next state is the held one,
which is the model's choice (log 2). -/
def Obligations.DesFrame : Prop :=
  ∀ s : State, ∃ t, exec .des s = .next t ∧ t.freq = s.freq ∧ t.res = s.res ∧ t.sink = s.sink ∧ t.host = s.host ∧
    t.mergeSym = s.mergeSym ∧ (∀ x, s.err = some x → t.err = some x ∧ t.tree = s.tree ∧ t.source = s.source) ∧
    (t.waiting = s.waiting ∨ t.waiting = some .source)

/-! ## Round trips, and what can be observed -/

/-- A tree of KIND FULL or SINGLETON that SER writes and DES reads back on any block decodes every bit string alike:
the two DECs meet the same fault or none, return the same symbol and take the same bits. If it was FULL, the two ENCs
of any symbol write the same too; if it was SINGLETON, ENC of its symbol wrote 0 and now writes 1 (R94). -/
def Obligations.SerThenDesDecodesAlike : Prop :=
  ∀ (s d : State) (T : CodeTree), s.Inv → s.waiting = none → d.waiting = none → s.err = none → d.err = none →
    (s.tree.kind = .full ∨ s.tree.kind = .singleton) → s.tree.code = some T →
    s.sink.accepts T.header.length = true → d.source.gives T.header = true →
    ∃ s' d', exec .ser s = .next s' ∧ s'.sink.snk = s.sink.snk ++ T.header ∧ s'.tree = s.tree ∧
      exec .des d = .next d' ∧ d'.tree.kind = .full ∧ d'.tree.code = some T ∧
      (∀ k : Source, ∃ t u, exec .dec { s with source := k } = .next t ∧ exec .dec { d' with source := k } = .next u ∧
        t.err = u.err ∧ t.source = u.source ∧ t.waiting = u.waiting ∧
        (t.err = none → t.waiting = none → t.res = u.res)) ∧
      (s.tree.kind = .full → ∀ (y : Sym) (k : Sink), ∃ t u, exec (.enc y) { s with sink := k } = .next t ∧
        exec (.enc y) { d' with sink := k } = .next u ∧ t.err = u.err ∧ t.sink = u.sink ∧ t.waiting = u.waiting) ∧
      (∀ y c, s.tree = Tree.degenerate y c → ∀ k : Sink, k.accepts 1 = true →
        ∃ t u, exec (.enc y) { s with sink := k } = .next t ∧ t.err = none ∧ t.sink.snk = k.snk ++ [false] ∧
          exec (.enc y) { d' with sink := k } = .next u ∧ u.err = none ∧ u.sink.snk = k.snk ++ [true])

/-- The code ENC writes for a symbol, given to DEC on the same tree, returns the symbol and takes exactly those bits
(R67, R81, R86). -/
def Obligations.EncThenDecGivesTheSymbol : Prop :=
  ∀ (y : Sym) (s : State) (h : Handle), s.Inv → s.waiting = none → s.err = none →
    (s.tree.kind = .full ∨ s.tree.kind = .singleton) → leafAt s.tree.leaf y = some h →
    ∃ bits, (∀ k : Sink, k.accepts bits.length = true →
        ∃ t, exec (.enc y) { s with sink := k } = .next t ∧ t.sink.snk = k.snk ++ bits ∧ t.err = none) ∧
      (∀ k : Source, k.gives bits = true →
        ∃ t, exec .dec { s with source := k } = .next t ∧ t.res = y ∧ t.err = none ∧
          t.source = { k.skip bits.length with taken := k.taken + bits.length })

/-- What DEC and SER do depends on the tree only through KIND, its shape and its leaves' symbols, and what ENC of a symbol
does only through KIND, whether LEAF at it is present and the path from the root to the leaf it names: not on handles,
frequencies or internal symbols (R23). -/
def Obligations.OnlyShapeIsObserved : Prop :=
  (∀ (s u : State) (T : CodeTree) (i : Instr), (i = .dec ∨ i = .ser) → s.tree.code = some T → u.tree.code = some T →
    (s.tree.kind = .full → T.isInner = true) → (s.tree.kind = .singleton → T.isInner = true) →
    u = { s with tree := u.tree } → u.tree.kind = s.tree.kind →
    ∃ t v, exec i s = .next t ∧ exec i u = .next v ∧ v = { t with tree := u.tree }) ∧
  (∀ (s u : State) (y : Sym), s.tree.Inv → u.tree.Inv → u = { s with tree := u.tree } → u.tree.kind = s.tree.kind →
    ((leafAt s.tree.leaf y = none ∧ leafAt u.tree.leaf y = none) ∨
      ∃ g h bits, leafAt s.tree.leaf y = some g ∧ leafAt u.tree.leaf y = some h ∧ s.tree.leadsTo bits g ∧
        u.tree.leadsTo bits h) →
    ∃ t v, exec (.enc y) s = .next t ∧ exec (.enc y) u = .next v ∧ v = { t with tree := u.tree })

/-- How many bits a command that ends OK moves: ENC and DEC 1 to 255, SER and DES 9 to 2559 (R137). -/
def Obligations.TransfersAreBounded : Prop :=
  ∀ (i : Instr) (s t : State), s.Inv → s.waiting = none → s.err = none → exec i s = .next t → t.err = none →
    t.waiting = none →
    (∀ y, i = .enc y → s.sink.snk.length + 1 ≤ t.sink.snk.length ∧ t.sink.snk.length ≤ s.sink.snk.length + 255) ∧
    (i = .dec → s.source.taken + 1 ≤ t.source.taken ∧ t.source.taken ≤ s.source.taken + 255) ∧
    (i = .ser → s.sink.snk.length + 9 ≤ t.sink.snk.length ∧ t.sink.snk.length ≤ s.sink.snk.length + 2559) ∧
    (i = .des → s.source.taken + 9 ≤ t.source.taken ∧ t.source.taken ≤ s.source.taken + 2559)
end

