-- ==== Sys2Proof/Laws/State.lean ====
section
/-! SUPPORT. What each named update of the state leaves in each field: one lemma per field per update. -/

namespace Sys2Proof.Machine

@[simp] theorem State.respond_freq (st : BitVec 4) (s : State) : (s.respond st).freq = s.freq := rfl
@[simp] theorem State.respond_tree (st : BitVec 4) (s : State) : (s.respond st).tree = s.tree := rfl
@[simp] theorem State.respond_err (st : BitVec 4) (s : State) : (s.respond st).err = s.err := rfl
@[simp] theorem State.respond_res (st : BitVec 4) (s : State) : (s.respond st).res = s.res := rfl
@[simp] theorem State.respond_waiting (st : BitVec 4) (s : State) : (s.respond st).waiting = s.waiting := rfl
@[simp] theorem State.respond_rsp (st : BitVec 4) (s : State) : (s.respond st).rsp = some (rspWord st s.tree.kind s.res) := rfl
@[simp] theorem State.respond_sink (st : BitVec 4) (s : State) : (s.respond st).sink = s.sink := rfl
@[simp] theorem State.respond_source (st : BitVec 4) (s : State) : (s.respond st).source = s.source := rfl
@[simp] theorem State.respond_host (st : BitVec 4) (s : State) : (s.respond st).host = s.host := rfl
@[simp] theorem State.respond_mergeSym (st : BitVec 4) (s : State) : (s.respond st).mergeSym = s.mergeSym := rfl

@[simp] theorem State.hold_freq (p : Port) (s : State) : (s.hold p).freq = s.freq := rfl
@[simp] theorem State.hold_tree (p : Port) (s : State) : (s.hold p).tree = s.tree := rfl
@[simp] theorem State.hold_err (p : Port) (s : State) : (s.hold p).err = s.err := rfl
@[simp] theorem State.hold_res (p : Port) (s : State) : (s.hold p).res = s.res := rfl
@[simp] theorem State.hold_waiting (p : Port) (s : State) : (s.hold p).waiting = some p := rfl
@[simp] theorem State.hold_rsp (p : Port) (s : State) : (s.hold p).rsp = none := rfl
@[simp] theorem State.hold_sink (p : Port) (s : State) : (s.hold p).sink = s.sink := rfl
@[simp] theorem State.hold_source (p : Port) (s : State) : (s.hold p).source = s.source := rfl
@[simp] theorem State.hold_host (p : Port) (s : State) : (s.hold p).host = s.host := rfl
@[simp] theorem State.hold_mergeSym (p : Port) (s : State) : (s.hold p).mergeSym = s.mergeSym := rfl

@[simp] theorem State.resetBlock_freq (s : State) : s.resetBlock.freq = [] := rfl
@[simp] theorem State.resetBlock_tree (s : State) : s.resetBlock.tree = Tree.reset := rfl
@[simp] theorem State.resetBlock_err (s : State) : s.resetBlock.err = none := rfl
@[simp] theorem State.resetBlock_res (s : State) : s.resetBlock.res = 0 := rfl
@[simp] theorem State.resetBlock_waiting (s : State) : s.resetBlock.waiting = none := rfl
@[simp] theorem State.resetBlock_rsp (s : State) : s.resetBlock.rsp = none := rfl
@[simp] theorem State.resetBlock_sink (s : State) : s.resetBlock.sink = s.sink := rfl
@[simp] theorem State.resetBlock_source (s : State) : s.resetBlock.source = s.source := rfl
@[simp] theorem State.resetBlock_host (s : State) : s.resetBlock.host = s.host := rfl
@[simp] theorem State.resetBlock_mergeSym (s : State) : s.resetBlock.mergeSym = s.mergeSym := rfl

@[simp] theorem takeFault_freq (d : Bool) (x : Cause) (s : State) : (takeFault d x s).freq = s.freq := rfl
@[simp] theorem takeFault_tree (d : Bool) (x : Cause) (s : State) : (takeFault d x s).tree = if d then s.tree.discard else s.tree := rfl
@[simp] theorem takeFault_err (d : Bool) (x : Cause) (s : State) : (takeFault d x s).err = some x := rfl
@[simp] theorem takeFault_res (d : Bool) (x : Cause) (s : State) : (takeFault d x s).res = s.res := rfl
@[simp] theorem takeFault_waiting (d : Bool) (x : Cause) (s : State) : (takeFault d x s).waiting = s.waiting := rfl
@[simp] theorem takeFault_rsp (d : Bool) (x : Cause) (s : State) : (takeFault d x s).rsp = some (rspWord x.code (takeFault d x s).tree.kind s.res) := rfl
@[simp] theorem takeFault_sink (d : Bool) (x : Cause) (s : State) : (takeFault d x s).sink = s.sink := rfl
@[simp] theorem takeFault_source (d : Bool) (x : Cause) (s : State) : (takeFault d x s).source = s.source := rfl
@[simp] theorem takeFault_host (d : Bool) (x : Cause) (s : State) : (takeFault d x s).host = s.host := rfl
@[simp] theorem takeFault_mergeSym (d : Bool) (x : Cause) (s : State) : (takeFault d x s).mergeSym = s.mergeSym := rfl

@[simp] theorem lockedAnswer_freq (s : State) : (lockedAnswer s).freq = s.freq := rfl
@[simp] theorem lockedAnswer_tree (s : State) : (lockedAnswer s).tree = s.tree := rfl
@[simp] theorem lockedAnswer_err (s : State) : (lockedAnswer s).err = s.err := rfl
@[simp] theorem lockedAnswer_res (s : State) : (lockedAnswer s).res = s.res := rfl
@[simp] theorem lockedAnswer_waiting (s : State) : (lockedAnswer s).waiting = s.waiting := rfl
@[simp] theorem lockedAnswer_rsp (s : State) : (lockedAnswer s).rsp = some (rspWord stLocked s.tree.kind s.res) := rfl
@[simp] theorem lockedAnswer_sink (s : State) : (lockedAnswer s).sink = s.sink := rfl
@[simp] theorem lockedAnswer_source (s : State) : (lockedAnswer s).source = s.source := rfl
@[simp] theorem lockedAnswer_host (s : State) : (lockedAnswer s).host = s.host := rfl
@[simp] theorem lockedAnswer_mergeSym (s : State) : (lockedAnswer s).mergeSym = s.mergeSym := rfl

@[simp] theorem Tree.putNode_node (t : Tree) (h : Handle) (x : Node) : (t.putNode h x).node = nodePut t.node h x := rfl
@[simp] theorem Tree.putNode_root (t : Tree) (h : Handle) (x : Node) : (t.putNode h x).root = t.root := rfl
@[simp] theorem Tree.putNode_leaf (t : Tree) (h : Handle) (x : Node) : (t.putNode h x).leaf = t.leaf := rfl
@[simp] theorem Tree.putNode_kind (t : Tree) (h : Handle) (x : Node) : (t.putNode h x).kind = t.kind := rfl

@[simp] theorem Tree.putParent_node (t : Tree) (h p : Handle) : (t.putParent h p).node = parentPut t.node h p := rfl
@[simp] theorem Tree.putParent_root (t : Tree) (h p : Handle) : (t.putParent h p).root = t.root := rfl
@[simp] theorem Tree.putParent_leaf (t : Tree) (h p : Handle) : (t.putParent h p).leaf = t.leaf := rfl
@[simp] theorem Tree.putParent_kind (t : Tree) (h p : Handle) : (t.putParent h p).kind = t.kind := rfl

@[simp] theorem Tree.putLeaf_node (t : Tree) (y : Sym) (h : Handle) : (t.putLeaf y h).node = t.node := rfl
@[simp] theorem Tree.putLeaf_root (t : Tree) (y : Sym) (h : Handle) : (t.putLeaf y h).root = t.root := rfl
@[simp] theorem Tree.putLeaf_leaf (t : Tree) (y : Sym) (h : Handle) : (t.putLeaf y h).leaf = leafPut t.leaf y h := rfl
@[simp] theorem Tree.putLeaf_kind (t : Tree) (y : Sym) (h : Handle) : (t.putLeaf y h).kind = t.kind := rfl

@[simp] theorem Tree.discard_eq (t : Tree) : t.discard = Tree.reset := rfl
@[simp] theorem Tree.reset_node : Tree.reset.node = [] := rfl
@[simp] theorem Tree.reset_root : Tree.reset.root = none := rfl
@[simp] theorem Tree.reset_leaf : Tree.reset.leaf = [] := rfl
@[simp] theorem Tree.reset_kind : Tree.reset.kind = .none := rfl

/-- `Alloc()` gives the first slot not in use and takes it (R15). -/
theorem Tree.alloc_some {t t' : Tree} {h : Handle} (e : t.alloc = some (h, t')) :
    h.val = t.node.length ∧ t' = { t with node := t.node ++ [Node.blank] } := by
  unfold Tree.alloc at e
  split at e
  · simp only [Option.some.injEq, Prod.mk.injEq] at e
    exact ⟨by rw [← e.1], e.2.symm⟩
  · cases e

/-- `Alloc()` fails exactly when all 511 slots are in use (R100). -/
theorem Tree.alloc_none {t : Tree} : t.alloc = none ↔ nodeCap ≤ t.node.length := by
  unfold Tree.alloc
  split <;> simp <;> omega

/-- `Alloc()` with a slot left. -/
theorem Tree.alloc_of_lt {t : Tree} (h : t.node.length < nodeCap) :
    t.alloc = some (⟨t.node.length, h⟩, { t with node := t.node ++ [Node.blank] }) := by
  simp [Tree.alloc, h]

end Sys2Proof.Machine
end

