-- ==== Sys2Proof/Laws/Tables.lean ====
section
/-! SUPPORT. Reading after writing in FREQ, LEAF and NODE, and that every write keeps the tables' canonical form. -/

namespace Sys2Proof.Machine

variable {β : Type}

theorem cellAt_cellDrop_self (cs : List (Sym × β)) (y : Sym) : cellAt (cellDrop cs y) y = none := by
  induction cs with
  | nil => rfl
  | cons c cs ih =>
    by_cases h : c.1 = y
    · simpa [cellDrop, h] using ih
    · simpa [cellDrop, h, cellAt] using ih

theorem cellAt_cellDrop_ne (cs : List (Sym × β)) {y z : Sym} (hz : z ≠ y) :
    cellAt (cellDrop cs y) z = cellAt cs z := by
  induction cs with
  | nil => rfl
  | cons c cs ih =>
    by_cases h : c.1 = y
    · have : c.1 ≠ z := fun e => hz (e ▸ h)
      simpa [cellDrop, h, cellAt, hz.symm] using ih
    · by_cases hc : c.1 = z
      · simp [cellDrop, cellAt, hc, hz]
      · simpa [cellDrop, h, cellAt, hc] using ih

theorem cellAt_cellInsert_ne (cs : List (Sym × β)) {y z : Sym} (v : β) (hz : z ≠ y) :
    cellAt (cellInsert y v cs) z = cellAt cs z := by
  induction cs with
  | nil => simp [cellInsert, cellAt, hz.symm]
  | cons c cs ih =>
    unfold cellInsert
    split
    · simp [cellAt, hz.symm]
    · simp [cellAt, ih]

theorem cellAt_cellInsert_self (cs : List (Sym × β)) {y : Sym} (v : β) (hy : cellAt cs y = none) :
    cellAt (cellInsert y v cs) y = some v := by
  induction cs with
  | nil => simp [cellInsert, cellAt]
  | cons c cs ih =>
    have hc : c.1 ≠ y := fun e => by simp [cellAt, e] at hy
    simp only [cellAt, if_neg hc] at hy
    unfold cellInsert
    split
    · simp [cellAt]
    · simp [cellAt, hc, ih hy]

theorem cellAt_cellPut_self (cs : List (Sym × β)) (y : Sym) (v : β) : cellAt (cellPut cs y v) y = some v :=
  cellAt_cellInsert_self _ _ (cellAt_cellDrop_self cs y)

theorem cellAt_cellPut_ne (cs : List (Sym × β)) {y z : Sym} (v : β) (hz : z ≠ y) :
    cellAt (cellPut cs y v) z = cellAt cs z := by
  rw [cellPut, cellAt_cellInsert_ne _ _ hz, cellAt_cellDrop_ne _ hz]

/-- `FREQ[s]` after `FREQ[s] <- v` (R11). -/
@[simp] theorem freqAt_freqPut_self (f : FreqTable) (y : Sym) (v : Count) : freqAt (freqPut f y v) y = v := by
  unfold freqPut freqAt
  split
  · simp [cellAt_cellDrop_self, *]
  · simp [cellAt_cellPut_self]

/-- No entry aliases another (R11). -/
theorem freqAt_freqPut_ne (f : FreqTable) {y z : Sym} (v : Count) (hz : z ≠ y) :
    freqAt (freqPut f y v) z = freqAt f z := by
  unfold freqPut freqAt
  split
  · rw [cellAt_cellDrop_ne _ hz]
  · rw [cellAt_cellPut_ne _ _ hz]

@[simp] theorem freqAt_nil (y : Sym) : freqAt [] y = 0 := rfl

/-- `LEAF[s]` after `LEAF[s] <- h` (R16). -/
@[simp] theorem leafAt_leafPut_self (l : LeafTable) (y : Sym) (h : Handle) : leafAt (leafPut l y h) y = some h :=
  cellAt_cellPut_self l y h

theorem leafAt_leafPut_ne (l : LeafTable) {y z : Sym} (h : Handle) (hz : z ≠ y) :
    leafAt (leafPut l y h) z = leafAt l z :=
  cellAt_cellPut_ne l h hz

@[simp] theorem leafAt_nil (y : Sym) : leafAt [] y = none := rfl

/-! ## The canonical form -/

theorem cellsSorted_cellDrop {cs : List (Sym × β)} (y : Sym) (h : cellsSorted cs = true) :
    cellsSorted (cellDrop cs y) = true := by
  induction cs with
  | nil => rfl
  | cons c cs ih =>
    simp only [cellsSorted, Bool.and_eq_true, List.all_eq_true] at h
    by_cases hc : c.1 = y
    · simpa [cellDrop, hc] using ih h.2
    · have hd : cellDrop (c :: cs) y = c :: cellDrop cs y := by simp [cellDrop, hc]
      rw [hd]
      simp only [cellsSorted, Bool.and_eq_true, List.all_eq_true]
      exact ⟨fun d hdm => h.1 d (List.mem_of_mem_filter hdm), ih h.2⟩

theorem mem_cellInsert {cs : List (Sym × β)} {y : Sym} {v : β} {d : Sym × β} :
    d ∈ cellInsert y v cs ↔ d = (y, v) ∨ d ∈ cs := by
  induction cs with
  | nil => simp [cellInsert]
  | cons c cs ih =>
    unfold cellInsert
    split
    · simp
    · simp [ih]; tauto

theorem cellsSorted_cellInsert {cs : List (Sym × β)} {y : Sym} (v : β) (h : cellsSorted cs = true)
    (hy : ∀ d ∈ cs, d.1 ≠ y) : cellsSorted (cellInsert y v cs) = true := by
  induction cs with
  | nil => rfl
  | cons c cs ih =>
    simp only [cellsSorted, Bool.and_eq_true, List.all_eq_true, decide_eq_true_eq] at h
    unfold cellInsert
    split
    · next hlt =>
      simp only [cellsSorted, Bool.and_eq_true, List.all_eq_true, decide_eq_true_eq, List.mem_cons,
        forall_eq_or_imp]
      exact ⟨⟨hlt, fun d hd => hlt.trans (h.1 d hd)⟩, h⟩
    · next hge =>
      have hcy : c.1.toNat ≠ y.toNat := fun e => hy c (by simp) (BitVec.eq_of_toNat_eq e)
      simp only [cellsSorted, Bool.and_eq_true, List.all_eq_true, decide_eq_true_eq]
      refine ⟨fun d hd => ?_, ih h.2 fun d hd => hy d (by simp [hd])⟩
      rcases mem_cellInsert.1 hd with rfl | hd
      · simp only; omega
      · exact h.1 d hd

theorem not_mem_cellDrop {cs : List (Sym × β)} {y : Sym} {d : Sym × β} (h : d ∈ cellDrop cs y) : d.1 ≠ y := by
  simpa using (List.mem_filter.1 h).2

theorem cellsSorted_cellPut {cs : List (Sym × β)} (y : Sym) (v : β) (h : cellsSorted cs = true) :
    cellsSorted (cellPut cs y v) = true :=
  cellsSorted_cellInsert v (cellsSorted_cellDrop y h) fun _ => not_mem_cellDrop

/-- A write to `LEAF` keeps the canonical form. -/
theorem cellsSorted_leafPut {l : LeafTable} (y : Sym) (h : Handle) (hl : cellsSorted l = true) :
    cellsSorted (leafPut l y h) = true :=
  cellsSorted_cellPut y h hl

/-- A write to `FREQ` keeps the canonical form. -/
theorem freqWf_freqPut {f : FreqTable} (y : Sym) (v : Count) (h : freqWf f = true) :
    freqWf (freqPut f y v) = true := by
  simp only [freqWf, Bool.and_eq_true, List.all_eq_true, decide_eq_true_eq] at h ⊢
  unfold freqPut
  split
  · exact ⟨cellsSorted_cellDrop y h.1, fun c hc => h.2 c (List.mem_of_mem_filter hc)⟩
  · next hv =>
    refine ⟨cellsSorted_cellPut y v h.1, fun c hc => ?_⟩
    rcases mem_cellInsert.1 hc with rfl | hc
    · exact hv
    · exact h.2 c (List.mem_of_mem_filter hc)

/-! ## The arena -/

@[simp] theorem nodePut_length (n : Arena) (h : Handle) (x : Node) : (nodePut n h x).length = n.length := by
  simp [nodePut]

@[simp] theorem parentPut_length (n : Arena) (h p : Handle) : (parentPut n h p).length = n.length := by
  simp [parentPut]

theorem nodeAt?_nodePut_self {n : Arena} {h : Handle} (x : Node) (hh : h.val < n.length) :
    nodeAt? (nodePut n h x) h = some x := by
  simp [nodeAt?, nodePut, hh]

theorem nodeAt?_nodePut_ne (n : Arena) {h g : Handle} (x : Node) (hg : g ≠ h) :
    nodeAt? (nodePut n h x) g = nodeAt? n g := by
  have : h.val ≠ g.val := fun e => hg (Fin.ext e.symm)
  simp [nodeAt?, nodePut, this]

theorem nodeAt_nodePut_self {n : Arena} {h : Handle} (x : Node) (hh : h.val < n.length) :
    nodeAt (nodePut n h x) h = x := by
  simp [nodeAt, nodeAt?_nodePut_self x hh]

theorem nodeAt_nodePut_ne (n : Arena) {h g : Handle} (x : Node) (hg : g ≠ h) :
    nodeAt (nodePut n h x) g = nodeAt n g := by
  simp [nodeAt, nodeAt?_nodePut_ne n x hg]

/-- A slot in use holds a node (R12). -/
theorem nodeAt?_of_lt {n : Arena} {h : Handle} (hh : h.val < n.length) : nodeAt? n h = some (nodeAt n h) := by
  simp [nodeAt, nodeAt?, hh]

theorem nodeAt?_isSome {n : Arena} {h : Handle} {x : Node} (e : nodeAt? n h = some x) : h.val < n.length := by
  unfold nodeAt? at e
  exact (List.getElem?_eq_some_iff.1 e).1

theorem nodeAt_of_nodeAt? {n : Arena} {h : Handle} {x : Node} (e : nodeAt? n h = some x) : nodeAt n h = x := by
  simp [nodeAt, e]

theorem nodeAt?_append {n : Arena} (m : Arena) {h : Handle} (hh : h.val < n.length) :
    nodeAt? (n ++ m) h = nodeAt? n h := by
  simp [nodeAt?, List.getElem?_append_left hh]

/-- `NODE[h]` after `NODE[h].parent <- p`. -/
theorem nodeAt?_parentPut_self {n : Arena} {h : Handle} {x : Node} (p : Handle) (e : nodeAt? n h = some x) :
    nodeAt? (parentPut n h p) h = some { x with parent := some p } := by
  rw [parentPut, nodeAt?_nodePut_self _ (nodeAt?_isSome e), nodeAt_of_nodeAt? e]

theorem nodeAt_parentPut_self {n : Arena} {h : Handle} (p : Handle) (hh : h.val < n.length) :
    nodeAt (parentPut n h p) h = { nodeAt n h with parent := some p } :=
  nodeAt_nodePut_self _ hh

theorem nodeAt_parentPut_ne (n : Arena) {h g : Handle} (p : Handle) (hg : g ≠ h) :
    nodeAt (parentPut n h p) g = nodeAt n g :=
  nodeAt_nodePut_ne n _ hg

/-- Writing a parent field changes nothing else of any node (R70, R95). -/
theorem nodeAt_parentPut_sym (n : Arena) (h p g : Handle) : (nodeAt (parentPut n h p) g).sym = (nodeAt n g).sym := by
  by_cases hg : g = h
  · subst hg
    by_cases hh : g.val < n.length
    · rw [nodeAt_parentPut_self p hh]
    · simp [nodeAt, nodeAt?, parentPut, nodePut, hh]
  · rw [nodeAt_parentPut_ne n p hg]

theorem nodeAt_parentPut_freq (n : Arena) (h p g : Handle) :
    (nodeAt (parentPut n h p) g).freq = (nodeAt n g).freq := by
  by_cases hg : g = h
  · subst hg
    by_cases hh : g.val < n.length
    · rw [nodeAt_parentPut_self p hh]
    · simp [nodeAt, nodeAt?, parentPut, nodePut, hh]
  · rw [nodeAt_parentPut_ne n p hg]

end Sys2Proof.Machine
end

