-- ==== Sys2Proof/Laws/Streams.lean ====
section
/-! SUPPORT. What each stream primitive can do (20_memory.md R31 to R33), and how pieces of pseudocode compose. -/

namespace Sys2Proof.Machine

/-! ## Flow -/

section
variable {σ τ α β γ : Type}

@[simp] theorem Flow.bind_done (a : α) (s : σ) (f : α → σ → Flow σ β) : (Flow.done a s).bind f = f a s := rfl
@[simp] theorem Flow.bind_raise (x : Cause) (s : σ) (f : α → σ → Flow σ β) :
    (Flow.raise x s).bind f = .raise x s := rfl
@[simp] theorem Flow.bind_wait (p : Port) (s : σ) (f : α → σ → Flow σ β) : (Flow.wait p s).bind f = .wait p s := rfl
@[simp] theorem Flow.bind_broken (f : α → σ → Flow σ β) : (Flow.broken).bind f = .broken := rfl

theorem Flow.bind_assoc (m : Flow σ α) (f : α → σ → Flow σ β) (g : β → σ → Flow σ γ) :
    (m.bind f).bind g = m.bind fun a s => (f a s).bind g := by cases m <;> rfl

theorem Flow.bind_unit (m : Flow σ Unit) : (m.bind fun _ s => .done () s) = m := by cases m <;> rfl

/-- A sequence runs to its end exactly when both of its parts do. -/
theorem Flow.bind_eq_done {m : Flow σ α} {f : α → σ → Flow σ β} {b : β} {t : σ} (h : m.bind f = .done b t) :
    ∃ a s, m = .done a s ∧ f a s = .done b t := by
  cases m with
  | done a s => exact ⟨a, s, rfl, h⟩
  | raise x s => cases h
  | wait p s => cases h
  | broken => cases h

@[simp] theorem Flow.mapState_done (f : σ → τ) (a : α) (s : σ) : (Flow.done a s).mapState f = .done a (f s) := rfl
@[simp] theorem Flow.mapState_raise (f : σ → τ) (x : Cause) (s : σ) :
    (Flow.raise x s : Flow σ α).mapState f = .raise x (f s) := rfl
@[simp] theorem Flow.mapState_wait (f : σ → τ) (p : Port) (s : σ) :
    (Flow.wait p s : Flow σ α).mapState f = .wait p (f s) := rfl
@[simp] theorem Flow.mapState_broken (f : σ → τ) : (Flow.broken : Flow σ α).mapState f = .broken := rfl

end

/-! ## The sink -/

@[simp] theorem Sink.next_snk (k : Sink) : k.next.2.snk = k.snk := by
  unfold Sink.next; split <;> rfl

theorem Sink.next_with_snk (k : Sink) (l : List Bool) :
    ({ k with snk := l } : Sink).next = (k.next.1, { k.next.2 with snk := l }) := by
  unfold Sink.next; split <;> simp_all

/-- All that `SinkBit` can do (R31): accept the bit, raise IO leaving `SNK`, or wait. -/
theorem sinkBit_cases (b : Bool) (k : Sink) :
    (k.next.1 = .ready false ∧ sinkBit b k = .done () { k.next.2 with snk := k.snk ++ [b] }) ∨
    (k.next.1 = .ready true ∧ sinkBit b k = .raise .io k.next.2) ∨
    (k.next.1 = .never ∧ sinkBit b k = .wait .sink k.next.2) := by
  unfold sinkBit
  rcases h : k.next.1 with (_ | _) | _ <;> simp

@[simp] theorem sinkBits_nil (k : Sink) : sinkBits [] k = .done () k := rfl

@[simp] theorem sinkBits_cons (b : Bool) (bs : List Bool) (k : Sink) :
    sinkBits (b :: bs) k = (sinkBit b k).bind fun _ k' => sinkBits bs k' := rfl

theorem sinkBits_append (as bs : List Bool) (k : Sink) :
    sinkBits (as ++ bs) k = (sinkBits as k).bind fun _ k' => sinkBits bs k' := by
  induction as generalizing k with
  | nil => rfl
  | cons a as ih => simp [ih, Flow.bind_assoc]

theorem Sink.skip_with_snk (n : Nat) (k : Sink) (l : List Bool) :
    Sink.skip n { k with snk := l } = { k.skip n with snk := l } := by
  induction n generalizing k with
  | zero => rfl
  | succ n ih => rw [Sink.skip, Sink.next_with_snk, ih]; rfl

theorem Sink.accepts_with_snk (n : Nat) (k : Sink) (l : List Bool) :
    Sink.accepts n { k with snk := l } = Sink.accepts n k := by
  induction n generalizing k with
  | zero => rfl
  | succ n ih => rw [Sink.accepts, Sink.next_with_snk, ih]; rfl

theorem Sink.skip_snk (n : Nat) (k : Sink) : (k.skip n).snk = k.snk := by
  induction n generalizing k with
  | zero => rfl
  | succ n ih => rw [Sink.skip, ih]; simp

/-- Bits written to a sink that accepts them (R31, R40). -/
theorem sinkBits_of_accepts {bs : List Bool} {k : Sink} (h : k.accepts bs.length = true) :
    sinkBits bs k = .done () (k.written bs) := by
  induction bs generalizing k with
  | nil => simp [Sink.written, Sink.skip]
  | cons b bs ih =>
    simp only [List.length_cons, Sink.accepts, Bool.and_eq_true, decide_eq_true_eq] at h
    rw [sinkBits_cons, sinkBit, h.1]
    simp only [Flow.bind_done]
    rw [ih (by rw [Sink.accepts_with_snk]; exact h.2)]
    simp [Sink.written, Sink.skip, Sink.skip_with_snk]

theorem sinkBits_prefix {as bs : List Bool} {k : Sink} (h : k.accepts as.length = true) :
    sinkBits (as ++ bs) k = sinkBits bs (k.written as) := by
  rw [sinkBits_append, sinkBits_of_accepts h, Flow.bind_done]

theorem Sink.written_next (bs : List Bool) (k : Sink) : (k.written bs).next.1 = k.beat bs.length := by
  rw [Sink.written, Sink.next_with_snk, Sink.beat]

theorem Sink.skip_succ (n : Nat) (k : Sink) : k.skip (n + 1) = (k.skip n).next.2 := by
  induction n generalizing k with
  | zero => rfl
  | succ n ih => rw [Sink.skip, ih]; rfl

/-- A transfer that fails after some that did not (R31, R109): the earlier bits stay in `SNK`. -/
theorem sinkBits_fails {as bs : List Bool} {b : Bool} {k : Sink} (h : k.accepts as.length = true)
    (hb : k.beat as.length = .ready true) :
    sinkBits (as ++ b :: bs) k = .raise .io { k.skip (as.length + 1) with snk := k.snk ++ as } := by
  rw [sinkBits_prefix h, sinkBits_cons, sinkBit, Sink.written_next, hb]
  simp only [Flow.bind_raise, Sink.written, Sink.next_with_snk, Sink.skip_succ]

theorem Sink.written_nil (k : Sink) : k.written [] = k := by simp [Sink.written, Sink.skip]

theorem Sink.accepts_add (n m : Nat) (k : Sink) : Sink.accepts (n + m) k = (k.accepts n && (k.skip n).accepts m) := by
  induction n generalizing k with
  | zero => simp [Sink.accepts, Sink.skip]
  | succ n ih => rw [Nat.add_right_comm, Sink.accepts, ih, Sink.accepts, Sink.skip, Bool.and_assoc]

theorem Sink.skip_add (n m : Nat) (k : Sink) : k.skip (n + m) = (k.skip n).skip m := by
  induction n generalizing k with
  | zero => rw [Nat.zero_add]; rfl
  | succ n ih => rw [Nat.add_right_comm, Sink.skip, ih, Sink.skip]

theorem Sink.written_written (as bs : List Bool) (k : Sink) : (k.written as).written bs = k.written (as ++ bs) := by
  simp [Sink.written, Sink.skip_with_snk, Sink.skip_add]

/-- Bits handed to the sink and not refused were all accepted, in order (R31, R40). -/
theorem sinkBits_done {bs : List Bool} {k k' : Sink} (e : sinkBits bs k = .done () k') :
    k.accepts bs.length = true ∧ k' = k.written bs := by
  have h : k.accepts bs.length = true := by
    induction bs generalizing k with
    | nil => rfl
    | cons b bs ih =>
      obtain ⟨_, k1, e1, e2⟩ := Flow.bind_eq_done e
      rcases sinkBit_cases b k with ⟨h, e'⟩ | ⟨-, e'⟩ | ⟨-, e'⟩ <;> rw [e1] at e' <;> cases e'
      have := ih e2
      rw [Sink.accepts_with_snk] at this
      simp [Sink.accepts, h, this]
  rw [sinkBits_of_accepts h] at e
  cases e
  exact ⟨h, rfl⟩

/-- All that writing a list of bits can do (R31, R109): all of it is accepted, or a prefix is accepted and the next
transfer fails, or a prefix is accepted and the next transfer never happens. -/
theorem sinkBits_cases (bs : List Bool) (k : Sink) :
    (∃ k', sinkBits bs k = .done () k' ∧ k'.snk = k.snk ++ bs) ∨
    (∃ as k', as.length < bs.length ∧ as <+: bs ∧ sinkBits bs k = .raise .io k' ∧ k'.snk = k.snk ++ as) ∨
    (∃ as k', as.length < bs.length ∧ as <+: bs ∧ sinkBits bs k = .wait .sink k' ∧ k'.snk = k.snk ++ as) := by
  induction bs generalizing k with
  | nil => exact .inl ⟨k, rfl, by simp⟩
  | cons b bs ih =>
    rcases sinkBit_cases b k with ⟨-, h⟩ | ⟨-, h⟩ | ⟨-, h⟩
    · simp only [sinkBits_cons, h, Flow.bind_done]
      rcases ih { k.next.2 with snk := k.snk ++ [b] } with ⟨k', e, hs⟩ | ⟨as, k', hl, hp, e, hs⟩ | ⟨as, k', hl, hp, e, hs⟩
      · exact .inl ⟨k', e, by simpa using hs⟩
      · exact .inr (.inl ⟨b :: as, k', by simpa using hl, by simpa using hp, e, by simpa using hs⟩)
      · exact .inr (.inr ⟨b :: as, k', by simpa using hl, by simpa using hp, e, by simpa using hs⟩)
    · exact .inr (.inl ⟨[], k.next.2, by simp, by simp, by simp [h], by simp⟩)
    · exact .inr (.inr ⟨[], k.next.2, by simp, by simp, by simp [h], by simp⟩)

/-! ## The source -/

@[simp] theorem Source.next_taken (k : Source) : k.next.2.taken = k.taken := by
  unfold Source.next; split <;> rfl

theorem Source.next_with_taken (k : Source) (n : Nat) :
    ({ k with taken := n } : Source).next = (k.next.1, { k.next.2 with taken := n }) := by
  unfold Source.next; split <;> simp_all

/-- All that `SrcBit` can do (R32): give a bit, raise CORRUPT at the end of the stream, raise IO, or wait. -/
theorem srcBit_cases (k : Source) :
    (∃ b, k.next.1 = .valid false false b ∧ srcBit k = .done b { k.next.2 with taken := k.taken + 1 }) ∨
    (∃ b, k.next.1 = .valid false true b ∧ srcBit k = .raise .corrupt k.next.2) ∨
    (∃ e b, k.next.1 = .valid true e b ∧ srcBit k = .raise .io k.next.2) ∨
    (k.next.1 = .never ∧ srcBit k = .wait .source k.next.2) := by
  unfold srcBit
  rcases h : k.next.1 with (_ | _) | _
  · rename_i eos bit; cases eos <;> simp
  · simp
  · simp

theorem Source.skip_with_taken (n m : Nat) (k : Source) :
    Source.skip n { k with taken := m } = { k.skip n with taken := m } := by
  induction n generalizing k with
  | zero => rfl
  | succ n ih => rw [Source.skip, Source.next_with_taken, ih]; rfl

theorem Source.gives_with_taken (bs : List Bool) (k : Source) (m : Nat) :
    Source.gives bs { k with taken := m } = Source.gives bs k := by
  induction bs generalizing k with
  | nil => rfl
  | cons b bs ih => rw [Source.gives, Source.next_with_taken, ih]; rfl

theorem Source.skip_add (n m : Nat) (k : Source) : k.skip (n + m) = (k.skip n).skip m := by
  induction n generalizing k with
  | zero => simp [Source.skip]
  | succ n ih => rw [Nat.succ_add, Source.skip, ih]; rfl

theorem Source.past_zero (k : Source) : k.past 0 = k := rfl

theorem Source.past_past (n m : Nat) (k : Source) : (k.past n).past m = k.past (n + m) := by
  simp [Source.past, Source.skip_with_taken, Source.skip_add, Nat.add_assoc]

theorem Source.beat_past (n m : Nat) (k : Source) : (k.past n).beat m = k.beat (n + m) := by
  simp [Source.past, Source.beat, Source.skip_with_taken, Source.skip_add, Source.next_with_taken]

theorem Source.gives_past (as bs : List Bool) (k : Source) :
    Source.gives (as ++ bs) k = (Source.gives as k && Source.gives bs (k.past as.length)) := by
  induction as generalizing k with
  | nil => simp [Source.gives, Source.past, Source.skip]
  | cons a as ih =>
    simp only [List.cons_append, Source.gives, ih, Bool.and_assoc, List.length_cons]
    congr 2
    simp only [Source.past, Source.gives_with_taken, Source.skip]

/-- `SrcBit` on a source that gives a bit. -/
theorem srcBit_of_gives {b : Bool} {k : Source} (h : k.gives [b] = true) : srcBit k = .done b (k.past 1) := by
  simp only [Source.gives, Bool.and_true, decide_eq_true_eq] at h
  simp [srcBit, h, Source.past, Source.skip]

theorem gives_cons {b : Bool} {bs : List Bool} {k : Source} :
    k.gives (b :: bs) = true ↔ k.gives [b] = true ∧ (k.past 1).gives bs = true := by
  have := Source.gives_past [b] bs k
  simpa [Bool.and_eq_true] using congrArg (· = true) this

/-- A bit read was given, and nothing else of the source has moved (R32). -/
theorem srcBit_done {k k' : Source} {b : Bool} (e : srcBit k = .done b k') : k.gives [b] = true ∧ k' = k.past 1 := by
  rcases srcBit_cases k with ⟨c, h, e'⟩ | ⟨c, h, e'⟩ | ⟨x, c, h, e'⟩ | ⟨h, e'⟩ <;> rw [e] at e' <;> cases e'
  exact ⟨by simp [Source.gives, h], by simp [Source.past, Source.skip]⟩

/-- The eight bits of a symbol, read back most significant first, are the symbol (R33). -/
theorem symBits_shiftIn (y : Sym) : (symBits y).foldl shiftIn 0 = y := by
  apply BitVec.eq_of_getLsbD_eq
  intro i hi
  have : i = 0 ∨ i = 1 ∨ i = 2 ∨ i = 3 ∨ i = 4 ∨ i = 5 ∨ i = 6 ∨ i = 7 := by omega
  rcases this with rfl | rfl | rfl | rfl | rfl | rfl | rfl | rfl <;>
    simp [symBits, shiftIn]

theorem srcSymBits_of_gives {bs : List Bool} {v : Sym} {k : Source} (h : k.gives bs = true) :
    srcSymBits bs.length v k = .done (bs.foldl shiftIn v) (k.past bs.length) := by
  induction bs generalizing v k with
  | nil => rfl
  | cons b bs ih =>
    obtain ⟨h1, h2⟩ := gives_cons.1 h
    rw [List.length_cons, srcSymBits, srcBit_of_gives h1, Flow.bind_done, ih h2, Source.past_past,
      Nat.add_comm 1, List.foldl_cons]

/-- `SrcSym` on a source that gives a symbol's bits (R33). -/
theorem srcSym_of_gives {y : Sym} {k : Source} (h : k.gives (symBits y) = true) : srcSym k = .done y (k.past 8) := by
  have := srcSymBits_of_gives (v := 0) h
  rw [symBits_shiftIn] at this
  exact this

@[simp] theorem symBits_length (y : Sym) : (symBits y).length = 8 := rfl

end Sys2Proof.Machine
end

