-- ==== Sys2Proof/Laws/Walks.lean ====
section
/-! SUPPORT. The walks of ENC, DEC and SER in terms of the tree as a value (10_state.md R23): what SER writes is the
header of the tree (30_encoding.md R60), what DEC does is reading a path of it. -/

namespace Sys2Proof.Machine

/-- What `treeAt` says of one more level. -/
theorem treeAt_succ {n : Arena} {fuel : Nat} {h : Option Handle} {T : CodeTree} (e : treeAt n (fuel + 1) h = some T) :
    ∃ x, h.bind (nodeAt? n) = some x ∧
      ((x.isLeaf = true ∧ T = .leaf x.sym) ∨
       (x.isLeaf = false ∧ ∃ l r, treeAt n fuel x.c0 = some l ∧ treeAt n fuel x.c1 = some r ∧ T = .node l r)) := by
  rw [treeAt] at e
  split at e
  · cases e
  · next x hx =>
    refine ⟨x, hx, ?_⟩
    split at e
    · next hl => exact .inl ⟨hl, (Option.some.inj e).symm⟩
    · next hl =>
      split at e
      · next l r el er => exact .inr ⟨by simpa using hl, l, r, el, er, (Option.some.inj e).symm⟩
      · cases e

/-- SER writes the header of the tree, bit after bit (R90, R91). -/
theorem serNode_eq {n : Arena} {fuel : Nat} {h : Option Handle} {T : CodeTree} (e : treeAt n fuel h = some T) (k : Sink) :
    serNode n fuel h k = sinkBits T.header k := by
  induction fuel generalizing h T k with
  | zero => cases e
  | succ fuel ih =>
    obtain ⟨x, hx, ⟨hl, rfl⟩ | ⟨hl, l, r, el, er, rfl⟩⟩ := treeAt_succ e
    · simp [serNode, hx, hl, CodeTree.header, sinkSym]
    · simp [serNode, hx, hl, CodeTree.header, sinkBits_append, ih el, ih er]

/-- A SER walk that comes to its end, in any arena, has had every bit it handed over accepted (R90, R31). -/
theorem serNode_done {n : Arena} {fuel : Nat} {h : Option Handle} {k k' : Sink} (e : serNode n fuel h k = .done () k') :
    ∃ out : List Bool, k.accepts out.length = true ∧ k' = k.written out := by
  have all : ∃ out, sinkBits out k = .done () k' := by
    induction fuel generalizing h k k' with
    | zero => cases e
    | succ fuel ih =>
      rw [serNode] at e
      split at e
      · cases e
      · split at e
        · next x _ _ => exact ⟨true :: symBits x.sym, e⟩
        · obtain ⟨_, k1, e1, e2⟩ := Flow.bind_eq_done e
          obtain ⟨_, k2, e3, e4⟩ := Flow.bind_eq_done e2
          obtain ⟨l, el⟩ := ih e3
          obtain ⟨r, er⟩ := ih e4
          exact ⟨false :: (l ++ r), by rw [sinkBits_cons, e1, Flow.bind_done, sinkBits_append, el, Flow.bind_done, er]⟩
  obtain ⟨out, eo⟩ := all
  exact ⟨out, sinkBits_done eo⟩

/-- A DEC walk that comes to its end, in any arena, was given every bit it took (R85, R32). -/
theorem descend_done {n : Arena} {fuel : Nat} {x : Node} {y : Sym} {k k' : Source}
    (e : descend n fuel x k = .done y k') : ∃ inp : List Bool, k.gives inp = true ∧ k' = k.past inp.length := by
  induction fuel generalizing x k with
  | zero => cases e
  | succ fuel ih =>
    obtain ⟨b, k1, e1, e2⟩ := Flow.bind_eq_done e
    obtain ⟨hb, rfl⟩ := srcBit_done e1
    split at e2
    · cases e2
    · split at e2
      · cases e2; exact ⟨[b], hb, rfl⟩
      · obtain ⟨inp, hg, hp⟩ := ih e2
        exact ⟨b :: inp, gives_cons.2 ⟨hb, hg⟩, by rw [hp, Source.past_past, Nat.add_comm]; rfl⟩

/-- Reading one symbol of a tree: a bit for each internal node on the way (R86). -/
def CodeTree.read : CodeTree → Source → Flow Source Sym
  | .leaf y, k => .done y k
  | .node l r, k => (srcBit k).bind fun b k' => if b then r.read k' else l.read k'

/-- DEC reads a path of the tree (R85, R86). -/
theorem descend_eq {n : Arena} {fuel : Nat} {h : Option Handle} {T : CodeTree} {x : Node}
    (e : treeAt n fuel h = some T) (hx : h.bind (nodeAt? n) = some x) (hi : T.isInner = true) (k : Source) :
    descend n fuel x k = T.read k := by
  induction fuel generalizing h T x k with
  | zero => cases e
  | succ fuel ih =>
    obtain ⟨x', hx', ⟨-, rfl⟩ | ⟨-, l, r, el, er, rfl⟩⟩ := treeAt_succ e
    · cases hi
    · obtain rfl : x = x' := Option.some.inj (hx.symm.trans hx')
      have child : ∀ (c : Option Handle) (t : CodeTree), treeAt n fuel c = some t →
          ∃ y, c.bind (nodeAt? n) = some y ∧ ((y.isLeaf = true ∧ t = .leaf y.sym) ∨
            (y.isLeaf = false ∧ ∀ k', descend n fuel y k' = t.read k')) := by
        intro c t ec
        cases fuel with
        | zero => cases ec
        | succ fuel =>
          obtain ⟨y, hy, h | ⟨hl, l', r', -, -, rfl⟩⟩ := treeAt_succ ec
          · exact ⟨y, hy, .inl h⟩
          · exact ⟨y, hy, .inr ⟨hl, ih ec hy rfl⟩⟩
      rw [descend, CodeTree.read]
      congr 1
      funext b k'
      obtain ⟨y, hy, hc⟩ := child (x.child b) (if b then r else l) (by cases b <;> simpa [Node.child])
      rw [hy]
      rcases hc with ⟨hl, ht⟩ | ⟨hl, ht⟩
      · cases b <;> simp_all [CodeTree.read]
      · cases b <;> simp_all

/-- Reading on a source that gives a path to a leaf (R86). -/
theorem CodeTree.read_of_gives {T : CodeTree} {bs : List Bool} {y : Sym} {k : Source}
    (hp : T.follow bs = some (.leaf y)) (hk : k.gives bs = true) : T.read k = .done y (k.past bs.length) := by
  induction T generalizing bs k with
  | leaf z =>
    cases bs with
    | nil => simp only [CodeTree.follow, Option.some.injEq, CodeTree.leaf.injEq] at hp; subst hp; rfl
    | cons b bs => simp [CodeTree.follow] at hp
  | node l r ihl ihr =>
    cases bs with
    | nil => simp [CodeTree.follow] at hp
    | cons b bs =>
      obtain ⟨h1, h2⟩ := gives_cons.1 hk
      rw [CodeTree.read, srcBit_of_gives h1, Flow.bind_done]
      rw [CodeTree.follow] at hp
      cases b
      · simpa [Source.past_past, Nat.add_comm 1] using ihl hp h2
      · simpa [Source.past_past, Nat.add_comm 1] using ihr hp h2

/-- Reading along a path that ends inside the tree comes to the subtree there (R86). -/
theorem CodeTree.read_partway {T U : CodeTree} {bs : List Bool} {k : Source} (hp : T.follow bs = some U)
    (hk : k.gives bs = true) : T.read k = U.read (k.past bs.length) := by
  induction T generalizing bs k with
  | leaf z =>
    cases bs with
    | nil => simp only [CodeTree.follow, Option.some.injEq] at hp; subst hp; rfl
    | cons b bs => simp [CodeTree.follow] at hp
  | node l r ihl ihr =>
    cases bs with
    | nil => simp only [CodeTree.follow, Option.some.injEq] at hp; subst hp; rfl
    | cons b bs =>
      obtain ⟨h1, h2⟩ := gives_cons.1 hk
      rw [CodeTree.read, srcBit_of_gives h1, Flow.bind_done]
      rw [CodeTree.follow] at hp
      cases b
      · simpa [Source.past_past, Nat.add_comm 1] using ihl hp h2
      · simpa [Source.past_past, Nat.add_comm 1] using ihr hp h2

/-- Reading a tree never meets a broken arena, and raises only CORRUPT or IO (R85). -/
theorem CodeTree.read_cases (T : CodeTree) (k : Source) :
    (∃ y k', T.read k = .done y k') ∨ (∃ k', T.read k = .raise .corrupt k') ∨ (∃ k', T.read k = .raise .io k') ∨
    (∃ k', T.read k = .wait .source k') := by
  induction T generalizing k with
  | leaf y => exact .inl ⟨y, k, rfl⟩
  | node l r ihl ihr =>
    rw [CodeTree.read]
    rcases srcBit_cases k with ⟨b, -, h⟩ | ⟨b, -, h⟩ | ⟨e, b, -, h⟩ | ⟨-, h⟩ <;> rw [h]
    · cases b
      · exact ihl _
      · exact ihr _
    · exact .inr (.inl ⟨_, rfl⟩)
    · exact .inr (.inr (.inl ⟨_, rfl⟩))
    · exact .inr (.inr (.inr ⟨_, rfl⟩))

/-! ## Headers (R60, R61) -/

/-- A full binary tree with `L` leaves has `2L - 1` nodes (R61). -/
theorem CodeTree.size_leaves (T : CodeTree) : T.size + 1 = 2 * T.leaves := by
  induction T with
  | leaf => rfl
  | node l r ihl ihr => simp only [size, leaves]; omega

theorem CodeTree.size_pos (T : CodeTree) : 0 < T.size := by cases T <;> simp only [size] <;> omega

theorem CodeTree.leaves_pos (T : CodeTree) : 0 < T.leaves := by have := T.size_leaves; omega

/-- No header is a proper prefix of another (R60: "its end is where the grammar's one `node` is complete"). -/
theorem CodeTree.header_unique {T U : CodeTree} {as bs : List Bool} (h : T.header ++ as = U.header ++ bs) :
    T = U ∧ as = bs := by
  induction T generalizing U as bs with
  | leaf y =>
    cases U with
    | node l r => simp [header] at h
    | leaf z =>
      simp only [header, List.cons_append, List.cons.injEq, true_and] at h
      obtain ⟨h1, h2⟩ := List.append_inj h (by simp)
      refine ⟨?_, h2⟩
      rw [← symBits_shiftIn y, ← symBits_shiftIn z, h1]
  | node l r ihl ihr =>
    cases U with
    | leaf z => simp [header] at h
    | node l' r' =>
      simp only [header, List.cons_append, List.append_assoc, List.cons.injEq, true_and] at h
      obtain ⟨hl, hrest⟩ := ihl h
      obtain ⟨hr, htail⟩ := ihr hrest
      exact ⟨by rw [hl, hr], htail⟩

end Sys2Proof.Machine
end

