-- ==== Sys2Proof/Laws/Slots.lean ====
section
/-! SUPPORT. Trees held in arena slots: what a change of other slots leaves, the tree as a value, and the walk of ENC
from a leaf up to the root (42_encoder.md R81). -/

namespace Sys2Proof.Machine

/-- The number of levels. -/
def SlotTree.height : SlotTree → Nat
  | .leaf _ => 1
  | .node _ l r => 1 + max l.height r.height

/-- Where branch bits lead, as in `CodeTree.follow`. -/
def SlotTree.follow : SlotTree → List Bool → Option SlotTree
  | a, [] => some a
  | .leaf _, _ :: _ => none
  | .node _ l r, b :: bs => (if b then r else l).follow bs

@[simp] theorem SlotTree.top_leaf (h : Handle) : (SlotTree.leaf h).top = h := rfl
@[simp] theorem SlotTree.top_node (h : Handle) (l r : SlotTree) : (SlotTree.node h l r).top = h := rfl

theorem SlotTree.top_mem_slots (a : SlotTree) : a.top ∈ a.slots := by cases a <;> simp [slots]

theorem SlotTree.height_le_slots (a : SlotTree) : a.height ≤ a.slots.length := by
  induction a with
  | leaf h => simp [height, slots]
  | node h l r ihl ihr => simp only [height, slots, List.length_cons, List.length_append]; omega

theorem SlotTree.leafSlots_sub (a : SlotTree) : ∀ h ∈ a.leafSlots, h ∈ a.slots := by
  induction a with
  | leaf h => simp [leafSlots, slots]
  | node h l r ihl ihr =>
    simp only [leafSlots, slots, List.mem_append, List.mem_cons]
    rintro g (hg | hg)
    · exact .inr (.inl (ihl g hg))
    · exact .inr (.inr (ihr g hg))

/-- The value of a tree depends on its own slots' symbols only. -/
theorem SlotTree.value_congr {n m : Arena} (a : SlotTree)
    (e : ∀ g ∈ a.slots, (nodeAt m g).sym = (nodeAt n g).sym) : a.value m = a.value n := by
  induction a with
  | leaf h => simp [value, e h (by simp [slots])]
  | node h l r ihl ihr =>
    simp only [value]
    rw [ihl fun g hg => e g (by simp [slots, hg]), ihr fun g hg => e g (by simp [slots, hg])]

theorem SlotTree.lastLeaf_congr {n m : Arena} (a : SlotTree) (y : Sym)
    (e : ∀ g ∈ a.slots, (nodeAt m g).sym = (nodeAt n g).sym) : a.lastLeaf m y = a.lastLeaf n y := by
  induction a with
  | leaf h => simp [lastLeaf, e h (by simp [slots])]
  | node h l r ihl ihr =>
    simp only [lastLeaf]
    rw [ihl fun g hg => e g (by simp [slots, hg]), ihr fun g hg => e g (by simp [slots, hg])]

/-- A tree is still held after a change of slots that are not its own. -/
theorem SlotTree.heldBy_congr {n m : Arena} (a : SlotTree) (p : Option Handle)
    (e : ∀ g ∈ a.slots, nodeAt? m g = nodeAt? n g) (h : a.heldBy n p) : a.heldBy m p := by
  induction a generalizing p with
  | leaf s => simpa [heldBy, e s (by simp [slots])] using h
  | node s l r ihl ihr =>
    obtain ⟨⟨x, hx, h0, h1, hp, hs⟩, hl, hr⟩ := h
    refine ⟨⟨x, by rw [e s (by simp [slots])]; exact hx, h0, h1, hp, ?_⟩,
      ihl _ (fun g hg => e g (by simp [slots, hg])) hl, ihr _ (fun g hg => e g (by simp [slots, hg])) hr⟩
    simpa [nodeAt, e l.top (by simp [slots, top_mem_slots]), e r.top (by simp [slots, top_mem_slots])] using hs

theorem SlotTree.heldBy_lt {n : Arena} {a : SlotTree} {p : Option Handle} (h : a.heldBy n p) :
    ∀ g ∈ a.slots, g.val < n.length := by
  induction a generalizing p with
  | leaf s =>
    obtain ⟨x, hx, -⟩ := h
    simpa [slots] using nodeAt?_isSome hx
  | node s l r ihl ihr =>
    obtain ⟨⟨x, hx, -⟩, hl, hr⟩ := h
    simp only [slots, List.mem_cons, List.mem_append]
    rintro g (rfl | hg | hg)
    · exact nodeAt?_isSome hx
    · exact ihl hl g hg
    · exact ihr hr g hg

/-- Setting the root's parent field makes it the child of `q` (R70, R95). -/
theorem SlotTree.heldBy_parentPut {n : Arena} {a : SlotTree} {p : Option Handle} (q : Handle) (h : a.heldBy n p)
    (hd : a.slots.Nodup) : a.heldBy (parentPut n a.top q) (some q) := by
  cases a with
  | leaf s =>
    obtain ⟨x, hx, h0, h1, -⟩ := h
    exact ⟨{ x with parent := some q }, nodeAt?_parentPut_self q hx, h0, h1, rfl⟩
  | node s l r =>
    obtain ⟨⟨x, hx, h0, h1, -, hs⟩, hl, hr⟩ := h
    simp only [slots, List.nodup_cons, List.mem_append, not_or] at hd
    have hne : ∀ g, g ∈ l.slots ∨ g ∈ r.slots → g ≠ s := by
      rintro g (hg | hg) rfl
      · exact hd.1.1 hg
      · exact hd.1.2 hg
    have keep : ∀ g, g ∈ l.slots ∨ g ∈ r.slots → nodeAt? (parentPut n s q) g = nodeAt? n g :=
      fun g hg => nodeAt?_nodePut_ne _ _ (hne g hg)
    refine ⟨⟨{ x with parent := some q }, nodeAt?_parentPut_self q hx, h0, h1, rfl, ?_⟩,
      heldBy_congr l _ (fun g hg => keep g (.inl hg)) hl, heldBy_congr r _ (fun g hg => keep g (.inr hg)) hr⟩
    simpa [nodeAt_parentPut_sym] using hs

/-- A held tree, read off the arena, is its value. -/
theorem SlotTree.treeAt_of_heldBy {n : Arena} {a : SlotTree} {p : Option Handle} (h : a.heldBy n p) {fuel : Nat}
    (hf : a.height ≤ fuel) : treeAt n fuel (some a.top) = some (a.value n) := by
  induction a generalizing p fuel with
  | leaf s =>
    obtain ⟨x, hx, h0, -, -⟩ := h
    cases fuel with
    | zero => simp [height] at hf
    | succ fuel => simp [treeAt, hx, Node.isLeaf, h0, value, nodeAt_of_nodeAt? hx]
  | node s l r ihl ihr =>
    obtain ⟨⟨x, hx, h0, h1, -, -⟩, hl, hr⟩ := h
    cases fuel with
    | zero => simp [height] at hf
    | succ fuel =>
      simp only [height] at hf
      simp [treeAt, hx, Node.isLeaf, h0, h1, value, ihl hl (fuel := fuel) (by omega),
        ihr hr (fuel := fuel) (by omega)]

/-- The tree registers that hold a tree hold its value. -/
theorem Tree.code_of_holds {t : Tree} {a : SlotTree} (h : t.holds a) : t.code = some (a.value t.node) := by
  obtain ⟨hb, -, hl, hc, hr, -⟩ := h
  rw [Tree.code, hr]
  exact SlotTree.treeAt_of_heldBy hb (le_trans a.height_le_slots (by omega))

theorem SlotTree.value_isInner (n : Arena) (a : SlotTree) : (a.value n).isInner = a.isInner := by cases a <;> rfl

/-- The last leaf of a symbol stands at the end of the last path to it (R99, R62). -/
theorem SlotTree.lastPath_value {n : Arena} {a : SlotTree} {y : Sym} :
    (a.lastLeaf n y = none → (a.value n).lastPath y = none) ∧
    (∀ h, a.lastLeaf n y = some h → ∃ bs, (a.value n).lastPath y = some bs ∧ a.follow bs = some (.leaf h)) := by
  induction a with
  | leaf s =>
    by_cases e : (nodeAt n s).sym = y <;> simp [lastLeaf, value, CodeTree.lastPath, follow, e]
  | node s l r ihl ihr =>
    simp only [lastLeaf, value, CodeTree.lastPath]
    cases er : r.lastLeaf n y with
    | none =>
      rw [ihr.1 er]
      refine ⟨fun h => by simp [ihl.1 (by simpa using h)], fun h hh => ?_⟩
      obtain ⟨bs, e1, e2⟩ := ihl.2 h (by simpa using hh)
      exact ⟨false :: bs, by simp [e1], by simpa [follow] using e2⟩
    | some g =>
      obtain ⟨bs, e1, e2⟩ := ihr.2 g er
      refine ⟨fun h => by simp at h, fun h hh => ?_⟩
      obtain rfl : g = h := by simpa using hh
      exact ⟨true :: bs, by simp [e1], by simpa [follow] using e2⟩

theorem SlotTree.follow_length {a b : SlotTree} {bs : List Bool} (h : a.follow bs = some b) : bs.length < a.height := by
  induction a generalizing bs with
  | leaf s => cases bs <;> simp_all [follow, height]
  | node s l r ihl ihr =>
    cases bs with
    | nil => simp [height]
    | cons c bs =>
      rw [follow] at h
      cases c
      · have := ihl (by simpa using h); simp only [height, List.length_cons]; omega
      · have := ihr (by simpa using h); simp only [height, List.length_cons]; omega

/-- The walk from a leaf up to the top of a held tree pushes the path down to it, root first (R81). -/
theorem SlotTree.climb_to_top {n : Arena} {a : SlotTree} {p : Option Handle} (h : a.heldBy n p) (hd : a.slots.Nodup)
    {bs : List Bool} {s : Handle} (hp : a.follow bs = some (.leaf s)) (fuel : Nat) (pushed : List Bool) :
    climb n (fuel + bs.length) s (nodeAt n s) pushed = climb n fuel a.top (nodeAt n a.top) (bs ++ pushed) := by
  induction a generalizing p bs fuel with
  | leaf g =>
    cases bs with
    | nil => simp only [follow, Option.some.injEq, leaf.injEq] at hp; subst hp; rfl
    | cons b bs => simp [follow] at hp
  | node g l r ihl ihr =>
    cases bs with
    | nil => simp [follow] at hp
    | cons b bs =>
      obtain ⟨⟨x, hx, h0, h1, -, -⟩, hl, hr⟩ := h
      simp only [slots, List.nodup_cons, List.nodup_append] at hd
      have hlr : l.top ≠ r.top := hd.2.2.2 _ l.top_mem_slots _ r.top_mem_slots
      have step : ∀ c : SlotTree, c.heldBy n (some g) → ∀ f, 
          climb n (f + 1) c.top (nodeAt n c.top) (bs ++ pushed) =
            climb n f g (nodeAt n g) (branchBit x c.top :: (bs ++ pushed)) := by
        intro c hc f
        have : (nodeAt n c.top).parent = some g := by
          cases c with
          | leaf s => obtain ⟨z, hz, -, -, hzp⟩ := hc; rw [top, nodeAt_of_nodeAt? hz]; exact hzp
          | node s l r => obtain ⟨⟨z, hz, -, -, hzp, -⟩, -⟩ := hc; rw [top, nodeAt_of_nodeAt? hz]; exact hzp
        rw [climb, this]
        simp [hx, nodeAt_of_nodeAt? hx]
      rw [follow] at hp
      have len : fuel + (b :: bs).length = (fuel + 1) + bs.length := by simp; omega
      cases b
      · rw [len, ihl hl hd.2.1 (by simpa using hp) (fuel + 1), step l hl]
        simp [branchBit, h0]
      · rw [len, ihr hr hd.2.2.1 (by simpa using hp) (fuel + 1), step r hr]
        simp [branchBit, h0, hlr]

/-- The code of a leaf of the block's tree is the path to it, root first (R62, R81). -/
theorem Tree.codeOf_holds {t : Tree} {a : SlotTree} (h : t.holds a) {bs : List Bool} {s : Handle}
    (hp : a.follow bs = some (.leaf s)) : codeOf t.node s = some bs := by
  obtain ⟨hb, hd, hl, hc, -, -⟩ := h
  have hlen := SlotTree.follow_length hp
  have hht := a.height_le_slots
  have hs : s.val < t.node.length := by
    refine SlotTree.heldBy_lt hb s ?_
    clear hlen hht hb hd hl hc
    induction a generalizing bs with
    | leaf g => cases bs <;> simp_all [SlotTree.follow, SlotTree.slots]
    | node g l r ihl ihr =>
      cases bs with
      | nil => simp [SlotTree.follow] at hp
      | cons b bs =>
        rw [SlotTree.follow] at hp
        cases b
        · simp [SlotTree.slots, ihl (by simpa using hp)]
        · simp [SlotTree.slots, ihr (by simpa using hp)]
  have top_parent : (nodeAt t.node a.top).parent = none := by
    cases a with
    | leaf g => obtain ⟨z, hz, -, -, hzp⟩ := hb; rw [SlotTree.top, nodeAt_of_nodeAt? hz]; exact hzp
    | node g l r => obtain ⟨⟨z, hz, -, -, hzp, -⟩, -⟩ := hb; rw [SlotTree.top, nodeAt_of_nodeAt? hz]; exact hzp
  obtain ⟨f, hf⟩ : ∃ f, nodeCap = (f + 1) + bs.length := ⟨nodeCap - 1 - bs.length, by omega⟩
  rw [codeOf, nodeAt?_of_lt hs]
  simp only
  rw [hf, SlotTree.climb_to_top hb hd hp, climb, top_parent]
  simp

end Sys2Proof.Machine
end

