-- ==== Sys2Proof/Laws/Des.lean ====
section
/-! SUPPORT. What `Des()` can do (45_tree_deserializer.md R95 to R104): when it is done it has read one header, and the
tree it made is that header's tree, held in the slots from `NCOUNT` on, in header order. -/

namespace Sys2Proof.Machine

/-- Slots that are numbered in a row are all different. -/
theorem slots_nodup {hs : List Handle} {s n : Nat} (e : hs.map Fin.val = List.range' s n) : hs.Nodup := by
  have : (hs.map Fin.val).Nodup := by rw [e]; exact List.nodup_range'
  exact List.Nodup.of_map _ this

theorem slots_mem {hs : List Handle} {s n : Nat} (e : hs.map Fin.val = List.range' s n) {g : Handle} :
    g ∈ hs ↔ s ≤ g.val ∧ g.val < s + n := by
  have h1 : g ∈ hs ↔ g.val ∈ hs.map Fin.val := by
    simp only [List.mem_map]
    exact ⟨fun h => ⟨g, h, rfl⟩, fun ⟨x, hx, hv⟩ => Fin.ext hv ▸ hx⟩
  rw [h1, e, List.mem_range'_1]

/-- Three writes that finish an internal node (R95): the node itself, then its children's parent fields. -/
theorem joined_heldBy {n : Arena} {h : Handle} {l r : SlotTree} {x : Node} (hl : l.heldBy n none)
    (hr : r.heldBy n none) (hd : (h :: (l.slots ++ r.slots)).Nodup) (hh : h.val < n.length) (h0 : x.c0 = some l.top)
    (h1 : x.c1 = some r.top) (hp : x.parent = none)
    (hs : x.sym = (nodeAt n l.top).sym ∨ x.sym = (nodeAt n r.top).sym) :
    (SlotTree.node h l r).heldBy (parentPut (parentPut (nodePut n h x) l.top h) r.top h) none := by
  simp only [List.nodup_cons, List.mem_append, not_or, List.nodup_append] at hd
  obtain ⟨⟨hhl, hhr⟩, hdl, hdr, hlr⟩ := hd
  have hl1 : l.heldBy (nodePut n h x) none :=
    SlotTree.heldBy_congr l _ (fun g hg => nodeAt?_nodePut_ne _ _ (fun e => hhl (e ▸ hg))) hl
  have hr1 : r.heldBy (nodePut n h x) none :=
    SlotTree.heldBy_congr r _ (fun g hg => nodeAt?_nodePut_ne _ _ (fun e => hhr (e ▸ hg))) hr
  have hl2 := SlotTree.heldBy_parentPut h hl1 hdl
  have hr2 : r.heldBy (parentPut (nodePut n h x) l.top h) none :=
    SlotTree.heldBy_congr r _
      (fun g hg => nodeAt?_nodePut_ne _ _ (fun e => hlr _ l.top_mem_slots g hg e.symm)) hr1
  have hr3 := SlotTree.heldBy_parentPut h hr2 hdr
  have hl3 : l.heldBy (parentPut (parentPut (nodePut n h x) l.top h) r.top h) (some h) :=
    SlotTree.heldBy_congr l _
      (fun g hg => nodeAt?_nodePut_ne _ _ (fun e => hlr g hg _ r.top_mem_slots e)) hl2
  have ne_l : h ≠ l.top := fun e => hhl (e ▸ l.top_mem_slots)
  have ne_r : h ≠ r.top := fun e => hhr (e ▸ r.top_mem_slots)
  refine ⟨⟨x, ?_, h0, h1, hp, ?_⟩, hl3, hr3⟩
  · unfold parentPut
    rw [nodeAt?_nodePut_ne _ _ ne_r, nodeAt?_nodePut_ne _ _ ne_l, nodeAt?_nodePut_self _ hh]
  · simp only [nodeAt_parentPut_sym]
    rwa [nodeAt_nodePut_ne _ _ ne_l.symm, nodeAt_nodePut_ne _ _ ne_r.symm]

theorem foldl_leafPut_congr {n m : Arena} (hs : List Handle) (l : LeafTable)
    (e : ∀ g ∈ hs, (nodeAt m g).sym = (nodeAt n g).sym) :
    hs.foldl (fun l g => leafPut l (nodeAt m g).sym g) l = hs.foldl (fun l g => leafPut l (nodeAt n g).sym g) l := by
  induction hs generalizing l with
  | nil => rfl
  | cons h hs ih =>
    simp only [List.foldl_cons, e h (by simp)]
    exact ih _ fun g hg => e g (by simp [hg])

/-- The registration of leaves in header order leaves each symbol at its last leaf (R99). -/
theorem leafAt_registered (n : Arena) (a : SlotTree) (l : LeafTable) (y : Sym) :
    leafAt (a.leafSlots.foldl (fun l g => leafPut l (nodeAt n g).sym g) l) y = (a.lastLeaf n y).or (leafAt l y) := by
  induction a generalizing l with
  | leaf h =>
    simp only [SlotTree.leafSlots, List.foldl_cons, List.foldl_nil, SlotTree.lastLeaf]
    by_cases e : (nodeAt n h).sym = y
    · subst e; simp
    · rw [leafAt_leafPut_ne _ _ (Ne.symm e)]; simp [e]
  | node h a b iha ihb =>
    rw [SlotTree.leafSlots, List.foldl_append, ihb, iha, SlotTree.lastLeaf, Option.or_assoc]

theorem cellsSorted_registered (n : Arena) (hs : List Handle) {l : LeafTable} (h : cellsSorted l = true) :
    cellsSorted (hs.foldl (fun l g => leafPut l (nodeAt n g).sym g) l) = true := by
  induction hs generalizing l with
  | nil => exact h
  | cons g hs ih => exact ih (cellsSorted_leafPut _ _ h)

/-- What a call of `Des()` that is done has done: `T` is the tree of the header it read, `a` the slots it stands in. -/
structure DesMade (t : Tree) (k : Source) (h : Handle) (t' : Tree) (k' : Source) (T : CodeTree) (a : SlotTree) :
    Prop where
  gives : k.gives T.header = true
  past : k' = k.past T.header.length
  top : a.top = h
  slots : a.slots.map Fin.val = List.range' t.node.length T.size
  length : t'.node.length = t.node.length + T.size
  cap : t'.node.length ≤ nodeCap
  kept : ∀ g : Handle, g.val < t.node.length → nodeAt? t'.node g = nodeAt? t.node g
  held : a.heldBy t'.node none
  value : a.value t'.node = T
  freq : ∀ g ∈ a.slots, (nodeAt t'.node g).freq = 0
  leaf : t'.leaf = a.leafSlots.foldl (fun l g => leafPut l (nodeAt t'.node g).sym g) t.leaf
  kind : t'.kind = t.kind
  root : t'.root = t.root

/-- The leaf made on a flag of 1 (R95, R98, R99). -/
theorem DesMade.ofLeaf {t t1 : Tree} {k : Source} {h : Handle} {y : Sym} (ha : t.alloc = some (h, t1))
    (hk : k.gives (true :: symBits y) = true) :
    DesMade t k h ((t1.putNode h (readLeafNode y)).putLeaf y h) (k.past 9) (.leaf y) (.leaf h) := by
  obtain ⟨hv, rfl⟩ := Tree.alloc_some ha
  have hcap := h.isLt
  have hh : h.val < (t.node ++ [Node.blank]).length := by simp [hv]
  have self := nodeAt?_nodePut_self (readLeafNode y) hh
  have hsym : (nodeAt (nodePut (t.node ++ [Node.blank]) h (readLeafNode y)) h).sym = y := by
    rw [nodeAt_of_nodeAt? self]; rfl
  have hfreq : (nodeAt (nodePut (t.node ++ [Node.blank]) h (readLeafNode y)) h).freq = 0 := by
    rw [nodeAt_of_nodeAt? self]; rfl
  refine ⟨hk, rfl, rfl, by simp [SlotTree.slots, CodeTree.size, hv], by simp [CodeTree.size],
    by simp; omega, ?_, ⟨_, self, rfl, rfl, rfl⟩, by simp [SlotTree.value, hsym],
    by simp [SlotTree.slots, hfreq], by simp [SlotTree.leafSlots, hsym], rfl, rfl⟩
  intro g hg
  have hne : g ≠ h := fun e => by subst e; omega
  simp only [Tree.putLeaf_node, Tree.putNode_node]
  rw [nodeAt?_nodePut_ne _ _ hne, nodeAt?_append _ hg]

/-- The internal node made on a flag of 0 (R95, R98, R104). -/
theorem DesMade.ofNode {t t1 ta tb : Tree} {k ka kb : Source} {h x y : Handle} {T U : CodeTree} {a b : SlotTree}
    (ha : t.alloc = some (h, t1)) (hk : k.gives [false] = true) (A : DesMade t1 (k.past 1) x ta ka T a)
    (B : DesMade ta ka y tb kb U b) :
    DesMade t k h (((tb.putNode h (readInnerNode tb.node x y)).putParent x h).putParent y h) kb (.node T U)
      (.node h a b) := by
  obtain ⟨hv, rfl⟩ := Tree.alloc_some ha
  have l1 := A.length
  have l2 := B.length
  simp only [List.length_append, List.length_singleton] at l1
  have sa := A.slots
  simp only [List.length_append, List.length_singleton] at sa
  have sb := B.slots
  rw [l1] at sb
  have hslots : (h :: (a.slots ++ b.slots)).map Fin.val = List.range' t.node.length (CodeTree.node T U).size := by
    simp only [List.map_cons, List.map_append, sa, sb, hv, CodeTree.size]
    rw [show 1 + T.size + U.size = (T.size + U.size) + 1 by omega, List.range'_succ, ← List.range'_append_1]
  have hd := slots_nodup hslots
  have hh : h.val < tb.node.length := by omega
  have heldA : a.heldBy tb.node none := SlotTree.heldBy_congr a _
    (fun g hg => B.kept g (by have := (slots_mem sa).1 hg; omega)) A.held
  have joined := joined_heldBy (x := readInnerNode tb.node x y) heldA B.held hd hh
    (by simp [readInnerNode, A.top]) (by simp [readInnerNode, B.top]) rfl (.inl (by simp [readInnerNode, A.top]))
  rw [A.top, B.top] at joined
  have ne : ∀ g : Handle, g.val ≠ t.node.length → g ≠ h := fun g hg e => hg (e ▸ hv)
  have symEq : ∀ g : Handle, g ≠ h →
      (nodeAt (parentPut (parentPut (nodePut tb.node h (readInnerNode tb.node x y)) x h) y h) g).sym =
        (nodeAt tb.node g).sym := by
    intro g hg
    rw [nodeAt_parentPut_sym, nodeAt_parentPut_sym, nodeAt_nodePut_ne _ _ hg]
  have inA : ∀ g ∈ a.slots, g ≠ h ∧ nodeAt tb.node g = nodeAt ta.node g := fun g hg => by
    have hm := (slots_mem sa).1 hg
    exact ⟨ne g (by omega), by simp only [nodeAt]; rw [B.kept g (by omega)]⟩
  have inB : ∀ g ∈ b.slots, g ≠ h := fun g hg => ne g (by have := (slots_mem sb).1 hg; omega)
  refine ⟨?_, ?_, rfl, hslots, ?_, ?_, ?_, joined, ?_, ?_, ?_, ?_, ?_⟩
  · refine gives_cons.2 ⟨hk, ?_⟩
    rw [Source.gives_past, A.gives, ← A.past, B.gives]; rfl
  · rw [B.past, A.past]
    simp only [Source.past_past, CodeTree.header, List.length_cons, List.length_append]
    congr 1; omega
  · simp only [Tree.putParent_node, Tree.putNode_node, parentPut_length, nodePut_length, CodeTree.size]; omega
  · simpa using B.cap
  · intro g hg
    have hx : x.val ≠ g.val := by
      have := (slots_mem sa).1 (A.top ▸ a.top_mem_slots); omega
    have hy : y.val ≠ g.val := by
      have := (slots_mem sb).1 (B.top ▸ b.top_mem_slots); omega
    simp only [Tree.putParent_node, Tree.putNode_node, parentPut]
    rw [nodeAt?_nodePut_ne _ _ (fun e => hy (by rw [e])), nodeAt?_nodePut_ne _ _ (fun e => hx (by rw [e])),
      nodeAt?_nodePut_ne _ _ (ne g (by omega)), B.kept g (by omega), A.kept g (by simp; omega),
      nodeAt?_append _ hg]
  · simp only [SlotTree.value, Tree.putParent_node, Tree.putNode_node]
    rw [SlotTree.value_congr a (n := ta.node) fun g hg => by rw [symEq g (inA g hg).1, (inA g hg).2],
      SlotTree.value_congr b (n := tb.node) fun g hg => symEq g (inB g hg), A.value, B.value]
  · intro g hg
    simp only [Tree.putParent_node, Tree.putNode_node, nodeAt_parentPut_freq]
    simp only [SlotTree.slots, List.mem_cons, List.mem_append] at hg
    rcases hg with rfl | hg | hg
    · rw [nodeAt_nodePut_self _ hh]; rfl
    · rw [nodeAt_nodePut_ne _ _ (inA g hg).1, (inA g hg).2, A.freq g hg]
    · rw [nodeAt_nodePut_ne _ _ (inB g hg), B.freq g hg]
  · simp only [Tree.putParent_leaf, Tree.putNode_leaf, Tree.putParent_node, Tree.putNode_node, SlotTree.leafSlots,
      List.foldl_append]
    rw [B.leaf, A.leaf]
    rw [foldl_leafPut_congr a.leafSlots (n := ta.node) (m := parentPut _ _ _) _ fun g hg => by
        have hg := a.leafSlots_sub g hg
        rw [symEq g (inA g hg).1, (inA g hg).2],
      foldl_leafPut_congr b.leafSlots (n := tb.node) (m := parentPut _ _ _) _ fun g hg =>
        symEq g (inB g (b.leafSlots_sub g hg))]
  · exact B.kind.trans A.kind
  · exact B.root.trans A.root

/-- A transfer that is done gave a bit. -/
theorem srcSymBits_done {n : Nat} {v y : Sym} {k k' : Source} (e : srcSymBits n v k = .done y k') :
    ∃ bs, bs.length = n ∧ k.gives bs = true ∧ y = bs.foldl shiftIn v ∧ k' = k.past n := by
  induction n generalizing v k with
  | zero => cases e; exact ⟨[], rfl, rfl, rfl, rfl⟩
  | succ n ih =>
    obtain ⟨b, k1, e1, e2⟩ := Flow.bind_eq_done e
    obtain ⟨hb, rfl⟩ := srcBit_done e1
    obtain ⟨bs, hl, hg, hy, rfl⟩ := ih e2
    exact ⟨b :: bs, by simp [hl], gives_cons.2 ⟨hb, hg⟩, hy, by rw [Source.past_past, Nat.add_comm]⟩

/-- Eight bits shifted in are the symbol's own bits (R33). -/
theorem symBits_foldl {bs : List Bool} (h : bs.length = 8) : symBits (bs.foldl shiftIn 0) = bs := by
  match bs, h with
  | [b7, b6, b5, b4, b3, b2, b1, b0], _ =>
    revert b7 b6 b5 b4 b3 b2 b1 b0
    decide

/-- A symbol that is read was given, bit 7 first (R33). -/
theorem srcSym_done {k k' : Source} {y : Sym} (e : srcSym k = .done y k') :
    k.gives (symBits y) = true ∧ k' = k.past 8 := by
  obtain ⟨bs, hl, hg, rfl, rfl⟩ := srcSymBits_done e
  exact ⟨by rw [symBits_foldl hl]; exact hg, rfl⟩

/-- All that a call of `Des()` that is done can have done (R95 to R99, R104). -/
theorem desNode_done {fuel : Nat} {t t' : Tree} {k k' : Source} {h : Handle}
    (e : desNode fuel (t, k) = .done h (t', k')) : ∃ T a, DesMade t k h t' k' T a := by
  induction fuel generalizing t k h t' k' with
  | zero => cases e
  | succ fuel ih =>
    rw [desNode] at e
    cases ha : t.alloc with
    | none => simp [ha] at e
    | some p =>
      obtain ⟨g, t1⟩ := p
      simp only [ha, readFlag] at e
      obtain ⟨f, ⟨t2, k2⟩, e1, e2⟩ := Flow.bind_eq_done e
      cases hb : srcBit k with
      | raise x s => simp [hb] at e1
      | wait x s => simp [hb] at e1
      | broken => simp [hb] at e1
      | done b s =>
        simp only [hb, Flow.mapState_done, Flow.done.injEq, Prod.mk.injEq] at e1
        obtain ⟨rfl, rfl, rfl⟩ := e1
        obtain ⟨hgb, rfl⟩ := srcBit_done hb
        cases b with
        | true =>
          simp only [if_true, readSym] at e2
          obtain ⟨y, ⟨t3, k3⟩, e3, e4⟩ := Flow.bind_eq_done e2
          cases hs : srcSym (k.past 1) with
          | raise x s => simp [hs] at e3
          | wait x s => simp [hs] at e3
          | broken => simp [hs] at e3
          | done z s =>
            simp only [hs, Flow.mapState_done, Flow.done.injEq, Prod.mk.injEq] at e3 e4
            obtain ⟨rfl, rfl, rfl⟩ := e3
            obtain ⟨rfl, rfl, rfl⟩ := e4
            obtain ⟨hgs, rfl⟩ := srcSym_done hs
            rw [Source.past_past]
            exact ⟨_, _, DesMade.ofLeaf ha (gives_cons.2 ⟨hgb, hgs⟩)⟩
        | false =>
          simp only [Bool.false_eq_true, if_false] at e2
          obtain ⟨x, ⟨ta, ka⟩, e3, e4⟩ := Flow.bind_eq_done e2
          obtain ⟨y, ⟨tb, kb⟩, e5, e6⟩ := Flow.bind_eq_done e4
          simp only [Flow.done.injEq, Prod.mk.injEq] at e6
          obtain ⟨rfl, rfl, rfl⟩ := e6
          obtain ⟨T, a, A⟩ := ih e3
          obtain ⟨U, b, B⟩ := ih e5
          exact ⟨_, _, DesMade.ofNode ha hgb A B⟩

end Sys2Proof.Machine
end

