-- ==== Sys2Proof/Laws/Build.lean ====
section
/-! SUPPORT. What seeding and the merge loop of BUILD do (41_tree_builder.md R70 to R75): the leaves made, and that the
loop always ends with one tree of all the slots in use. -/

namespace Sys2Proof.Machine

theorem append_blank_put (n : Arena) (x : Node) (hh : n.length < nodeCap) :
    nodePut (n ++ [Node.blank]) ⟨n.length, hh⟩ x = n ++ [x] := by
  simp [nodePut]

/-- Seeding (R70, R72): the leaves stand in the order of their symbols in the slots from `NCOUNT` on. -/
theorem seed_eq (f : FreqTable) (ys : List Sym) (t : Tree) (hc : t.node.length + ys.length ≤ nodeCap) :
    ∃ hs t', seed f ys t = .done hs t' ∧ hs.map Fin.val = List.range' t.node.length ys.length ∧
      t'.node = t.node ++ ys.map (fun y => seedNode y (freqAt f y)) ∧
      t'.leaf = (ys.zip hs).foldl (fun l c => leafPut l c.1 c.2) t.leaf ∧ t'.kind = t.kind ∧ t'.root = t.root := by
  induction ys generalizing t with
  | nil => exact ⟨[], t, rfl, rfl, by simp, rfl, rfl, rfl⟩
  | cons y ys ih =>
    simp only [List.length_cons] at hc
    have hlt : t.node.length < nodeCap := by omega
    rw [seed, Tree.alloc_of_lt hlt]
    simp only
    obtain ⟨hs, t', e, hv, hn, hl, hk, hr⟩ := ih
      (({ t with node := t.node ++ [Node.blank] } : Tree).putNode ⟨t.node.length, hlt⟩ (seedNode y (freqAt f y))
        |>.putLeaf y ⟨t.node.length, hlt⟩) (by simp; omega)
    rw [e]
    refine ⟨_, t', rfl, ?_, ?_, by simpa using hl, by simpa using hk, by simpa using hr⟩
    · simp only [Tree.putLeaf_node, Tree.putNode_node, nodePut_length, List.length_append, List.length_singleton]
        at hv
      simp [hv, List.range'_succ]
    · simp only [Tree.putLeaf_node, Tree.putNode_node, append_blank_put] at hn
      simp [hn]

/-- Adding a node puts it somewhere among the others (R71). -/
theorem addPending_perm (n : Arena) (m : Handle) (qs : List Handle) : (addPending n m qs).Perm (m :: qs) := by
  induction qs with
  | nil => exact .refl _
  | cons q qs ih =>
    unfold addPending
    split
    · exact .refl _
    · exact (ih.cons q).trans (.swap m q qs)

theorem addPending_length (n : Arena) (m : Handle) (qs : List Handle) :
    (addPending n m qs).length = qs.length + 1 := by simpa using (addPending_perm n m qs).length_eq

theorem pendingOf_perm (n : Arena) (hs : List Handle) : (pendingOf n hs).Perm hs := by
  induction hs with
  | nil => exact .refl _
  | cons h hs ih => exact (addPending_perm n h _).trans (ih.cons h)

/-- The order of R71 is total. -/
theorem precedes_total (n : Arena) {x y : Handle} (h : precedes n x y = false) :
    precedes n y x = true ∨ ((nodeAt n x).freq = (nodeAt n y).freq ∧ (nodeAt n x).sym = (nodeAt n y).sym) := by
  simp only [precedes, BitVec.ult, Bool.or_eq_false_iff, Bool.and_eq_false_iff, decide_eq_false_iff_not,
    Bool.or_eq_true, Bool.and_eq_true, decide_eq_true_eq, beq_iff_eq, beq_eq_false_iff_ne] at h ⊢
  obtain ⟨h1, h2⟩ := h
  by_cases e : (nodeAt n x).freq = (nodeAt n y).freq
  · rcases h2 with h2 | h2
    · exact absurd e h2
    · by_cases e' : (nodeAt n x).sym = (nodeAt n y).sym
      · exact .inr ⟨e, e'⟩
      · refine .inl (.inr ⟨e.symm, ?_⟩)
        have : (nodeAt n x).sym.toNat ≠ (nodeAt n y).sym.toNat := fun h => e' (BitVec.eq_of_toNat_eq h)
        omega
  · refine .inl (.inl ?_)
    have : (nodeAt n x).freq.toNat ≠ (nodeAt n y).freq.toNat := fun h => e (BitVec.eq_of_toNat_eq h)
    omega

/-- A pending collection as the trees whose roots it holds: they are held apart from each other and fill the slots in
use (R77). -/
structure Forest (t : Tree) (pending : List Handle) (as : List SlotTree) : Prop where
  tops : (as.map SlotTree.top).Perm pending
  held : ∀ a ∈ as, a.heldBy t.node none
  nodup : (as.flatMap SlotTree.slots).Nodup
  fills : (as.flatMap SlotTree.slots).length = t.node.length

theorem perm_of_map_perm {α β : Type} (f : α → β) {as : List α} {b : β} {bs : List β} (h : (as.map f).Perm (b :: bs)) :
    ∃ a as', as.Perm (a :: as') ∧ f a = b ∧ (as'.map f).Perm bs := by
  have hb : b ∈ as.map f := h.symm.subset (by simp)
  obtain ⟨a, ha, rfl⟩ := List.mem_map.1 hb
  obtain ⟨l, r, rfl⟩ := List.append_of_mem ha
  refine ⟨a, l ++ r, List.perm_middle, rfl, ?_⟩
  have : ((a :: (l ++ r)).map f).Perm (f a :: bs) := (List.perm_middle.symm.map f).trans h
  rw [List.map_cons] at this
  exact (List.perm_cons _).1 this

theorem Forest.perm {t : Tree} {p q : List Handle} {as bs : List SlotTree} (h : Forest t p as) (hp : p.Perm q)
    (ha : as.Perm bs) : Forest t q bs where
  tops := (ha.symm.map _).trans (h.tops.trans hp)
  held a hm := h.held a (ha.symm.subset hm)
  nodup := (ha.flatMap_right _).nodup_iff.1 h.nodup
  fills := by rw [← (ha.flatMap_right SlotTree.slots).length_eq]; exact h.fills

/-- The tree registers after one merge of `a` and `b` into the new slot `m` (R70, R73). -/
def mergeStep (ms : MergeSym) (t : Tree) (a b m : Handle) : Tree :=
  ((({ t with node := t.node ++ [Node.blank] } : Tree).putNode m (mergedNode ms t.node a b)).putParent a m).putParent b m

@[simp] theorem mergeStep_length (ms : MergeSym) (t : Tree) (a b m : Handle) :
    (mergeStep ms t a b m).node.length = t.node.length + 1 := by simp [mergeStep]
@[simp] theorem mergeStep_leaf (ms : MergeSym) (t : Tree) (a b m : Handle) : (mergeStep ms t a b m).leaf = t.leaf := rfl
@[simp] theorem mergeStep_kind (ms : MergeSym) (t : Tree) (a b m : Handle) : (mergeStep ms t a b m).kind = t.kind := rfl

/-- A merge changes no symbol and no frequency of a slot in use (R26, R70). -/
theorem mergeStep_sym (ms : MergeSym) (t : Tree) {a b m g : Handle} (hm : m.val = t.node.length)
    (hg : g.val < t.node.length) : (nodeAt (mergeStep ms t a b m).node g).sym = (nodeAt t.node g).sym := by
  have ne : g ≠ m := fun e => by subst e; omega
  simp only [mergeStep, Tree.putParent_node, Tree.putNode_node, nodeAt_parentPut_sym]
  rw [nodeAt_nodePut_ne _ _ ne]
  simp only [nodeAt]; rw [nodeAt?_append _ hg]

theorem mergeStep_freq (ms : MergeSym) (t : Tree) {a b m g : Handle} (hm : m.val = t.node.length)
    (hg : g.val < t.node.length) : (nodeAt (mergeStep ms t a b m).node g).freq = (nodeAt t.node g).freq := by
  have ne : g ≠ m := fun e => by subst e; omega
  simp only [mergeStep, Tree.putParent_node, Tree.putNode_node, nodeAt_parentPut_freq]
  rw [nodeAt_nodePut_ne _ _ ne]
  simp only [nodeAt]; rw [nodeAt?_append _ hg]

/-- The new node's own fields (R73, R74). -/
theorem mergeStep_new (ms : MergeSym) (t : Tree) {a b m : Handle} (hm : m.val = t.node.length) :
    (nodeAt (mergeStep ms t a b m).node m).sym = mergedSym ms (nodeAt t.node a) (nodeAt t.node b) ∧
    (nodeAt (mergeStep ms t a b m).node m).freq = (nodeAt t.node a).freq + (nodeAt t.node b).freq := by
  simp only [mergeStep, Tree.putParent_node, Tree.putNode_node, nodeAt_parentPut_sym, nodeAt_parentPut_freq]
  rw [nodeAt_nodePut_self _ (by simp [hm])]
  exact ⟨rfl, rfl⟩

theorem mergedSym_eq (ms : MergeSym) (x y : Node) : mergedSym ms x y = x.sym ∨ mergedSym ms x y = y.sym := by
  cases ms
  · exact .inl rfl
  · exact .inr rfl

/-- One merge joins the two trees it takes under the new slot and leaves the others as they are (R73). -/
theorem Forest.merge {ms : MergeSym} {t : Tree} {a b m : Handle} {rest : List Handle} {l r : SlotTree}
    {as : List SlotTree} (h : Forest t (a :: b :: rest) (l :: r :: as)) (hl : l.top = a) (hr : r.top = b)
    (hm : m.val = t.node.length) : Forest (mergeStep ms t a b m) (m :: rest) (.node m l r :: as) := by
  subst hl hr
  have lt : ∀ c ∈ l :: r :: as, ∀ g ∈ c.slots, g.val < t.node.length := fun c hc => SlotTree.heldBy_lt (h.held c hc)
  have ne : ∀ c ∈ l :: r :: as, ∀ g ∈ c.slots, g ≠ m := fun c hc g hg e => by
    have := lt c hc g hg; subst e; omega
  have nd := h.nodup
  simp only [List.flatMap_cons, List.nodup_append, List.mem_append] at nd
  obtain ⟨ndl, ⟨ndr, ndas, ndr'⟩, ndl'⟩ := nd
  have held' : ∀ c ∈ l :: r :: as, c.heldBy (t.node ++ [Node.blank]) none := fun c hc =>
    SlotTree.heldBy_congr c _ (fun g hg => nodeAt?_append _ (lt c hc g hg)) (h.held c hc)
  have symOld : ∀ c ∈ l :: r :: as, (nodeAt (t.node ++ [Node.blank]) c.top).sym = (nodeAt t.node c.top).sym :=
    fun c hc => by simp only [nodeAt]; rw [nodeAt?_append _ (lt c hc _ c.top_mem_slots)]
  have joinNodup : (m :: (l.slots ++ r.slots)).Nodup := by
    simp only [List.nodup_cons, List.mem_append, not_or, List.nodup_append]
    exact ⟨⟨fun e => ne l (by simp) _ e rfl, fun e => ne r (by simp) _ e rfl⟩, ndl, ndr,
      fun x hx y hy => ndl' x hx y (.inl hy)⟩
  have joined := joined_heldBy (x := mergedNode ms t.node l.top r.top) (held' l (by simp)) (held' r (by simp))
    joinNodup (by simp [hm]) rfl rfl rfl (by
      rw [symOld l (by simp), symOld r (by simp)]; exact mergedSym_eq ms _ _)
  have tops := h.tops
  simp only [List.map_cons] at tops
  have restTops : (as.map SlotTree.top).Perm rest :=
    (List.perm_cons _).1 ((List.perm_cons _).1 tops)
  refine ⟨by simpa using restTops, ?_, ?_, ?_⟩
  · intro c hc
    rcases List.mem_cons.1 hc with rfl | hc
    · exact joined
    · have hc' : c ∈ l :: r :: as := by simp [hc]
      refine SlotTree.heldBy_congr c _ (fun g hg => ?_) (held' c hc')
      have hgas : g ∈ as.flatMap SlotTree.slots := List.mem_flatMap.2 ⟨c, hc, hg⟩
      simp only [mergeStep, Tree.putParent_node, Tree.putNode_node, parentPut]
      rw [nodeAt?_nodePut_ne _ _ (fun e => ndr' _ r.top_mem_slots g hgas e.symm),
        nodeAt?_nodePut_ne _ _ (fun e => ndl' _ l.top_mem_slots g (.inr hgas) e.symm),
        nodeAt?_nodePut_ne _ _ (ne c hc' g hg)]
  · have hnd := h.nodup
    simp only [List.flatMap_cons, SlotTree.slots, List.cons_append, List.nodup_cons, List.append_assoc] at hnd ⊢
    refine ⟨?_, hnd⟩
    simp only [List.mem_append, List.mem_flatMap, not_or, not_exists, not_and]
    exact ⟨fun e => ne l (by simp) _ e rfl, fun e => ne r (by simp) _ e rfl,
      fun c hc e => ne c (by simp [hc]) _ e rfl⟩
  · have hf := h.fills
    simp only [List.flatMap_cons, SlotTree.slots, List.cons_append, List.append_assoc, List.length_cons, List.length_append,
      mergeStep_length] at hf ⊢
    omega

/-- The merge loop on two or more pending trees ends with one tree of all of them, `ROOT` its root and `KIND` FULL
(R73, R77 item 2). `P` is anything a merge keeps. -/
theorem mergeLoop_done (ms : MergeSym) (P : Tree → List Handle → List SlotTree → Prop)
    (keep : ∀ t a b m rest l r as, P t (a :: b :: rest) (l :: r :: as) → Forest t (a :: b :: rest) (l :: r :: as) →
      l.top = a → r.top = b → m.val = t.node.length →
      P (mergeStep ms t a b m) (addPending (mergeStep ms t a b m).node m rest) (.node m l r :: as))
    (perm : ∀ t p as bs, P t p as → as.Perm bs → P t p bs)
    (fuel : Nat) (pending : List Handle) (t : Tree) (as : List SlotTree) (h : Forest t pending as) (hP : P t pending as)
    (hf : pending.length ≤ fuel) (h2 : 2 ≤ pending.length) (hc : t.node.length + pending.length ≤ nodeCap + 1) :
    ∃ t' u a, mergeLoop ms fuel pending t = .done () t' ∧ a.isInner = true ∧
      t' = { u with root := some a.top, kind := .full } ∧ Forest u [a.top] [a] ∧ P u [a.top] [a] ∧
      u.leaf = t.leaf ∧ a.top.val = u.node.length - 1 ∧ u.node.length + 1 = t.node.length + pending.length := by
  induction fuel generalizing pending t as with
  | zero => omega
  | succ fuel ih =>
    match pending, h2 with
    | a :: b :: rest, _ =>
      simp only [List.length_cons] at hf hc
      obtain ⟨l, as1, p1, htl, tops1⟩ := perm_of_map_perm _ h.tops
      obtain ⟨r, as2, p2, htr, -⟩ := perm_of_map_perm _ tops1
      have pAll : as.Perm (l :: r :: as2) := p1.trans (p2.cons l)
      have hF := h.perm (.refl _) pAll
      have hP' := perm _ _ _ _ hP pAll
      have hlt : t.node.length < nodeCap := by omega
      have merged := hF.merge (ms := ms) (m := ⟨t.node.length, hlt⟩) htl htr rfl
      have kept := keep t a b ⟨t.node.length, hlt⟩ rest l r as2 hP' hF htl htr rfl
      rw [mergeLoop, Tree.alloc_of_lt hlt]
      simp only
      match rest with
      | [] =>
        have hnil : as2 = [] := by
          have := merged.tops.length_eq
          simpa using this
        subst hnil
        refine ⟨_, _, .node ⟨t.node.length, hlt⟩ l r, rfl, rfl, rfl, ?_, ?_, rfl, ?_, ?_⟩
        · exact merged
        · exact kept
        · show t.node.length = (mergeStep ms t a b ⟨t.node.length, hlt⟩).node.length - 1
          simp
        · show (mergeStep ms t a b ⟨t.node.length, hlt⟩).node.length + 1 = _
          simp
      | q :: qs =>
        simp only [List.length_cons] at hf hc
        obtain ⟨t', u, c, e, hi, ht, hFu, hPu, hlf, htop, hlen⟩ :=
          ih (addPending (mergeStep ms t a b ⟨t.node.length, hlt⟩).node ⟨t.node.length, hlt⟩ (q :: qs))
            (mergeStep ms t a b ⟨t.node.length, hlt⟩) (.node ⟨t.node.length, hlt⟩ l r :: as2)
            (merged.perm (addPending_perm _ _ _).symm (.refl _)) kept
            (by rw [addPending_length]; simp; omega) (by rw [addPending_length]; simp)
            (by rw [addPending_length, mergeStep_length]; simp only [List.length_cons]; omega)
        refine ⟨t', u, c, e, hi, ht, hFu, hPu, hlf, htop, ?_⟩
        rw [addPending_length, mergeStep_length] at hlen
        simp only [List.length_cons] at hlen ⊢
        omega

end Sys2Proof.Machine
end

