-- ==== Sys2Proof/Laws/BuildTree.lean ====
section
/-! SUPPORT. What BUILD makes of a table (41_tree_builder.md R70, 10_state.md R20, R21): the degenerate tree of one
symbol, or one tree of all the symbols present, whose leaves LEAF names. -/

namespace Sys2Proof.Machine

theorem allSyms_length : allSyms.length = 256 := by simp [allSyms]

theorem mem_allSyms (y : Sym) : y ∈ allSyms := by
  simp only [allSyms, List.mem_map, List.mem_range]
  exact ⟨y.toNat, y.isLt, by simp⟩

theorem allSyms_nodup : allSyms.Nodup := by
  refine List.Nodup.map_on ?_ List.nodup_range
  intro a ha b hb e
  have := congrArg BitVec.toNat e
  simp only [List.mem_range] at ha hb
  simpa [BitVec.toNat_ofNat, Nat.mod_eq_of_lt ha, Nat.mod_eq_of_lt hb] using this

/-- The symbols present are those with a positive entry (R70, R72). -/
theorem mem_presentSyms {f : FreqTable} {y : Sym} : y ∈ presentSyms f ↔ freqAt f y ≠ 0 := by
  simp [presentSyms, mem_allSyms]

theorem presentSyms_nodup (f : FreqTable) : (presentSyms f).Nodup := allSyms_nodup.filter _

theorem presentSyms_length (f : FreqTable) : (presentSyms f).length ≤ 256 := by
  rw [← allSyms_length]; exact List.length_filter_le _ _

/-- `LEAF` after the leaves are registered (R70, R72). -/
theorem leafAt_zip {ys : List Sym} {hs : List Handle} (hy : ys.Nodup) (l : LeafTable) (hl : ys.length = hs.length)
    (y : Sym) :
    (∀ h, (y, h) ∈ ys.zip hs → leafAt ((ys.zip hs).foldl (fun l c => leafPut l c.1 c.2) l) y = some h) ∧
    (y ∉ ys → leafAt ((ys.zip hs).foldl (fun l c => leafPut l c.1 c.2) l) y = leafAt l y) := by
  induction ys generalizing hs l with
  | nil => simp
  | cons z zs ih =>
    cases hs with
    | nil => simp at hl
    | cons g gs =>
      simp only [List.nodup_cons] at hy
      simp only [List.length_cons, Nat.add_right_cancel_iff] at hl
      obtain ⟨i1, i2⟩ := ih (hs := gs) hy.2 (leafPut l z g) hl
      simp only [List.zip_cons_cons, List.foldl_cons, List.mem_cons, Prod.mk.injEq, not_or]
      constructor
      · rintro h (⟨rfl, rfl⟩ | hm)
        · rw [i2 hy.1]; simp
        · exact i1 h hm
      · rintro ⟨hne, hn⟩
        rw [i2 hn, leafAt_leafPut_ne _ _ hne]

theorem cellsSorted_zip (cs : List (Sym × Handle)) {l : LeafTable} (h : cellsSorted l = true) :
    cellsSorted (cs.foldl (fun l c => leafPut l c.1 c.2) l) = true := by
  induction cs generalizing l with
  | nil => exact h
  | cons c cs ih => exact ih (cellsSorted_leafPut _ _ h)

/-- The last leaf of a symbol is a leaf of it, and there is one if any leaf has the symbol. -/
theorem SlotTree.lastLeaf_spec {n : Arena} {y : Sym} (a : SlotTree) :
    (∀ h, a.lastLeaf n y = some h → h ∈ a.leafSlots ∧ (nodeAt n h).sym = y) ∧
    (a.lastLeaf n y = none → ∀ h ∈ a.leafSlots, (nodeAt n h).sym ≠ y) := by
  induction a with
  | leaf h =>
    by_cases e : (nodeAt n h).sym = y <;> simp [lastLeaf, leafSlots, e]
  | node h l r ihl ihr =>
    simp only [lastLeaf, leafSlots, List.mem_append]
    cases er : r.lastLeaf n y with
    | some g =>
      simp only [Option.some_or, Option.some.injEq, reduceCtorEq, false_implies, and_true]
      rintro h rfl
      exact ⟨.inr (ihr.1 _ er).1, (ihr.1 _ er).2⟩
    | none =>
      simp only [Option.none_or]
      refine ⟨fun h e => ⟨.inl (ihl.1 h e).1, (ihl.1 h e).2⟩, fun e h => ?_⟩
      rintro (hm | hm)
      · exact ihl.2 e h hm
      · exact ihr.2 er h hm

/-- The state of the builder when the leaves are made (R72), and that it is kept: which slots are the leaves, with
their symbols and frequencies. -/
structure SeedsKept (u : Tree) (hs : List Handle) (t : Tree) (as : List SlotTree) : Prop where
  leaves : (as.flatMap SlotTree.leafSlots).Perm hs
  inUse : ∀ h ∈ hs, h.val < t.node.length
  sym : ∀ h ∈ hs, (nodeAt t.node h).sym = (nodeAt u.node h).sym
  freq : ∀ h ∈ hs, (nodeAt t.node h).freq = (nodeAt u.node h).freq

theorem SeedsKept.merge {u : Tree} {hs : List Handle} {ms : MergeSym} {t : Tree} {a b m : Handle} {l r : SlotTree}
    {as : List SlotTree} (h : SeedsKept u hs t (l :: r :: as)) (hm : m.val = t.node.length) :
    SeedsKept u hs (mergeStep ms t a b m) (.node m l r :: as) where
  leaves := by simpa [SlotTree.leafSlots] using h.leaves
  inUse g hg := by have := h.inUse g hg; simp; omega
  sym g hg := by rw [mergeStep_sym ms t hm (h.inUse g hg), h.sym g hg]
  freq g hg := by rw [mergeStep_freq ms t hm (h.inUse g hg), h.freq g hg]

/-- All that BUILD makes of a table with two or more symbols present (R70, R72, R73, R78, R20). `P` is anything that
holds when the leaves are made and that a merge keeps. -/
theorem buildTree_many (ms : MergeSym) (f : FreqTable) (t : Tree) (h2 : 2 ≤ (presentSyms f).length)
    (P : Tree → List Handle → List SlotTree → Prop)
    (init : ∀ hs u, hs.map Fin.val = List.range' 0 (presentSyms f).length →
      u.node = (presentSyms f).map (fun y => seedNode y (freqAt f y)) →
      P u (pendingOf u.node hs) (hs.map SlotTree.leaf))
    (keep : ∀ t a b m rest l r as, P t (a :: b :: rest) (l :: r :: as) → Forest t (a :: b :: rest) (l :: r :: as) →
      l.top = a → r.top = b → m.val = t.node.length →
      P (mergeStep ms t a b m) (addPending (mergeStep ms t a b m).node m rest) (.node m l r :: as))
    (perm : ∀ t p as bs, P t p as → as.Perm bs → P t p bs) :
    ∃ t' a, buildTree ms f t = .done () t' ∧ t'.kind = .full ∧ a.isInner = true ∧ t'.holds a ∧
      cellsSorted t'.leaf = true ∧ t'.ncount + 1 = 2 * (presentSyms f).length ∧ a.top.val + 1 = t'.ncount ∧
      (a.leafSlots.map fun h => ((nodeAt t'.node h).sym, (nodeAt t'.node h).freq)).Perm
        ((presentSyms f).map fun y => (y, zext40 (freqAt f y))) ∧
      (∀ y h, leafAt t'.leaf y = some h ↔ h ∈ a.leafSlots ∧ (nodeAt t'.node h).sym = y) ∧
      (∃ v, P v [a.top] [a] ∧ v.node = t'.node) := by
  have hlen := presentSyms_length f
  obtain ⟨hs, u, es, hv, hn, hlf, hk, hr⟩ := seed_eq f (presentSyms f) t.discard (by simp [nodeCap]; omega)
  simp only [Tree.discard_eq, Tree.reset_node, List.length_nil, List.nil_append, Tree.reset_leaf] at hv hn hlf
  have hsl : hs.length = (presentSyms f).length := by simpa using congrArg List.length hv
  have hul : u.node.length = (presentSyms f).length := by simp [hn]
  -- the leaf in the i-th slot
  have slot : ∀ i (hi : i < hs.length), hs[i].val = i := fun i hi => by
    have := congrArg (fun l => l[i]?) hv
    simpa [hi, hsl ▸ hi] using this
  have node : ∀ i (hi : i < hs.length),
      nodeAt? u.node hs[i] = some (seedNode (presentSyms f)[i] (freqAt f (presentSyms f)[i])) := fun i hi => by
    have hi' : i < (presentSyms f).length := hsl ▸ hi
    simp [nodeAt?, slot i hi, hn, hi']
  have forest : Forest u (pendingOf u.node hs) (hs.map SlotTree.leaf) := by
    refine ⟨?_, ?_, ?_, ?_⟩
    · have : (hs.map SlotTree.leaf).map SlotTree.top = hs := by simp [Function.comp_def]
      rw [this]; exact (pendingOf_perm _ _).symm
    · intro a ha
      obtain ⟨h, hh, rfl⟩ := List.mem_map.1 ha
      obtain ⟨i, hi, rfl⟩ := List.getElem_of_mem hh
      exact ⟨_, node i hi, rfl, rfl, rfl⟩
    · have : (hs.map SlotTree.leaf).flatMap SlotTree.slots = hs := by
        simp [List.flatMap_map, SlotTree.slots]
      rw [this]; exact slots_nodup hv
    · have : (hs.map SlotTree.leaf).flatMap SlotTree.slots = hs := by
        simp [List.flatMap_map, SlotTree.slots]
      rw [this, hsl, hul]
  have seeds : SeedsKept u hs u (hs.map SlotTree.leaf) := by
    refine ⟨by simp [List.flatMap_map, SlotTree.leafSlots], fun h hh => ?_, fun _ _ => rfl, fun _ _ => rfl⟩
    obtain ⟨i, hi, rfl⟩ := List.getElem_of_mem hh
    rw [slot i hi, hul]; omega
  have plen : (pendingOf u.node hs).length = (presentSyms f).length := by
    rw [(pendingOf_perm _ _).length_eq, hsl]
  obtain ⟨t', v, a, eL, hi, ht, hF, ⟨hS, hP⟩, hleaf, htop, hcount⟩ := mergeLoop_done ms
    (fun t p as => SeedsKept u hs t as ∧ P t p as)
    (fun t a b m rest l r as hp hf hl hr hm => ⟨hp.1.merge hm, keep t a b m rest l r as hp.2 hf hl hr hm⟩)
    (fun t p as bs hp hab => ⟨⟨(hab.flatMap_right _).symm.trans hp.1.leaves, hp.1.inUse, hp.1.sym, hp.1.freq⟩,
      perm t p as bs hp.2 hab⟩)
    hs.length (pendingOf u.node hs) u _ forest ⟨seeds, init hs u hv hn⟩ (by omega) (by omega)
    (by simp only [nodeCap]; omega)
  have eB : buildTree ms f t = .done () t' := by
    rw [buildTree]
    match hp : presentSyms f, h2 with
    | y :: z :: ys, _ =>
      simp only
      rw [← hp, es, Flow.bind_done]
      match hs, eL, hsl with
      | h :: g :: gs, eL, _ => simpa using eL
      | [], _, e => simp [hp] at e
      | [h], _, e => simp [hp] at e
  have leavesPerm : a.leafSlots.Perm hs := by simpa using hS.leaves
  have symAt : ∀ i (hi : i < hs.length), (nodeAt v.node hs[i]).sym = (presentSyms f)[i] := fun i hi => by
    rw [hS.sym _ (List.getElem_mem hi), nodeAt_of_nodeAt? (node i hi)]; rfl
  have freqAtI : ∀ i (hi : i < hs.length), (nodeAt v.node hs[i]).freq = zext40 (freqAt f (presentSyms f)[i]) :=
    fun i hi => by rw [hS.freq _ (List.getElem_mem hi), nodeAt_of_nodeAt? (node i hi)]; rfl
  have tnode : t'.node = v.node := by rw [ht]
  have tleaf : t'.leaf = v.leaf := by rw [ht]
  have leafTable : ∀ y h, leafAt t'.leaf y = some h ↔ h ∈ a.leafSlots ∧ (nodeAt t'.node h).sym = y := by
    intro y h
    rw [tleaf, tnode, hleaf, hlf, leavesPerm.mem_iff]
    obtain ⟨z1, z2⟩ := leafAt_zip (presentSyms_nodup f) [] hsl.symm y
    constructor
    · intro e
      by_cases hy : y ∈ presentSyms f
      · obtain ⟨i, hi, rfl⟩ := List.getElem_of_mem hy
        have hi' : i < hs.length := by omega
        have := z1 hs[i] (by
          rw [List.mem_iff_getElem]; exact ⟨i, by simp; omega, by simp⟩)
        obtain rfl : hs[i] = h := Option.some.inj (this.symm.trans e)
        exact ⟨List.getElem_mem hi', symAt i hi'⟩
      · rw [z2 hy] at e; simp at e
    · rintro ⟨hm, hy⟩
      obtain ⟨i, hi, rfl⟩ := List.getElem_of_mem hm
      rw [symAt i hi] at hy
      subst hy
      exact z1 hs[i] (by rw [List.mem_iff_getElem]; exact ⟨i, by simp; omega, by simp⟩)
  have fills := hF.fills
  simp only [List.flatMap_cons, List.flatMap_nil, List.append_nil] at fills
  have nodup := hF.nodup
  simp only [List.flatMap_cons, List.flatMap_nil, List.append_nil] at nodup
  refine ⟨t', a, eB, by rw [ht], hi, ⟨?_, nodup, by rw [fills, Tree.ncount, tnode], ?_, by rw [ht], fun y => ?_⟩,
    ?_, ?_, ?_, ?_, leafTable, v, hP, tnode.symm⟩
  · rw [tnode]; exact hF.held a (by simp)
  · rw [Tree.ncount, tnode]; omega
  · cases e : a.lastLeaf t'.node y with
    | some h => exact (leafTable y h).2 (a.lastLeaf_spec.1 h e)
    | none =>
      cases e' : leafAt t'.leaf y with
      | none => rfl
      | some h => exact absurd ((leafTable y h).1 e').2 (a.lastLeaf_spec.2 e h ((leafTable y h).1 e').1)
  · rw [tleaf, hleaf, hlf]; exact cellsSorted_zip _ rfl
  · rw [Tree.ncount, tnode]; omega
  · rw [Tree.ncount, tnode, htop]; omega
  · refine (leavesPerm.map _).trans ?_
    refine List.Perm.of_eq (List.ext_getElem (by simp [hsl]) fun i h1 h3 => ?_)
    simp only [List.getElem_map, Prod.mk.injEq, tnode]
    exact ⟨symAt i (by simpa using h1), freqAtI i (by simpa using h1)⟩

/-- BUILD with one symbol present makes the degenerate tree (R75, R21). -/
theorem buildTree_one (ms : MergeSym) (f : FreqTable) (t : Tree) {y : Sym} (h : presentSyms f = [y]) :
    buildTree ms f t = .done () (Tree.degenerate y (freqAt f y)) := by
  obtain ⟨hs, u, es, hv, hn, hlf, hk, hr⟩ := seed_eq f [y] t.discard (by simp)
  simp only [Tree.discard_eq, Tree.reset_node, List.length_nil, List.nil_append, Tree.reset_leaf, Tree.reset_kind,
    Tree.reset_root, List.length_singleton, List.map_cons, List.map_nil] at hv hn hlf hk hr
  match hs, hv with
  | [g], hv =>
    have hg : g = 0 := Fin.ext (by simpa using hv)
    subst hg
    rw [buildTree, h]
    simp only
    rw [es, Flow.bind_done]
    simp only
    rw [singletonRoot, Tree.alloc_of_lt (by simp [hn])]
    simp only [Flow.done.injEq, true_and]
    obtain ⟨un, ur, ul, uk⟩ := u
    simp only at hn hlf hk hr
    subst hn hlf hk hr
    rfl

/-- BUILD with no symbol present raises DOMAIN (R76). -/
theorem buildTree_none (ms : MergeSym) (f : FreqTable) (t : Tree) (h : presentSyms f = []) :
    buildTree ms f t = .raise .domain t.discard := by
  rw [buildTree, h]

end Sys2Proof.Machine
end

