-- ==== Sys2Proof/Laws/DesTotal.lean ====
section
/-! SUPPORT. How `Des()` ends on every input (45_tree_deserializer.md R95, R100, R103): the faults it can raise, that it
reads a whole header that fits, and that it raises CAPACITY in a header that does not. -/

namespace Sys2Proof.Machine

/-- What `SrcBit` can end in besides a bit. -/
def Flow.readEnd {σ α : Type} (m : Flow σ α) : Prop :=
  (∃ a s, m = .done a s) ∨ (∃ x s, m = .raise x s ∧ (x = .corrupt ∨ x = .io ∨ x = .capacity)) ∨
  (∃ s, m = .wait .source s)

theorem Flow.readEnd_bind {σ α β : Type} {m : Flow σ α} {f : α → σ → Flow σ β} (h : m.readEnd)
    (hf : ∀ a s, (f a s).readEnd) : (m.bind f).readEnd := by
  rcases h with ⟨a, s, rfl⟩ | ⟨x, s, rfl, hx⟩ | ⟨s, rfl⟩
  · exact hf a s
  · exact .inr (.inl ⟨x, s, rfl, hx⟩)
  · exact .inr (.inr ⟨s, rfl⟩)

theorem Flow.readEnd_mapState {σ τ α : Type} {m : Flow σ α} (f : σ → τ) (h : m.readEnd) :
    (m.mapState f).readEnd := by
  rcases h with ⟨a, s, rfl⟩ | ⟨x, s, rfl, hx⟩ | ⟨s, rfl⟩
  · exact .inl ⟨a, f s, rfl⟩
  · exact .inr (.inl ⟨x, f s, rfl, hx⟩)
  · exact .inr (.inr ⟨f s, rfl⟩)

theorem srcBit_readEnd (k : Source) : (srcBit k).readEnd := by
  rcases srcBit_cases k with ⟨b, -, h⟩ | ⟨b, -, h⟩ | ⟨e, b, -, h⟩ | ⟨-, h⟩ <;> rw [h]
  · exact .inl ⟨_, _, rfl⟩
  · exact .inr (.inl ⟨_, _, rfl, .inl rfl⟩)
  · exact .inr (.inl ⟨_, _, rfl, .inr (.inl rfl)⟩)
  · exact .inr (.inr ⟨_, rfl⟩)

theorem srcSymBits_readEnd (n : Nat) (v : Sym) (k : Source) : (srcSymBits n v k).readEnd := by
  induction n generalizing v k with
  | zero => exact .inl ⟨v, k, rfl⟩
  | succ n ih => exact Flow.readEnd_bind (srcBit_readEnd k) fun b s => ih _ s

/-- `Des()` is done, raises CORRUPT, IO or CAPACITY, or waits for the source (R95). -/
theorem desNode_readEnd (fuel : Nat) (p : Tree × Source) : (desNode fuel p).readEnd := by
  induction fuel generalizing p with
  | zero => exact .inr (.inl ⟨_, _, rfl, .inr (.inr rfl)⟩)
  | succ fuel ih =>
    rw [desNode]
    split
    · exact .inr (.inl ⟨_, _, rfl, .inr (.inr rfl)⟩)
    · refine Flow.readEnd_bind (Flow.readEnd_mapState _ (srcBit_readEnd _)) fun f q => ?_
      cases f with
      | true =>
        exact Flow.readEnd_bind (Flow.readEnd_mapState _ (srcSymBits_readEnd _ _ _)) fun y r => .inl ⟨_, _, rfl⟩
      | false =>
        exact Flow.readEnd_bind (ih q) fun a r => Flow.readEnd_bind (ih r) fun b u => .inl ⟨_, _, rfl⟩

/-- A header that fits in the slots left is read to its end, and one that does not raises CAPACITY (R100). -/
theorem desNode_header (T : CodeTree) {fuel : Nat} {t : Tree} {k : Source} (hk : k.gives T.header = true)
    (hf : nodeCap ≤ fuel + t.node.length) :
    (t.node.length + T.size ≤ nodeCap → ∃ h t', desNode fuel (t, k) = .done h (t', k.past T.header.length) ∧
      t'.node.length = t.node.length + T.size) ∧
    (nodeCap < t.node.length + T.size → ∃ p, desNode fuel (t, k) = .raise .capacity p) := by
  induction T generalizing fuel t k with
  | leaf y =>
    by_cases hcap : t.node.length < nodeCap
    · refine ⟨fun _ => ?_, fun h => by simp only [CodeTree.size] at h; omega⟩
      cases fuel with
      | zero => omega
      | succ fuel =>
        obtain ⟨h1, h2⟩ := gives_cons.1 hk
        rw [desNode, Tree.alloc_of_lt hcap]
        simp only [readFlag, srcBit_of_gives h1, Flow.mapState_done, Flow.bind_done, if_true, readSym,
          srcSym_of_gives h2]
        rw [Source.past_past, Nat.add_comm 1]
        exact ⟨_, _, rfl, by simp [CodeTree.size]⟩
    · refine ⟨fun h => by simp only [CodeTree.size] at h; omega, fun _ => ?_⟩
      cases fuel with
      | zero => exact ⟨_, rfl⟩
      | succ fuel => rw [desNode, Tree.alloc_none.2 (by simpa using hcap)]; exact ⟨_, rfl⟩
  | node l r ihl ihr =>
    have lp := l.size_pos
    have rp := r.size_pos
    by_cases hcap : t.node.length < nodeCap
    · cases fuel with
      | zero => omega
      | succ fuel =>
        obtain ⟨h1, h2⟩ := gives_cons.1 hk
        rw [Source.gives_past, Bool.and_eq_true] at h2
        rw [desNode, Tree.alloc_of_lt hcap]
        simp only [readFlag, srcBit_of_gives h1, Flow.mapState_done, Flow.bind_done, Bool.false_eq_true, if_false]
        have hl := @ihl fuel { t with node := t.node ++ [Node.blank] } (k.past 1) h2.1 (by simp; omega)
        simp only [List.length_append, List.length_singleton] at hl
        by_cases hfit : t.node.length + 1 + l.size ≤ nodeCap
        · obtain ⟨a, ta, ea, la⟩ := hl.1 hfit
          rw [ea, Flow.bind_done]
          have hr := @ihr fuel ta ((k.past 1).past l.header.length) h2.2 (by omega)
          constructor
          · intro hs
            simp only [CodeTree.size] at hs
            obtain ⟨b, tb, eb, lb⟩ := hr.1 (by omega)
            rw [eb, Flow.bind_done]
            have hlen : 1 + (l.header.length + r.header.length) = (CodeTree.node l r).header.length := by
              simp only [CodeTree.header, List.length_cons, List.length_append]; omega
            rw [Source.past_past, Source.past_past, hlen]
            refine ⟨_, _, rfl, ?_⟩
            simp only [CodeTree.size, Tree.putParent_node, Tree.putNode_node, parentPut_length, nodePut_length]
            omega
          · intro hs
            simp only [CodeTree.size] at hs
            obtain ⟨p, ep⟩ := hr.2 (by omega)
            exact ⟨p, by rw [ep]; rfl⟩
        · obtain ⟨p, ep⟩ := hl.2 (by omega)
          exact ⟨fun hs => by simp only [CodeTree.size] at hs; omega, fun _ => ⟨p, by rw [ep]; rfl⟩⟩
    · refine ⟨fun h => by simp only [CodeTree.size] at h; omega, fun _ => ?_⟩
      cases fuel with
      | zero => exact ⟨_, rfl⟩
      | succ fuel => rw [desNode, Tree.alloc_none.2 (by simpa using hcap)]; exact ⟨_, rfl⟩

/-- A DES that is done has made a tree of the kind its root says (R95, R17, R22). -/
theorem desTree_done {t t' : Tree} {k k' : Source} (e : desTree (t, k) = .done () (t', k')) :
    ∃ T a, k.gives T.header = true ∧ k' = k.past T.header.length ∧ T.size ≤ nodeCap ∧
      a.slots.map Fin.val = List.range' 0 T.size ∧ a.value t'.node = T ∧ t'.holds a ∧ cellsSorted t'.leaf = true ∧
      (∀ g ∈ a.slots, (nodeAt t'.node g).freq = 0) ∧ t'.kind = if T.isInner then .full else .leafroot := by
  obtain ⟨r, ⟨u, kk⟩, e1, e2⟩ := Flow.bind_eq_done e
  simp only [Flow.done.injEq, Prod.mk.injEq, true_and] at e2
  obtain ⟨rfl, rfl⟩ := e2
  obtain ⟨T, a, M⟩ := desNode_done e1
  have hs := M.slots
  have hl := M.length
  have hc := M.cap
  simp only [Tree.discard_eq, Tree.reset_node, List.length_nil, Nat.zero_add] at hs hl
  refine ⟨T, a, M.gives, M.past, by omega, hs, M.value, ?_, ?_, M.freq, ?_⟩
  · refine ⟨M.held, slots_nodup hs, ?_, by simp only [Tree.ncount]; omega, by rw [M.top], fun y => ?_⟩
    · simpa [Tree.ncount, hl] using congrArg List.length hs
    · simp only
      rw [M.leaf, leafAt_registered]
      simp
  · simp only
    rw [M.leaf]
    exact cellsSorted_registered _ _ rfl
  · have : (nodeAt u.node r).isLeaf = !T.isInner := by
      rw [← M.value, ← M.top]
      have held := M.held
      cases a with
      | leaf h =>
        obtain ⟨x, hx, h0, -⟩ := held
        simp [SlotTree.value, CodeTree.isInner, nodeAt_of_nodeAt? hx, Node.isLeaf, h0]
      | node h l r =>
        obtain ⟨⟨x, hx, h0, -⟩, -⟩ := held
        simp [SlotTree.value, CodeTree.isInner, nodeAt_of_nodeAt? hx, Node.isLeaf, h0]
    simp only [this]
    cases T <;> rfl

end Sys2Proof.Machine
end

