-- ==== Sys2Proof/Laws/Command.lean ====
section
/-! SUPPORT. The shape every command has (60_exceptions.md R106, R107): all the ways it can end, and what pseudocode on
one part of the state leaves of the others. -/

namespace Sys2Proof.Machine

/-- All that a command can answer with a next state (R106 to R108). -/
theorem runCommand_next {d : Bool} {body : State → Flow State Unit} {s t : State}
    (e : runCommand d body s = .next t) :
    (s.locked = true ∧ t = lockedAnswer s) ∨ (s.locked = false ∧
      ((∃ u, body s = .done () u ∧ t = u.respond stOk) ∨ (∃ x u, body s = .raise x u ∧ t = takeFault d x u) ∨
        ∃ p u, body s = .wait p u ∧ t = u.hold p)) := by
  unfold runCommand at e
  split at e
  · next h => exact .inl ⟨h, by cases e; rfl⟩
  · next h =>
    refine .inr ⟨by simpa using h, ?_⟩
    cases hb : body s with
    | done a u => rw [hb] at e; cases e; exact .inl ⟨u, rfl, rfl⟩
    | raise x u => rw [hb] at e; cases e; exact .inr (.inl ⟨x, u, rfl, rfl⟩)
    | wait p u => rw [hb] at e; cases e; exact .inr (.inr ⟨p, u, rfl, rfl⟩)
    | broken => rw [hb] at e; cases e

theorem locked_of_none {s : State} (h : s.err = none) : s.locked = false := by simp [State.locked, h]

theorem locked_of_some {s : State} {x : Cause} (h : s.err = some x) : s.locked = true := by simp [State.locked, h]

/-- A locked block's answer (R108). -/
theorem runCommand_locked {d : Bool} {body : State → Flow State Unit} {s : State} {x : Cause} (h : s.err = some x) :
    runCommand d body s = .next (lockedAnswer s) := by simp [runCommand, locked_of_some h]

theorem runCommand_done {d : Bool} {body : State → Flow State Unit} {s u : State} (h : s.err = none)
    (hb : body s = .done () u) : runCommand d body s = .next (u.respond stOk) := by
  simp [runCommand, locked_of_none h, hb]

theorem runCommand_raise {d : Bool} {body : State → Flow State Unit} {s u : State} {x : Cause} (h : s.err = none)
    (hb : body s = .raise x u) : runCommand d body s = .next (takeFault d x u) := by
  simp [runCommand, locked_of_none h, hb]

theorem runCommand_wait {d : Bool} {body : State → Flow State Unit} {s u : State} {p : Port} (h : s.err = none)
    (hb : body s = .wait p u) : runCommand d body s = .next (u.hold p) := by
  simp [runCommand, locked_of_none h, hb]

/-- A command stops the machine only by meeting a broken arena. -/
theorem runCommand_fault {d : Bool} {body : State → Flow State Unit} {s : State} {r : Fault}
    (e : runCommand d body s = .fault r) : body s = .broken ∧ r = .brokenTree := by
  unfold runCommand at e
  split at e
  · cases e
  · cases hb : body s with
    | done a u => rw [hb] at e; cases e
    | raise x u => rw [hb] at e; cases e
    | wait p u => rw [hb] at e; cases e
    | broken => rw [hb] at e; cases e; exact ⟨rfl, rfl⟩

/-- No command is refused. -/
theorem runCommand_not_refused {d : Bool} {body : State → Flow State Unit} {s : State} {r : Refusal} :
    runCommand d body s ≠ .refused r := by
  unfold runCommand
  split
  · simp
  · split <;> simp

/-- Pseudocode on the sink changes the sink only. -/
theorem onSink_eq {α : Type} (m : Sink → Flow Sink α) (s : State) :
    onSink m s = match m s.sink with
      | .done a k => .done a { s with sink := k }
      | .raise x k => .raise x { s with sink := k }
      | .wait p k => .wait p { s with sink := k }
      | .broken => .broken := by
  unfold onSink; cases m s.sink <;> rfl

/-- Pseudocode on the source changes the source only. -/
theorem onSource_eq {α : Type} (m : Source → Flow Source α) (s : State) :
    onSource m s = match m s.source with
      | .done a k => .done a { s with source := k }
      | .raise x k => .raise x { s with source := k }
      | .wait p k => .wait p { s with source := k }
      | .broken => .broken := by
  unfold onSource; cases m s.source <;> rfl

/-- Pseudocode on the tree registers changes those only. -/
theorem onTree_eq {α : Type} (m : Tree → Flow Tree α) (s : State) :
    onTree m s = match m s.tree with
      | .done a t => .done a { s with tree := t }
      | .raise x t => .raise x { s with tree := t }
      | .wait p t => .wait p { s with tree := t }
      | .broken => .broken := by
  unfold onTree; cases m s.tree <;> rfl

/-- Pseudocode on the tree registers and the source changes those only. -/
theorem onTreeSource_eq {α : Type} (m : Tree × Source → Flow (Tree × Source) α) (s : State) :
    onTreeSource m s = match m (s.tree, s.source) with
      | .done a p => .done a { s with tree := p.1, source := p.2 }
      | .raise x p => .raise x { s with tree := p.1, source := p.2 }
      | .wait q p => .wait q { s with tree := p.1, source := p.2 }
      | .broken => .broken := by
  unfold onTreeSource; cases m (s.tree, s.source) <;> rfl

end Sys2Proof.Machine
end

