-- ==== Sys2Proof/Laws/PerInstr.lean ====
section
/-! SUPPORT. Statements made of every command as syntax, one lemma per constructor. -/

namespace Sys2Proof.Laws.EncodeLegal

/-- The fields a command is encoded with are legal: no field that must be 0 is not (30_encoding.md R52). -/
def Statement (i : Instr) : Prop := (fieldsOfInstr i).legal = true

theorem setf (sym : Sym) (count : Count) : Statement (.setf sym count) := rfl
theorem clrf : Statement .clrf := rfl
theorem build : Statement .build := rfl
theorem enc (sym : Sym) : Statement (.enc sym) := rfl
theorem dec : Statement .dec := rfl
theorem ser : Statement .ser := rfl
theorem des : Statement .des := rfl

end Sys2Proof.Laws.EncodeLegal
end

