-- ==== Sys2Proof/Laws/Step.lean ====
section
/-! SUPPORT. All that a command and a step can do, said once (60_exceptions.md R106 to R108, 10_state.md R24, R26,
R29). -/

namespace Sys2Proof.Machine

/-- `e` is what one command's pseudocode may leave, when it ends, of the state `s` it began in (R29). -/
structure Kept (s e : State) : Prop where
  err : e.err = s.err
  waiting : e.waiting = s.waiting
  host : e.host = s.host
  mergeSym : e.mergeSym = s.mergeSym
  sink : s.sink.snk <+: e.sink.snk
  source : s.source.taken ≤ e.source.taken

theorem Kept.refl (s : State) : Kept s s := ⟨rfl, rfl, rfl, rfl, List.prefix_rfl, le_refl _⟩

/-- Where a piece of pseudocode has come to. -/
def Flow.at? {σ α : Type} : Flow σ α → Option σ
  | .done _ s => some s
  | .raise _ s => some s
  | .wait _ s => some s
  | .broken => none

theorem Flow.at?_bind {σ α β : Type} {m : Flow σ α} {f : α → σ → Flow σ β} {t : σ} (e : (m.bind f).at? = some t) :
    ∃ s, m.at? = some s ∧ (s = t ∨ ∃ a, m = .done a s ∧ (f a s).at? = some t) := by
  cases m with
  | done a s => exact ⟨s, rfl, .inr ⟨a, rfl, e⟩⟩
  | raise x s => exact ⟨s, rfl, .inl (Option.some.inj e)⟩
  | wait p s => exact ⟨s, rfl, .inl (Option.some.inj e)⟩
  | broken => cases e

theorem Flow.at?_mapState {σ τ α : Type} {f : σ → τ} {m : Flow σ α} {t : τ} (e : (m.mapState f).at? = some t) :
    ∃ s, m.at? = some s ∧ f s = t := by
  cases m with
  | done a s => exact ⟨s, rfl, Option.some.inj e⟩
  | raise x s => exact ⟨s, rfl, Option.some.inj e⟩
  | wait p s => exact ⟨s, rfl, Option.some.inj e⟩
  | broken => cases e

theorem sinkBit_grows {b : Bool} {k k' : Sink} (e : (sinkBit b k).at? = some k') : k.snk <+: k'.snk := by
  rcases sinkBit_cases b k with ⟨-, h⟩ | ⟨-, h⟩ | ⟨-, h⟩ <;> rw [h] at e <;> cases e <;> simp

theorem sinkBits_grows {bs : List Bool} {k k' : Sink} (e : (sinkBits bs k).at? = some k') : k.snk <+: k'.snk := by
  induction bs generalizing k with
  | nil => cases e; exact List.prefix_rfl
  | cons b bs ih =>
    obtain ⟨s, h, rfl | ⟨a, h', h2⟩⟩ := Flow.at?_bind e
    · exact sinkBit_grows h
    · exact (sinkBit_grows h).trans (ih h2)

theorem serNode_grows {n : Arena} {fuel : Nat} {h : Option Handle} {k k' : Sink}
    (e : (serNode n fuel h k).at? = some k') : k.snk <+: k'.snk := by
  induction fuel generalizing h k k' with
  | zero => cases e
  | succ fuel ih =>
    rw [serNode] at e
    split at e
    · cases e
    · split at e
      · obtain ⟨s, h1, rfl | ⟨a, -, h2⟩⟩ := Flow.at?_bind e
        · exact sinkBit_grows h1
        · exact (sinkBit_grows h1).trans (sinkBits_grows h2)
      · obtain ⟨s, h1, rfl | ⟨a, -, h2⟩⟩ := Flow.at?_bind e
        · exact sinkBit_grows h1
        · obtain ⟨u, h3, rfl | ⟨a, -, h4⟩⟩ := Flow.at?_bind h2
          · exact (sinkBit_grows h1).trans (ih h3)
          · exact (sinkBit_grows h1).trans ((ih h3).trans (ih h4))

theorem srcBit_grows {k k' : Source} (e : (srcBit k).at? = some k') : k.taken ≤ k'.taken := by
  rcases srcBit_cases k with ⟨b, -, h⟩ | ⟨b, -, h⟩ | ⟨x, b, -, h⟩ | ⟨-, h⟩ <;> rw [h] at e <;> cases e <;> simp

theorem srcSymBits_grows {n : Nat} {v : Sym} {k k' : Source} (e : (srcSymBits n v k).at? = some k') :
    k.taken ≤ k'.taken := by
  induction n generalizing v k with
  | zero => cases e; exact le_refl _
  | succ n ih =>
    obtain ⟨s, h, rfl | ⟨a, -, h2⟩⟩ := Flow.at?_bind e
    · exact srcBit_grows h
    · exact (srcBit_grows h).trans (ih h2)

theorem descend_grows {n : Arena} {fuel : Nat} {x : Node} {k k' : Source} (e : (descend n fuel x k).at? = some k') :
    k.taken ≤ k'.taken := by
  induction fuel generalizing x k with
  | zero => cases e
  | succ fuel ih =>
    obtain ⟨s, h, rfl | ⟨a, -, h2⟩⟩ := Flow.at?_bind e
    · exact srcBit_grows h
    · split at h2
      · cases h2
      · split at h2
        · cases h2; exact srcBit_grows h
        · exact (srcBit_grows h).trans (ih h2)

theorem readFlag_grows {p q : Tree × Source} (e : (readFlag p).at? = some q) : p.2.taken ≤ q.2.taken := by
  obtain ⟨k, h, rfl⟩ := Flow.at?_mapState e; exact srcBit_grows h

theorem readSym_grows {p q : Tree × Source} (e : (readSym p).at? = some q) : p.2.taken ≤ q.2.taken := by
  obtain ⟨k, h, rfl⟩ := Flow.at?_mapState e; exact srcSymBits_grows h

theorem desNode_grows {fuel : Nat} {p q : Tree × Source} (e : (desNode fuel p).at? = some q) :
    p.2.taken ≤ q.2.taken := by
  induction fuel generalizing p q with
  | zero => cases e; exact le_refl _
  | succ fuel ih =>
    rw [desNode] at e
    split at e
    · cases e; exact le_refl _
    · obtain ⟨s, h, h1⟩ := Flow.at?_bind e
      have g1 := readFlag_grows h
      rcases h1 with rfl | ⟨a, -, h2⟩
      · exact g1
      · split at h2
        · obtain ⟨u, h3, h4⟩ := Flow.at?_bind h2
          have g2 := g1.trans (readSym_grows h3)
          rcases h4 with rfl | ⟨b, -, h5⟩
          · exact g2
          · cases h5; exact g2
        · obtain ⟨u, h3, h4⟩ := Flow.at?_bind h2
          have g2 := g1.trans (ih h3)
          rcases h4 with rfl | ⟨b, -, h5⟩
          · exact g2
          · obtain ⟨v, h6, h7⟩ := Flow.at?_bind h5
            have g3 := g2.trans (ih h6)
            rcases h7 with rfl | ⟨b, -, h8⟩
            · exact g3
            · cases h8; exact g3

/-- Every command is its pseudocode in the one shape of R106. -/
theorem exec_eq (i : Instr) (s : State) : exec i s = runCommand (discardsTree i) (bodyOf i) s := by
  cases i <;> rfl

/-- What the pseudocode of any command leaves alone: ERR, the host's inputs and MERGE_SYM; and it takes nothing back
from a stream (R29, R24). -/
theorem bodyOf_kept {i : Instr} {s t : State} (e : (bodyOf i s).at? = some t) : Kept s t := by
  cases i with
  | setf y c => cases e; exact ⟨rfl, rfl, rfl, rfl, List.prefix_rfl, le_refl _⟩
  | clrf => cases e; exact ⟨rfl, rfl, rfl, rfl, List.prefix_rfl, le_refl _⟩
  | build =>
    obtain ⟨u, -, rfl⟩ := Flow.at?_mapState e
    exact ⟨rfl, rfl, rfl, rfl, List.prefix_rfl, le_refl _⟩
  | enc y =>
    simp only [bodyOf, encBody] at e
    split at e
    · cases e; exact Kept.refl s
    · cases e; exact Kept.refl s
    all_goals
      split at e
      · cases e; exact Kept.refl s
      · split at e
        · cases e
        · obtain ⟨k, h, rfl⟩ := Flow.at?_mapState e
          exact ⟨rfl, rfl, rfl, rfl, sinkBits_grows h, le_refl _⟩
  | dec =>
    simp only [bodyOf, decBody] at e
    split at e
    · cases e; exact Kept.refl s
    · cases e; exact Kept.refl s
    all_goals
      split at e
      · cases e
      · obtain ⟨u, h, h1⟩ := Flow.at?_bind e
        obtain ⟨k, h2, rfl⟩ := Flow.at?_mapState h
        rcases h1 with rfl | ⟨a, -, h3⟩
        · exact ⟨rfl, rfl, rfl, rfl, List.prefix_rfl, descend_grows h2⟩
        · cases h3; exact ⟨rfl, rfl, rfl, rfl, List.prefix_rfl, descend_grows h2⟩
  | ser =>
    simp only [bodyOf, serBody] at e
    split at e
    · cases e; exact Kept.refl s
    all_goals
      obtain ⟨k, h, rfl⟩ := Flow.at?_mapState e
      exact ⟨rfl, rfl, rfl, rfl, serNode_grows h, le_refl _⟩
  | des =>
    obtain ⟨p, h, rfl⟩ := Flow.at?_mapState e
    refine ⟨rfl, rfl, rfl, rfl, List.prefix_rfl, ?_⟩
    obtain ⟨q, h1, rfl | ⟨a, -, h2⟩⟩ := Flow.at?_bind h
    · exact desNode_grows h1
    · cases h2; exact desNode_grows h1

/-- All the ways a command can end in a next state, with what each leaves alone (R106 to R108, R64). -/
theorem exec_next {i : Instr} {s t : State} (e : exec i s = .next t) :
    (s.locked = true ∧ t = lockedAnswer s) ∨ (s.locked = false ∧
      ∃ u, Kept s u ∧ ((bodyOf i s = .done () u ∧ t = u.respond stOk) ∨
        (∃ x, bodyOf i s = .raise x u ∧ t = takeFault (discardsTree i) x u) ∨
        ∃ p, bodyOf i s = .wait p u ∧ t = u.hold p)) := by
  rw [exec_eq] at e
  rcases runCommand_next e with h | ⟨hl, ⟨u, hb, ht⟩ | ⟨x, u, hb, ht⟩ | ⟨p, u, hb, ht⟩⟩
  · exact .inl h
  · exact .inr ⟨hl, u, bodyOf_kept (i := i) (by rw [hb]; rfl), .inl ⟨hb, ht⟩⟩
  · exact .inr ⟨hl, u, bodyOf_kept (i := i) (by rw [hb]; rfl), .inr (.inl ⟨x, hb, ht⟩)⟩
  · exact .inr ⟨hl, u, bodyOf_kept (i := i) (by rw [hb]; rfl), .inr (.inr ⟨p, hb, ht⟩)⟩

/-- All the ways a step can give a next state (R9, R106, R114, R125). -/
theorem step_next {s t : State} (e : step s = .next t) :
    (∃ rest, s.host = .reset :: rest ∧ t = ({ s with host := rest } : State).resetBlock) ∨
    (s.host = [] ∧ s.waiting = none ∧ t = { s with rsp := none }) ∨
    (∃ w rest, s.host = .command w :: rest ∧ s.waiting = none ∧
      ((∃ i, decode w = .ok i ∧ exec i { s with host := rest } = .next t) ∨
        (∃ x, decode w = .error x ∧ t = illegalWord { s with host := rest }))) ∨
    (∃ w rest, s.host = .commandCutByReset w :: rest ∧ s.waiting = none ∧
      ((∃ i u, decode w = .ok i ∧ exec i { s with host := rest } = .next u ∧ t = u.resetBlock) ∨
        (∃ x, decode w = .error x ∧ t = ({ s with host := rest } : State).resetBlock))) := by
  obtain ⟨freq, tree, err, res, waiting, rsp, sink, source, host, ms⟩ := s
  rcases host with _ | ⟨(w | _ | w), rest⟩ <;> rcases waiting with _ | p <;> simp only [step, fetch] at e
  · cases e; exact .inr (.inl ⟨rfl, rfl, rfl⟩)
  · cases e
  · cases hd : decode w with
    | ok i => rw [hd] at e; exact .inr (.inr (.inl ⟨w, rest, rfl, rfl, .inl ⟨i, hd, e⟩⟩))
    | error x => rw [hd] at e; cases e; exact .inr (.inr (.inl ⟨w, rest, rfl, rfl, .inr ⟨x, hd, rfl⟩⟩))
  · cases e
  · cases e; exact .inl ⟨rest, rfl, rfl⟩
  · cases e; exact .inl ⟨rest, rfl, rfl⟩
  · cases hd : decode w with
    | ok i =>
      rw [hd] at e
      simp only [cutByReset] at e
      split at e
      · next u hu => cases e; exact .inr (.inr (.inr ⟨w, rest, rfl, rfl, .inl ⟨i, u, hd, hu, rfl⟩⟩))
      · cases e
      · cases e
    | error x => rw [hd] at e; cases e; exact .inr (.inr (.inr ⟨w, rest, rfl, rfl, .inr ⟨x, hd, rfl⟩⟩))
  · cases e

end Sys2Proof.Machine
end

