-- ==== Sys2Proof/Tests/Slice0.lean ====
section
/-! SUPPORT. Tests: what makes a word or an operand ill-formed, words written out from the spec, single steps whose
expected results are vectors of 95_test_vectors.md, and for each obligation with hypotheses a state and operands that
meet them. -/

namespace Sys2Proof.Tests

open Sys2Proof.Machine

/-! ## Helpers -/

/-- The outcome is a next state of which `p` is true. -/
def givesNext (o : Host.Outcome State Fault Refusal) (p : State → Bool) : Bool :=
  match o with
  | .next t => p t
  | .fault _ => false
  | .refused _ => false

/-- A bit string as the vectors write it. -/
def bits (s : String) : List Bool := s.toList.map (fun c => c == '1')

/-- A node as the vectors write it: sym, freq, c0, c1, parent. -/
def slot (y : Sym) (f : NodeFreq) (a b p : Option Handle) : Node := { sym := y, freq := f, c0 := a, c1 := b, parent := p }

/-- A block right after reset but for its table. -/
def withTable (f : FreqTable) : State := { State.reset with freq := f }

/-- A block right after reset but for its tree. -/
def withTree (t : Tree) : State := { State.reset with tree := t }

/-- A block whose source holds a bit string and then is at its end. -/
def reading (bs : List Bool) (s : State) : State := { s with source := Source.giving bs s.source }

/-- A block with one input of the host before it. -/
def facing (h : HostInput) (s : State) : State := { s with host := [h] }

/-- The table of V-B3. -/
def tableB3 : FreqTable := [(10, 1), (97, 2), (98, 1)]

/-- The tree of V-B3 under `C0`. -/
def treeB3 : Tree where
  node := [slot 10 1 none none (some 3), slot 97 2 none none (some 4), slot 98 1 none none (some 3),
    slot 10 2 (some 0) (some 2) (some 4), slot 10 4 (some 3) (some 1) none]
  root := some 4
  leaf := [(10, 0), (97, 1), (98, 2)]
  kind := .full

/-- The tree of V-B3 as a value. -/
def codeB3 : CodeTree := .node (.node (.leaf 10) (.leaf 98)) (.leaf 97)

/-- The slots of the tree of V-B3. -/
def slotsB3 : SlotTree := .node 4 (.node 3 (.leaf 0) (.leaf 2)) (.leaf 1)

/-- The tree DES makes of the header of V-S2: that of V-B3 as a value, in other slots. -/
def treeB3Read : Tree where
  node := [slot 10 0 (some 1) (some 4) none, slot 10 0 (some 2) (some 3) (some 0), slot 10 0 none none (some 1),
    slot 98 0 none none (some 1), slot 97 0 none none (some 0)]
  root := some 0
  leaf := [(10, 2), (97, 4), (98, 3)]
  kind := .full

/-- The slots of that tree. -/
def slotsB3Read : SlotTree := .node 0 (.node 1 (.leaf 2) (.leaf 3)) (.leaf 4)

/-- The tree of V-R3. -/
def treeR3 : Tree := { node := [slot 65 0 none none none], root := some 0, leaf := [(65, 0)], kind := .leafroot }

/-- The header of V-S2 under `C0`. -/
def headerB3 : List Bool := bits "00100001010101100010101100001"

/-- The right comb of V-R7 with `n + 1` leaves: `2n + 1` nodes. -/
def comb : Nat → CodeTree
  | 0 => .leaf 255
  | n + 1 => .node (.leaf (BitVec.ofNat 8 n)) (comb n)

/-- The table of V-B11. -/
def tableAll : FreqTable := allSyms.map (fun y => (y, 1))

/-! ## Well-formed fields and operands -/

theorem test_fields_of_a_command : (fieldsOf 0x106100000005).legal = true := by decide
theorem test_reserved_op_zero : (fieldsOf 0x000000000000).opKnown = false := by decide
theorem test_reserved_op_eight : (fieldsOf 0x800000000000).opKnown = false := by decide
theorem test_reserved_op_fifteen : (fieldsOf 0xF0FFFFFFFFFF).opKnown = false := by decide
theorem test_mbz_set : (fieldsOf 0x510000000000).mbzClear = false := by decide
theorem test_sym_set : (fieldsOf 0x60FF00000000).symClear = false := by decide
theorem test_data_set : (fieldsOf 0x700080000000).dataClear = false := by decide
theorem test_ill_formed_fields_are_illegal :
    [0x000000000000, 0x800000000000, 0xF0FFFFFFFFFF, 0x510000000000, 0x60FF00000000, 0x700080000000].all
      (fun w => (fieldsOf w).legal == false) = true := by decide
theorem test_setf_sym_out_of_range : (AsmCommand.setf 256 0).wellFormed = false := by decide
theorem test_setf_count_out_of_range : (AsmCommand.setf 0 4294967296).wellFormed = false := by decide
theorem test_enc_sym_out_of_range : (AsmCommand.enc 256).wellFormed = false := by decide
theorem test_operands_at_the_edge :
    (AsmCommand.setf 255 4294967295).wellFormed = true ∧ (AsmCommand.enc 255).wellFormed = true := by decide

/-! ## Words, bit by bit from R50 and R53: op, mbz, sym, data -/

theorem test_decode_setf :
    decode (0b0001#4 ++ 0b0000#4 ++ 0b01100001#8 ++ 0b00000000000000000000000000000101#32) = .ok (.setf 97 5) := by decide
theorem test_decode_clrf :
    decode (0b0010#4 ++ 0b0000#4 ++ 0b00000000#8 ++ 0b00000000000000000000000000000000#32) = .ok .clrf := by decide
theorem test_decode_build :
    decode (0b0011#4 ++ 0b0000#4 ++ 0b00000000#8 ++ 0b00000000000000000000000000000000#32) = .ok .build := by decide
theorem test_decode_enc :
    decode (0b0100#4 ++ 0b0000#4 ++ 0b11111111#8 ++ 0b00000000000000000000000000000000#32) = .ok (.enc 255) := by decide
theorem test_decode_dec :
    decode (0b0101#4 ++ 0b0000#4 ++ 0b00000000#8 ++ 0b00000000000000000000000000000000#32) = .ok .dec := by decide
theorem test_decode_ser :
    decode (0b0110#4 ++ 0b0000#4 ++ 0b00000000#8 ++ 0b00000000000000000000000000000000#32) = .ok .ser := by decide
theorem test_decode_des :
    decode (0b0111#4 ++ 0b0000#4 ++ 0b00000000#8 ++ 0b00000000000000000000000000000000#32) = .ok .des := by decide
/-- V-X2. -/
theorem test_illegal_words :
    [0x000000000000, 0x800000000000, 0x900000000000, 0xF0FFFFFFFFFF, 0x116100000005, 0x200000000001, 0x300100000000,
      0x406100000001, 0x510000000000, 0x60FF00000000, 0x700080000000].all
      (fun w => givesNext (step (facing (.command w) State.reset))
        (fun t => decide (t.rsp = some 0x7000 ∧ t.err = some .illegal ∧ t.tree = Tree.reset))) = true := by
  decide +kernel
/-- R59's example: `SETF 'a', 5` is `SETF 97, 5` is the word 0x1061_00000005. -/
theorem test_assemble :
    assembleLine "SETF 'a', 5".toList = some (some 0x106100000005) ∧
    assembleLine "SETF 97, 5 ; count of a".toList = some (some 0x106100000005) ∧
    assembleLine "ENC 0x62".toList = some (some 0x406200000000) ∧ assembleLine "; nothing".toList = some none ∧
    assembleLine "ENC 256".toList = none := by decide +kernel
theorem test_table_word : decodeTableWord 48 0x406200000000 = some (.enc 98) ∧ decodeTableWord 48 0 = none := by decide
theorem test_fetch_word :
    givesNext (step (State.reset.withFetchWord 48 0x106100000005)) (fun t => decide (freqAt t.freq 97 = 5)) = true := by
  decide +kernel

/-! ## Single commands -/

/-- V-T1. -/
theorem test_setf : givesNext (exec (.setf 97 5) State.reset)
    (fun t => decide (t.rsp = some 0x0000 ∧ freqAt t.freq 97 = 5 ∧ freqAt t.freq 98 = 0)) = true := by decide +kernel
/-- V-T2: the later write replaces the earlier, and an entry of 0 is not listed. -/
theorem test_setf_zero : givesNext (exec (.setf 5 0) (withTable [(5, 7)])) (fun t => decide (t.freq = [])) = true := by
  decide +kernel
/-- V-T4: the tree stays. -/
theorem test_clrf : givesNext (exec .clrf { withTree treeB3 with freq := tableB3 })
    (fun t => decide (t.rsp = some 0x0400 ∧ freqAt t.freq 97 = 0 ∧ t.tree = treeB3)) = true := by decide +kernel
/-- V-B3 under `C0`. -/
theorem test_build_c0 : givesNext (exec .build (withTable tableB3))
    (fun t => decide (t.rsp = some 0x0400 ∧ t.tree = treeB3)) = true := by decide +kernel
/-- V-B7 under `C1`: the codes 00, 11, 01, 10 of the symbols 1, 2, 3, 4. -/
theorem test_build_c1 :
    givesNext (exec .build { withTable [(1, 1), (2, 2), (3, 1), (4, 1)] with mergeSym := .c1 })
    (fun t => decide (t.tree.code = some (.node (.node (.leaf 1) (.leaf 3)) (.node (.leaf 4) (.leaf 2))))) = true := by
  decide +kernel
/-- V-E1: root first (E10). -/
theorem test_enc : givesNext (exec (.enc 98) (withTree treeB3))
    (fun t => decide (t.rsp = some 0x0400 ∧ t.sink.snk = bits "01")) = true := by decide +kernel
/-- V-E8: the second transfer fails. -/
theorem test_enc_io :
    givesNext (exec (.enc 10) { withTree treeB3 with sink := { snk := [], script := [.ready false], after := .ready true } })
    (fun t => decide (t.rsp = some 0x3400 ∧ t.err = some .io ∧ t.sink.snk = bits "0")) = true := by decide +kernel
/-- V-D1. -/
theorem test_dec : givesNext (exec .dec (reading (bits "001101") (withTree treeB3)))
    (fun t => decide (t.rsp = some 0x040A ∧ t.source.taken = 2 ∧ t.source.bits = bits "1101")) = true := by decide +kernel
/-- V-D5: the source ends inside a code and RES stays. -/
theorem test_dec_corrupt : givesNext (exec .dec (reading (bits "0") { withTree treeB3 with res := 97 }))
    (fun t => decide (t.rsp = some 0x2461 ∧ t.err = some .corrupt ∧ t.source.taken = 1)) = true := by decide +kernel
/-- V-S2 under `C0`. -/
theorem test_ser : givesNext (exec .ser (withTree treeB3))
    (fun t => decide (t.rsp = some 0x0400 ∧ t.sink.snk = headerB3)) = true := by decide +kernel
/-- V-S6: the leaf is written twice. -/
theorem test_ser_singleton : givesNext (exec .ser (withTree (Tree.degenerate 97 5)))
    (fun t => decide (t.rsp = some 0x0800 ∧ t.sink.snk = bits "0101100001101100001")) = true := by decide +kernel
/-- V-R4: a repeated symbol. -/
theorem test_des_repeat : givesNext (exec .des (reading (bits "00101000001101000010101000001") State.reset))
    (fun t => decide (t.rsp = some 0x0400 ∧ t.tree.leaf = [(65, 4), (66, 3)] ∧ t.tree.node =
      [slot 65 0 (some 1) (some 4) none, slot 65 0 (some 2) (some 3) (some 0), slot 65 0 none none (some 1),
        slot 66 0 none none (some 1), slot 65 0 none none (some 0)])) = true := by decide +kernel
/-- V-R7: 600 zeros; 511 are read. -/
theorem test_des_capacity : givesNext (exec .des (reading (List.replicate 600 false) State.reset))
    (fun t => decide (t.rsp = some 0x6000 ∧ t.source.taken = 511)) = true := by decide +kernel
/-- V-F2: the lock keeps the first code. -/
theorem test_locked :
    givesNext (step (facing (.command 0) { withTree treeB3 with err := some .domain }))
    (fun t => decide (t.rsp = some 0x8400 ∧ t.err = some .domain)) = true := by decide +kernel

/-! ## States that meet the invariant -/

theorem inv_of_tree {t : Tree} (h : t.Inv) : (withTree t).Inv := ⟨rfl, fun _ => h⟩

theorem treeB3_holds : treeB3.holds slotsB3 := by
  refine ⟨?_, by decide, by decide, by decide, rfl, by decide +kernel⟩
  exact ⟨⟨_, rfl, rfl, rfl, rfl, .inl rfl⟩,
    ⟨⟨_, rfl, rfl, rfl, rfl, .inl rfl⟩, ⟨_, rfl, rfl, rfl, rfl⟩, ⟨_, rfl, rfl, rfl, rfl⟩⟩, ⟨_, rfl, rfl, rfl, rfl⟩⟩

theorem treeB3Read_holds : treeB3Read.holds slotsB3Read := by
  refine ⟨?_, by decide, by decide, by decide, rfl, by decide +kernel⟩
  exact ⟨⟨_, rfl, rfl, rfl, rfl, .inl rfl⟩,
    ⟨⟨_, rfl, rfl, rfl, rfl, .inl rfl⟩, ⟨_, rfl, rfl, rfl, rfl⟩, ⟨_, rfl, rfl, rfl, rfl⟩⟩, ⟨_, rfl, rfl, rfl, rfl⟩⟩

theorem test_inv_full : (withTree treeB3).Inv := inv_of_tree ⟨slotsB3, rfl, treeB3_holds, by decide⟩

theorem test_inv_singleton : (withTree (Tree.degenerate 97 5)).Inv := inv_of_tree ⟨97, 5, by decide, rfl⟩

theorem test_inv_leafroot : (withTree treeR3).Inv :=
  inv_of_tree ⟨.leaf 0, rfl, ⟨⟨_, rfl, rfl, rfl, rfl⟩, by decide, by decide, by decide, rfl, by decide +kernel⟩, by decide⟩

theorem test_inv_none : State.reset.Inv := ⟨rfl, fun _ => rfl⟩

/-- A block that holds a FREQ table and no tree, and one whose command a stream holds. -/
theorem test_inv_table : (withTable tableB3).Inv := ⟨by decide, fun _ => rfl⟩

theorem test_inv_held : ({ State.reset with waiting := some .source } : State).Inv := ⟨rfl, nofun⟩

/-! ## Hypotheses that are met -/

theorem witness_DecodedWordIsItsEncoding : decode 0x40FF00000000 = .ok (.enc 255) := by decide

/-- One word for each reason a word is illegal, at the edges of the opcodes. -/
theorem witness_IllegalWordsFault :
    [0x000000000000, 0x800000000000, 0xF00000000000, 0x1F0000000000, 0x200100000000, 0x400000000001].all
      (fun w => decide ((facing (.command w) State.reset).host = .command w :: [] ∧ State.reset.waiting = none ∧
        State.reset.err = none ∧ (fieldsOf w).legal = false)) = true := by decide +kernel

theorem witness_StepRunsTheDecodedCommand :
    (facing (.command 0x300000000000) State.reset).host = .command 0x300000000000 :: [] ∧
    State.reset.waiting = none ∧ decode 0x300000000000 = .ok .build := by decide

theorem witness_WrittenOperandsInRange :
    ((0 : Nat) ≤ 255 ∧ (0 : Nat) ≤ 4294967295) ∧ ((255 : Nat) ≤ 255 ∧ (4294967295 : Nat) ≤ 4294967295) ∧
    (255 < (256 : Nat)) ∧ 4294967295 < (4294967296 : Nat) := by decide

/-- A locked block given a legal word, and one that is idle. -/
theorem witness_LockedBlockDoesNothing :
    let s : State := { State.reset with err := some .domain }
    s.err = some .domain ∧ (facing (.command 0x200000000000) s).host = .command 0x200000000000 :: [] ∧ s.waiting = none ∧
    (∀ rest, s.host ≠ .reset :: rest) ∧ (∀ w rest, s.host ≠ .commandCutByReset w :: rest) ∧
    step s = .next { s with rsp := none } := ⟨rfl, rfl, rfl, nofun, nofun, rfl⟩

/-- A command that ends, in a state that faults and in one that does not, and an illegal word. -/
theorem witness_EveryWordIsAnswered :
    [0x200000000000, 0x500000000000, 0].all
      (fun w => givesNext (step (facing (.command w) State.reset)) (fun t => decide (t.waiting = none))) = true := by
  decide +kernel

/-- Pseudocode that comes to its end, pseudocode that raises, and the states each leaves. -/
theorem witness_StatusIsTheFaultMet :
    (State.reset.err = none ∧ State.reset.waiting = none) ∧
    (∃ u, bodyOf .clrf State.reset = .done () u) ∧ (∃ u, bodyOf .dec State.reset = .raise .notree u) ∧
    givesNext (exec .clrf State.reset) (fun t => decide (t.waiting = none ∧ t.err = none)) = true ∧
    givesNext (exec .dec State.reset) (fun t => decide (t.waiting = none ∧ t.err = some .notree)) = true ∧
    givesNext (exec .dec (reading [true] (withTree treeB3)))
      (fun t => decide (t.waiting = none ∧ t.err = none ∧ t.source.taken = 1)) = true :=
  ⟨⟨rfl, rfl⟩, ⟨_, rfl⟩, ⟨_, rfl⟩, by decide +kernel⟩

/-- A SER whose sink never answers and a DES whose source never does; then the held block, with no input of the host and
with reset. -/
theorem witness_HeldCommandHangs :
    givesNext (exec .ser { withTree treeB3 with sink := { snk := [], script := [], after := .never } })
      (fun t => decide (t.waiting = some .sink)) = true ∧
    givesNext (exec .des { State.reset with source := { taken := 0, script := [], after := .never } })
      (fun t => decide (t.waiting = some .source)) = true ∧
    (let s : State := { State.reset with waiting := some .source }
     (s.waiting = some .source ∧ ∀ rest, s.host ≠ .reset :: rest) ∧
      (facing .reset s).waiting = some .source ∧ (facing .reset s).host = .reset :: []) :=
  ⟨by decide +kernel, by decide +kernel, ⟨rfl, nofun⟩, rfl, rfl⟩

theorem witness_ResetInputResetsTheBlock : (facing .reset (withTree treeB3)).host = .reset :: [] := rfl

/-- A SER cut by reset, and a word that is no command cut by reset. -/
theorem witness_ResetAbandonsACommand :
    (let s := facing (.commandCutByReset 0) (withTree treeB3)
     s.host = .commandCutByReset 0 :: [] ∧ s.waiting = none ∧ decode 0 = .error (.reservedOp 0)) ∧
    let s := facing (.commandCutByReset 0x600000000000) (withTree treeB3)
    s.host = .commandCutByReset 0x600000000000 :: [] ∧ s.waiting = none ∧ decode 0x600000000000 = .ok .ser ∧
    givesNext (exec .ser { s with host := [] }) (fun u => decide (u.sink.snk = headerB3)) = true := by decide +kernel

theorem witness_ResetStateValues : ∃ s : State, (withTree treeB3).resetBlock = s.resetBlock := ⟨_, rfl⟩

theorem witness_IdleBlockHoldsItsState : State.reset.host = [] ∧ State.reset.waiting = none := ⟨rfl, rfl⟩

theorem witness_StreamsOnlyGrow :
    givesNext (step (facing (.command 0x600000000000) (withTree treeB3))) (fun t => decide (t.sink.snk = headerB3)) =
      true := by decide +kernel

/-- BUILD in a state that meets the invariant. -/
theorem witness_StepKeepsTheInvariant :
    (facing (.command 0x300000000000) (withTable tableB3)).Inv ∧
    givesNext (step (facing (.command 0x300000000000) (withTable tableB3))) (fun t => decide (t.tree = treeB3)) = true :=
  ⟨⟨by decide, fun _ => rfl⟩, by decide +kernel⟩

theorem witness_NoBrokenArena : (withTree treeB3).Inv ∧ (withTree treeB3).waiting = none := ⟨test_inv_full, rfl⟩

theorem witness_an_unlocked_block : State.reset.err = none := rfl

theorem witness_SetfWritesOneEntry : State.reset.err = none ∧ (96 : Sym) ≠ 97 := by decide

theorem witness_SetfAndClrfFrame :
    givesNext (exec (.setf 255 4294967295) State.reset) (fun t => decide (freqAt t.freq 0 = 0)) = true ∧
    givesNext (exec .clrf State.reset) (fun _ => true) = true := by decide +kernel

theorem witness_BuildOfNothingFaults : State.reset.err = none ∧ ∀ y, freqAt State.reset.freq y = 0 := ⟨rfl, fun _ => rfl⟩

theorem witness_BuildOfOneSymbol :
    (withTable [(97, 5)]).err = none ∧ freqAt [(97, 5)] 97 ≠ 0 ∧ ∀ z, z ≠ 97 → freqAt [(97, 5)] z = 0 :=
  ⟨rfl, by decide, by decide +kernel⟩

/-- Two symbols present, and all 256: the least and the greatest number. The same for BuildMakesTheMergeTree and
BuildFrequenciesAreExactSums. -/
theorem witness_BuildOfManySymbols :
    (withTable [(65, 2), (66, 2)]).err = none ∧ (presentSyms [(65, 2), (66, 2)]).length = 2 ∧
    (withTable tableAll).err = none ∧ (presentSyms tableAll).length = 256 :=
  ⟨rfl, by decide +kernel, rfl, by decide +kernel⟩

theorem witness_BuildDependsOnTheTableOnly :
    let s := withTable tableB3
    let u := { withTree treeR3 with freq := tableB3, res := 9 }
    s.err = none ∧ u.err = none ∧ s.mergeSym = u.mergeSym ∧ ∀ y, freqAt s.freq y = freqAt u.freq y :=
  ⟨rfl, rfl, rfl, fun _ => rfl⟩

theorem witness_EncWritesThePath :
    (withTree treeB3).Inv ∧ (withTree treeB3).waiting = none ∧ (withTree treeB3).err = none ∧
    treeB3.kind = .full ∧ treeB3.code = some codeB3 ∧ codeB3.lastPath 98 = some [false, true] ∧
    Sink.initial.accepts 2 = true := ⟨test_inv_full, rfl, rfl, rfl, rfl, by decide, by decide⟩

theorem witness_EncOfTheSingleton :
    (withTree (Tree.degenerate 97 5)).err = none ∧ (withTree (Tree.degenerate 97 5)).tree = Tree.degenerate 97 5 ∧
    (withTree (Tree.degenerate 97 5)).sink.accepts 1 = true := ⟨rfl, rfl, rfl⟩

/-- For ENC, DEC and SER: no tree, and the tree that is one leaf. -/
theorem witness_unusable_trees :
    State.reset.err = none ∧ State.reset.tree.kind = .none ∧ (withTree treeR3).err = none ∧
    (withTree treeR3).tree.kind = .leafroot := ⟨rfl, rfl, rfl, rfl⟩

theorem witness_EncOfAbsentSymbol :
    (withTree treeB3).err = none ∧ treeB3.kind = .full ∧ leafAt treeB3.leaf 67 = none ∧
    (Tree.degenerate 97 5).kind = .singleton ∧ leafAt (Tree.degenerate 97 5).leaf 96 = none := by decide

/-- The last of two transfers fails, the first never happens. -/
theorem witness_EncStopsAtABadTransfer :
    codeB3.lastPath 98 = some [false, true] ∧
    (let k : Sink := { snk := [], script := [.ready false], after := .ready true }
     1 < 2 ∧ k.accepts 1 = true ∧ k.beat 1 = .ready true) ∧
    (let k : Sink := { snk := [], script := [], after := .never }
     0 < 2 ∧ k.accepts 0 = true ∧ k.beat 0 = .never) ∧
    (let s := withTree (Tree.degenerate 97 5)
     s.waiting = none ∧ s.err = none ∧ s.tree = Tree.degenerate 97 5) ∧
    ({ snk := [], script := [], after := .ready true } : Sink).beat 0 = .ready true := by decide

theorem witness_CodeLengthsAreBounded :
    ((withTree treeB3).Inv ∧ leafAt treeB3.leaf 97 = some 1) ∧
    ((withTree (Tree.degenerate 97 5)).Inv ∧ leafAt (Tree.degenerate 97 5).leaf 97 = some 0) :=
  ⟨⟨test_inv_full, rfl⟩, ⟨test_inv_singleton, rfl⟩⟩

theorem witness_CodesArePrefixFree :
    (withTree treeB3).Inv ∧ (97 : Sym) ≠ 98 ∧ leafAt treeB3.leaf 97 = some 1 ∧ leafAt treeB3.leaf 98 = some 2 ∧
    codeOf treeB3.node 1 = some [true] ∧ codeOf treeB3.node 2 = some [false, true] :=
  ⟨test_inv_full, by decide, rfl, rfl, rfl, rfl⟩

/-- ENC that ends OK and SER that faults. -/
theorem witness_EncAndSerFrame :
    givesNext (exec (.enc 97) (withTree treeB3)) (fun t => decide (t.err = none)) = true ∧
    givesNext (exec .ser State.reset) (fun t => decide (t.err = some .notree)) = true := by decide +kernel

theorem witness_DecReturnsTheLeafsSymbol :
    (withTree treeB3).err = none ∧ treeB3.kind = .full ∧ treeB3.code = some codeB3 ∧ [true] ≠ [] ∧
    codeB3.follow [true] = some (.leaf 97) ∧ (Source.giving [true] Source.initial).gives [true] = true :=
  ⟨rfl, rfl, rfl, by decide, rfl, by decide⟩

theorem witness_DecOfTheSingleton : ∀ b, (Source.giving [b] Source.initial).gives [b] = true := by decide

/-- At the root before any bit, and at the internal node below it: the source at its end, failing (and both at once), and
silent. -/
theorem witness_DecStopsAtABadTransfer :
    codeB3.follow [] = some codeB3 ∧ codeB3.isInner = true ∧
    codeB3.follow [false] = some (.node (.leaf 10) (.leaf 98)) ∧
    (Source.giving [false] Source.initial).gives [false] = true ∧
    (Source.giving [false] Source.initial).beat 1 = .valid false true false ∧
    ({ taken := 0, script := [], after := .valid true true false } : Source).beat 0 = .valid true true false ∧
    ({ taken := 0, script := [], after := .never } : Source).beat 0 = .never := by decide

theorem witness_DecFrame :
    givesNext (exec .dec (reading [true] (withTree treeB3))) (fun t => decide (t.err = none)) = true ∧
    givesNext (exec .dec (withTree treeB3)) (fun t => decide (t.err ≠ none)) = true := by decide +kernel

/-- The full tree, and the tree that is one leaf. -/
theorem witness_SerWritesTheHeader :
    (treeB3.kind ≠ .none ∧ treeB3.code = some codeB3 ∧ Sink.initial.accepts codeB3.header.length = true) ∧
    (treeR3.kind ≠ .none ∧ treeR3.code = some (.leaf 65) ∧ Sink.initial.accepts 9 = true) :=
  ⟨⟨by decide, rfl, by decide⟩, ⟨by decide, rfl, by decide⟩⟩

theorem witness_SerOfTheSingleton : Sink.initial.accepts 19 = true := by decide

/-- The first transfer fails; the last of the 29 never happens. -/
theorem witness_SerStopsAtABadTransfer :
    (let k : Sink := { snk := [], script := [], after := .ready true }
     0 < codeB3.header.length ∧ k.accepts 0 = true ∧ k.beat 0 = .ready true) ∧
    (let k : Sink := { snk := [], script := List.replicate 28 (.ready false), after := .never }
     28 < codeB3.header.length ∧ k.accepts 28 = true ∧ k.beat 28 = .never) := by decide

/-- The least header and the greatest that fits. -/
theorem witness_DesReadsAHeader :
    ((CodeTree.leaf 65).size = 1 ∧
      (Source.giving (CodeTree.leaf 65).header Source.initial).gives (CodeTree.leaf 65).header = true) ∧
    ((comb 255).size = 511 ∧ (Source.giving (comb 255).header Source.initial).gives (comb 255).header = true) :=
  ⟨by decide, by decide +kernel⟩

theorem witness_DesOfTheSingletonHeader :
    (reading (bits "0101100001101100001") State.reset).source.gives (false :: true :: symBits 97 ++ true :: symBits 97) =
      true ∧
    givesNext (exec .des (reading (bits "0101100001101100001" ++ [true]) State.reset))
      (fun t => decide (t.err = none ∧ t.source.gives [true] = true ∧ t.sink.accepts 1 = true)) = true := by
  decide +kernel

theorem witness_DesOfOneLeaf :
    (reading (bits "101000001") State.reset).source.gives (true :: symBits 65) = true ∧
    givesNext (exec .des (reading (bits "101000001") State.reset)) (fun t => t.sink.accepts 9) = true ∧
    givesNext (exec .build (withTable [(97, 5)])) (fun _ => true) = true := by decide +kernel

/-- The least tree that does not fit: 513 nodes. -/
theorem witness_DesOverCapacityFaults :
    (comb 256).size = 513 ∧
    (Source.giving ((comb 256).firstNodes 511).1 Source.initial).gives ((comb 256).firstNodes 511).1 = true := by
  decide +kernel

/-- The source at its end before the first bit, and one bit short of the whole header. -/
theorem witness_DesSourceEndsInHeader :
    ([] <+: (codeB3.firstNodes 511).1 ∧ Source.initial.beat 0 = .valid false true false) ∧
    (headerB3.take 28 <+: (codeB3.firstNodes 511).1 ∧ (headerB3.take 28).length < (codeB3.firstNodes 511).1.length ∧
      (Source.giving (headerB3.take 28) Source.initial).gives (headerB3.take 28) = true ∧
      (Source.giving (headerB3.take 28) Source.initial).beat 28 = .valid false true false) :=
  ⟨⟨List.nil_prefix, rfl⟩, by decide +kernel⟩

/-- V-R8: a source at its end and failing before the first bit; a source silent after three. -/
theorem witness_DesStopsAtABadTransfer :
    ([] <+: (codeB3.firstNodes 511).1 ∧
      ({ taken := 0, script := [], after := .valid true true false } : Source).beat 0 = .valid true true false) ∧
    (headerB3.take 3 <+: (codeB3.firstNodes 511).1 ∧
      (let k : Source := Source.giving (headerB3.take 3) { taken := 0, script := [], after := .never }
       k.gives (headerB3.take 3) = true ∧ k.beat 3 = .never)) :=
  ⟨⟨List.nil_prefix, rfl⟩, by decide +kernel⟩

/-- CORRUPT, IO and CAPACITY. -/
theorem witness_DesFaultLeavesNoTree :
    givesNext (exec .des (withTree treeB3)) (fun t => decide (t.err = some .corrupt)) = true ∧
    givesNext (exec .des { State.reset with source := { taken := 0, script := [], after := .valid true true true } })
      (fun t => decide (t.err = some .io)) = true ∧
    givesNext (exec .des (reading (List.replicate 512 false) State.reset)) (fun t => decide (t.err = some .capacity)) =
      true := by decide +kernel

/-- A FULL and a SINGLETON tree. -/
theorem witness_SerThenDesDecodesAlike :
    ((withTree treeB3).Inv ∧ treeB3.code = some codeB3 ∧ Sink.initial.accepts codeB3.header.length = true ∧
      (Source.giving codeB3.header Source.initial).gives codeB3.header = true) ∧
    ((withTree (Tree.degenerate 97 5)).Inv ∧ (Tree.degenerate 97 5).code = some (.node (.leaf 97) (.leaf 97))) :=
  ⟨⟨test_inv_full, rfl, by decide, by decide⟩, ⟨test_inv_singleton, rfl⟩⟩

theorem witness_EncThenDecGivesTheSymbol :
    (withTree treeB3).Inv ∧ leafAt treeB3.leaf 98 = some 2 ∧ Sink.initial.accepts 2 = true ∧
    (Source.giving [false, true] Source.initial).gives [false, true] = true :=
  ⟨test_inv_full, rfl, by decide, by decide⟩

/-- Two trees of one shape whose handles and frequencies differ: one BUILD made, one DES made of its header. For ENC: a
symbol at the end of a path of one bit, one of two bits, and a symbol with no leaf. -/
theorem witness_OnlyShapeIsObserved :
    (withTree treeB3).tree.Inv ∧ (withTree treeB3Read).tree.Inv ∧
    withTree treeB3Read = { withTree treeB3 with tree := (withTree treeB3Read).tree } ∧
    treeB3Read.kind = treeB3.kind ∧
    (leafAt treeB3.leaf 97 = some 1 ∧ leafAt treeB3Read.leaf 97 = some 4 ∧ treeB3.leadsTo [true] 1 ∧
      treeB3Read.leadsTo [true] 4) ∧
    (leafAt treeB3.leaf 98 = some 2 ∧ leafAt treeB3Read.leaf 98 = some 3 ∧ treeB3.leadsTo [false, true] 2 ∧
      treeB3Read.leadsTo [false, true] 3) ∧
    (leafAt treeB3.leaf 67 = none ∧ leafAt treeB3Read.leaf 67 = none) ∧
    treeB3.code = some codeB3 ∧ codeB3.isInner = true ∧
    givesNext (exec .des (reading headerB3 State.reset))
      (fun t => decide (t.tree.code = some codeB3 ∧ t.tree = treeB3Read ∧ t.tree ≠ treeB3)) = true :=
  ⟨⟨slotsB3, rfl, treeB3_holds, by decide⟩, ⟨slotsB3Read, rfl, treeB3Read_holds, by decide⟩, rfl, rfl,
    ⟨rfl, rfl, rfl, rfl⟩, ⟨rfl, rfl, rfl, rfl⟩, ⟨rfl, rfl⟩, by decide +kernel⟩

/-- Each of the four commands, ended OK. -/
theorem witness_TransfersAreBounded :
    (withTree treeB3).Inv ∧
    givesNext (exec (.enc 97) (withTree treeB3)) (fun t => decide (t.err = none ∧ t.waiting = none)) = true ∧
    givesNext (exec .dec (reading [true] (withTree treeB3))) (fun t => decide (t.err = none ∧ t.waiting = none)) = true ∧
    givesNext (exec .ser (withTree treeB3)) (fun t => decide (t.err = none ∧ t.waiting = none)) = true ∧
    givesNext (exec .des (reading headerB3 (withTree treeB3))) (fun t => decide (t.err = none ∧ t.waiting = none)) = true :=
  ⟨test_inv_full, by decide +kernel⟩

end Sys2Proof.Tests
end

section
/-! What an idle block fetches from the command channel, and the step that follows (00_scope.md R9, 60_exceptions.md
R106). -/

namespace Sys2Proof.Machine

/-- A legal word is fetched as the command it decodes to, locked or not: the lock is the command's own first test. -/
theorem fetch_command_of_decode_ok {s : State} {w : CmdWord} {rest : List HostInput} {i : Instr}
    (host : s.host = .command w :: rest) (idle : s.waiting = none) (decoded : decode w = .ok i) :
    fetch s = .run i { s with host := rest } := by
  simp only [fetch, host, idle, decoded]

theorem step_of_fetch_run {s t : State} {i : Instr} (fetched : fetch s = .run i t) : step s = exec i t := by
  simp only [step, fetched]

/-- Settles O6: fetching the word gives the decoded command, and the step runs what was fetched. -/
theorem stepRunsTheDecodedCommand : Obligations.StepRunsTheDecodedCommand := by
  intro s w rest i host idle decoded
  exact step_of_fetch_run (fetch_command_of_decode_ok host idle decoded)

end Sys2Proof.Machine
end

section
/-! How each command ends, said once per command: what its pseudocode may have written, and on which port it may wait
(10_state.md R26, R29; 60_exceptions.md R106 to R108). -/

namespace Sys2Proof.Machine

theorem exec_locked {s : State} {x : Cause} (i : Instr) (h : s.err = some x) : exec i s = .next (lockedAnswer s) := by
  rw [exec_eq, runCommand_locked h]

/-! ## The port a command waits for -/

/-- The pseudocode waits for the far end of no port but `p`. -/
def Flow.WaitsFor {σ α : Type} (p : Port) (m : Flow σ α) : Prop := ∀ q s, m = .wait q s → q = p

theorem Flow.WaitsFor.bind {σ α β : Type} {p : Port} {m : Flow σ α} {f : α → σ → Flow σ β} (hm : m.WaitsFor p)
    (hf : ∀ a s, (f a s).WaitsFor p) : (m.bind f).WaitsFor p := by
  cases m with
  | done a s => exact hf a s
  | raise x s => nofun
  | wait q s => rintro _ _ ⟨⟩; exact hm q s rfl
  | broken => nofun

theorem sinkBit_waitsFor (b : Bool) (k : Sink) : (sinkBit b k).WaitsFor .sink := by
  intro q s e
  rcases sinkBit_cases b k with ⟨-, h⟩ | ⟨-, h⟩ | ⟨-, h⟩ <;> rw [h] at e <;> cases e
  rfl

theorem sinkBits_waitsFor (bs : List Bool) (k : Sink) : (sinkBits bs k).WaitsFor .sink := by
  induction bs generalizing k with
  | nil => nofun
  | cons b bs ih => exact (sinkBit_waitsFor b k).bind fun _ k' => ih k'

theorem serNode_waitsFor (n : Arena) (fuel : Nat) (h : Option Handle) (k : Sink) :
    (serNode n fuel h k).WaitsFor .sink := by
  induction fuel generalizing h k with
  | zero => nofun
  | succ fuel ih =>
    rw [serNode]
    split
    · nofun
    · split
      · exact (sinkBit_waitsFor _ _).bind fun _ k' => sinkBits_waitsFor _ k'
      · exact (sinkBit_waitsFor _ _).bind fun _ k' => (ih _ k').bind fun _ k'' => ih _ k''

theorem srcBit_waitsFor (k : Source) : (srcBit k).WaitsFor .source := by
  intro q s e
  rcases srcBit_cases k with ⟨b, -, h⟩ | ⟨b, -, h⟩ | ⟨x, b, -, h⟩ | ⟨-, h⟩ <;> rw [h] at e <;> cases e
  rfl

theorem descend_waitsFor (n : Arena) (fuel : Nat) (x : Node) (k : Source) :
    (descend n fuel x k).WaitsFor .source := by
  induction fuel generalizing x k with
  | zero => nofun
  | succ fuel ih =>
    rw [descend]
    refine (srcBit_waitsFor k).bind fun b k' => ?_
    split
    · nofun
    · split
      · nofun
      · exact ih _ k'

/-! ## ENC and SER -/

/-- The pseudocode has written nothing but the sink, and waits for nothing else. -/
def WritesSinkOnly (s : State) (m : Flow State Unit) : Prop :=
  m = .broken ∨ ∃ k : Sink, m = .done () { s with sink := k } ∨ (∃ x, m = .raise x { s with sink := k }) ∨
    m = .wait .sink { s with sink := k }

theorem onSink_writesSinkOnly {m : Sink → Flow Sink Unit} {s : State} (h : (m s.sink).WaitsFor .sink) :
    WritesSinkOnly s (onSink m s) := by
  rw [onSink_eq]
  cases e : m s.sink with
  | done a k => exact .inr ⟨k, .inl rfl⟩
  | raise x k => exact .inr ⟨k, .inr (.inl ⟨x, rfl⟩)⟩
  | wait p k => obtain rfl := h p k e; exact .inr ⟨k, .inr (.inr rfl)⟩
  | broken => exact .inl rfl

theorem encBody_writesSinkOnly (y : Sym) (s : State) : WritesSinkOnly s (encBody y s) := by
  have raises : ∀ x, WritesSinkOnly s (.raise x s) := fun x => .inr ⟨s.sink, .inr (.inl ⟨x, rfl⟩)⟩
  unfold encBody
  split
  · exact raises _
  · exact raises _
  all_goals
    split
    · exact raises _
    · split
      · exact .inl rfl
      · exact onSink_writesSinkOnly (sinkBits_waitsFor _ _)

theorem serBody_writesSinkOnly (s : State) : WritesSinkOnly s (serBody s) := by
  unfold serBody
  split
  · exact .inr ⟨s.sink, .inr (.inl ⟨_, rfl⟩)⟩
  all_goals exact onSink_writesSinkOnly (serNode_waitsFor _ _ _ _)

/-- All the next states of ENC and SER (R80, R90, R106 to R108). -/
theorem exec_enc_ser_next {i : Instr} {s t : State} (hi : i = .ser ∨ ∃ y, i = .enc y) (e : exec i s = .next t) :
    t = lockedAnswer s ∨ (s.err = none ∧ ∃ k : Sink, s.sink.snk <+: k.snk ∧
      (t = State.respond stOk { s with sink := k } ∨ (∃ x, t = takeFault false x { s with sink := k }) ∨
        t = State.hold .sink { s with sink := k })) := by
  have only : WritesSinkOnly s (bodyOf i s) := by
    rcases hi with rfl | ⟨y, rfl⟩
    · exact serBody_writesSinkOnly s
    · exact encBody_writesSinkOnly y s
  have keepsTree : discardsTree i = false := by rcases hi with rfl | ⟨y, rfl⟩ <;> rfl
  rcases exec_next e with ⟨-, ht⟩ | ⟨hl, u, hk, hu⟩
  · exact .inl ht
  · refine .inr ⟨by simpa [State.locked] using hl, u.sink, hk.sink, ?_⟩
    rw [keepsTree] at hu
    rcases only with hb | ⟨k, hb | ⟨x, hb⟩ | hb⟩ <;> rw [hb] at hu <;>
      rcases hu with ⟨h, rfl⟩ | ⟨z, h, rfl⟩ | ⟨p, h, rfl⟩ <;> cases h
    · exact .inl rfl
    · exact .inr (.inl ⟨x, rfl⟩)
    · exact .inr (.inr rfl)

/-- Settles O37: read off the next states ENC and SER can give. -/
theorem encAndSerFrame : Obligations.EncAndSerFrame := by
  intro i s t hi e
  obtain rfl | ⟨herr, k, hk, rfl | ⟨x, rfl⟩ | rfl⟩ := exec_enc_ser_next hi e
  · simp
  · simp [hk]
  · simp [hk, herr]
  · simp [hk]

/-! ## DEC -/

/-- All that the pseudocode of DEC can do: `RES` is written only when it comes to its end (R85). -/
theorem decBody_cases (s : State) :
    decBody s = .broken ∨ ∃ k : Source, (∃ y, decBody s = .done () { s with source := k, res := y }) ∨
      (∃ x, decBody s = .raise x { s with source := k }) ∨ decBody s = .wait .source { s with source := k } := by
  unfold decBody
  split
  · exact .inr ⟨s.source, .inr (.inl ⟨_, rfl⟩)⟩
  · exact .inr ⟨s.source, .inr (.inl ⟨_, rfl⟩)⟩
  all_goals
    split
    · exact .inl rfl
    · next r _ =>
      rw [onSource_eq]
      cases e : descend s.tree.node nodeCap r s.source with
      | done y k => exact .inr ⟨k, .inl ⟨y, rfl⟩⟩
      | raise x k => exact .inr ⟨k, .inr (.inl ⟨x, rfl⟩)⟩
      | wait p k => obtain rfl := descend_waitsFor _ _ _ _ p k e; exact .inr ⟨k, .inr (.inr rfl)⟩
      | broken => exact .inl rfl

/-- All the next states of DEC (R85, R106 to R108). -/
theorem exec_dec_next {s t : State} (e : exec .dec s = .next t) :
    t = lockedAnswer s ∨ (s.err = none ∧ ∃ k : Source,
      (∃ y, t = State.respond stOk { s with source := k, res := y }) ∨
      (∃ x, t = takeFault false x { s with source := k }) ∨ t = State.hold .source { s with source := k }) := by
  rcases exec_next e with ⟨-, ht⟩ | ⟨hl, u, -, hu⟩
  · exact .inl ht
  · refine .inr ⟨by simpa [State.locked] using hl, ?_⟩
    simp only [bodyOf, discardsTree] at hu
    rcases decBody_cases s with hb | ⟨k, ⟨y, hb⟩ | ⟨x, hb⟩ | hb⟩ <;> rw [hb] at hu <;>
      rcases hu with ⟨h, rfl⟩ | ⟨z, h, rfl⟩ | ⟨p, h, rfl⟩ <;> cases h
    · exact ⟨k, .inl ⟨y, rfl⟩⟩
    · exact ⟨k, .inr (.inl ⟨x, rfl⟩)⟩
    · exact ⟨k, .inr (.inr rfl)⟩

/-- Settles O42: read off the next states DEC can give. -/
theorem decFrame : Obligations.DecFrame := by
  intro s t e
  obtain rfl | ⟨herr, k, ⟨y, rfl⟩ | ⟨x, rfl⟩ | rfl⟩ := exec_dec_next e
  · simp
  · simp [herr]
  · simp [herr]
  · simp

/-! ## SETF and CLRF -/

/-- The next state of SETF (R65, R108). -/
theorem exec_setf_next {y : Sym} {c : Count} {s t : State} (e : exec (.setf y c) s = .next t) :
    t = lockedAnswer s ∨ t = State.respond stOk { s with freq := freqPut s.freq y c } := by
  rcases exec_next e with ⟨-, ht⟩ | ⟨-, u, -, ⟨h, rfl⟩ | ⟨x, h, rfl⟩ | ⟨p, h, rfl⟩⟩
  · exact .inl ht
  all_goals cases h
  exact .inr rfl

/-- The next state of CLRF (R66, R108). -/
theorem exec_clrf_next {s t : State} (e : exec .clrf s = .next t) :
    t = lockedAnswer s ∨ t = State.respond stOk { s with freq := [] } := by
  rcases exec_next e with ⟨-, ht⟩ | ⟨-, u, -, ⟨h, rfl⟩ | ⟨x, h, rfl⟩ | ⟨p, h, rfl⟩⟩
  · exact .inl ht
  all_goals cases h
  exact .inr rfl

/-- Settles O22: read off the next states SETF and CLRF can give. -/
theorem setfAndClrfFrame : Obligations.SetfAndClrfFrame := by
  rintro i s t (rfl | ⟨y, c, rfl⟩) e
  · rcases exec_clrf_next e with rfl | rfl <;> simp
  · rcases exec_setf_next e with rfl | rfl
    · simp
    · simp only [State.respond_tree, State.respond_err, State.respond_res, State.respond_waiting, State.respond_sink,
        State.respond_source, State.respond_host, State.respond_mergeSym, State.respond_freq, true_and]
      rintro _ _ z ⟨⟩ hz
      exact freqAt_freqPut_ne s.freq c hz

/-! ## BUILD -/

/-- What BUILD makes of a table with two or more symbols present, as `buildTree_many` says it, with nothing more
followed through the merges. -/
theorem buildTree_full (ms : MergeSym) (f : FreqTable) (t : Tree) (h2 : 2 ≤ (presentSyms f).length) :
    ∃ τ a, buildTree ms f t = .done () τ ∧ τ.kind = .full ∧ a.isInner = true ∧ τ.holds a ∧
      cellsSorted τ.leaf = true ∧ τ.ncount + 1 = 2 * (presentSyms f).length ∧ a.top.val + 1 = τ.ncount ∧
      (a.leafSlots.map fun h => ((nodeAt τ.node h).sym, (nodeAt τ.node h).freq)).Perm
        ((presentSyms f).map fun y => (y, zext40 (freqAt f y))) ∧
      ∀ y h, leafAt τ.leaf y = some h ↔ h ∈ a.leafSlots ∧ (nodeAt τ.node h).sym = y := by
  obtain ⟨τ, a, e, kind, inner, holds, sorted, count, top, leaves, table, -⟩ := buildTree_many ms f t h2
    (fun _ _ _ => True) (fun _ _ _ _ => trivial) (fun _ _ _ _ _ _ _ _ _ _ _ _ _ => trivial)
    (fun _ _ _ _ _ _ => trivial)
  exact ⟨τ, a, e, kind, inner, holds, sorted, count, top, leaves, table⟩

/-- BUILD comes to its end with a tree the invariant allows, or finds no symbol present (R70, R75, R76). -/
theorem buildTree_ends (ms : MergeSym) (f : FreqTable) (t : Tree) :
    (∃ τ, buildTree ms f t = .done () τ ∧ τ.Inv) ∨ buildTree ms f t = .raise .domain Tree.reset := by
  match hp : presentSyms f with
  | [] => exact .inr (buildTree_none ms f t hp)
  | [y] =>
    have present : freqAt f y ≠ 0 := mem_presentSyms.1 (by simp [hp])
    exact .inl ⟨_, buildTree_one ms f t hp, y, freqAt f y, present, rfl⟩
  | y :: z :: ys =>
    obtain ⟨τ, a, e, kind, inner, holds, sorted, -⟩ := buildTree_full ms f t (by simp [hp])
    exact .inl ⟨τ, e, by unfold Tree.Inv; rw [kind]; exact ⟨a, inner, holds, sorted⟩⟩

theorem exec_build_of_done {s : State} {τ : Tree} (h : s.err = none)
    (e : buildTree s.mergeSym s.freq s.tree = .done () τ) :
    exec .build s = .next (State.respond stOk { s with tree := τ }) :=
  runCommand_done h (by rw [buildBody, onTree_eq, e])

/-- All that BUILD on an unlocked block can do (R70, R79). -/
theorem exec_build_ends {s : State} (h : s.err = none) :
    (∃ τ : Tree, τ.Inv ∧ exec .build s = .next (State.respond stOk { s with tree := τ })) ∨
    exec .build s = .next (takeFault true .domain { s with tree := Tree.reset }) := by
  rcases buildTree_ends s.mergeSym s.freq s.tree with ⟨τ, e, inv⟩ | e
  · exact .inl ⟨τ, inv, exec_build_of_done h e⟩
  · exact .inr (runCommand_raise h (by rw [buildBody, onTree_eq, e]))

/-- Settles O29: read off the ways BUILD can end. -/
theorem buildFrame : Obligations.BuildFrame := by
  intro s
  cases herr : s.err with
  | some x => exact ⟨_, exec_locked _ herr, by simp [herr]⟩
  | none =>
    rcases exec_build_ends herr with ⟨τ, -, e⟩ | e
    · exact ⟨_, e, by simp [herr]⟩
    · exact ⟨_, e, by simp⟩

/-! ## DES -/

theorem desTree_readEnd (p : Tree × Source) : (desTree p).readEnd :=
  Flow.readEnd_bind (desNode_readEnd _ _) fun _ _ => .inl ⟨_, _, rfl⟩

theorem exec_des_of_done {s : State} {τ : Tree} {k : Source} (h : s.err = none)
    (e : desTree (s.tree, s.source) = .done () (τ, k)) :
    exec .des s = .next (State.respond stOk { s with tree := τ, source := k }) :=
  runCommand_done h (by rw [desBody, onTreeSource_eq, e])

/-- All that DES on an unlocked block can do (R95, R107, R135). -/
theorem exec_des_ends {s : State} (h : s.err = none) :
    (∃ τ k, desTree (s.tree, s.source) = .done () (τ, k) ∧
      exec .des s = .next (State.respond stOk { s with tree := τ, source := k })) ∨
    (∃ x τ k, (x = .corrupt ∨ x = .io ∨ x = .capacity) ∧
      exec .des s = .next (takeFault true x { s with tree := τ, source := k })) ∨
    ∃ τ k, exec .des s = .next (State.hold .source { s with tree := τ, source := k }) := by
  rcases desTree_readEnd (s.tree, s.source) with ⟨_, ⟨τ, k⟩, e⟩ | ⟨x, ⟨τ, k⟩, e, hx⟩ | ⟨⟨τ, k⟩, e⟩
  · exact .inl ⟨τ, k, e, exec_des_of_done h e⟩
  · exact .inr (.inl ⟨x, τ, k, hx, runCommand_raise h (by rw [desBody, onTreeSource_eq, e])⟩)
  · exact .inr (.inr ⟨τ, k, runCommand_wait h (by rw [desBody, onTreeSource_eq, e])⟩)

/-- Settles O54: read off the ways DES can end. -/
theorem desFrame : Obligations.DesFrame := by
  intro s
  cases herr : s.err with
  | some x => exact ⟨_, exec_locked _ herr, by simp [herr]⟩
  | none =>
    rcases exec_des_ends herr with ⟨τ, k, -, e⟩ | ⟨x, τ, k, -, e⟩ | ⟨τ, k, e⟩ <;> exact ⟨_, e, by simp⟩

/-- Settles O53: the one way DES can end with a fault discards the tree. -/
theorem desFaultLeavesNoTree : Obligations.DesFaultLeavesNoTree := by
  intro s t x herr e hx
  rcases exec_des_ends herr with ⟨τ, k, -, e'⟩ | ⟨z, τ, k, hz, e'⟩ | ⟨τ, k, e'⟩ <;> rw [e] at e' <;> cases e'
  · simp [herr] at hx
  · obtain rfl : z = x := by simpa using hx
    exact ⟨hz, by simp, by simp⟩
  · simp [herr] at hx

end Sys2Proof.Machine
end

section
/-! What every step keeps: the streams only grow, and the invariant of the block's state (10_state.md R17 to R24). -/

namespace Sys2Proof.Machine

/-! ## Reset -/

/-- Settles O14: each register is read off the reset state. -/
theorem resetStateValues : Obligations.ResetStateValues := by
  refine ⟨?_, fun s => ⟨rfl, rfl⟩⟩
  have empty : ∀ h, nodeAt? [] h = none := fun h => rfl
  rintro t (rfl | ⟨s, rfl⟩)
  · exact ⟨freqAt_nil, empty, rfl, rfl, leafAt_nil, rfl, rfl, rfl, rfl⟩
  · exact ⟨freqAt_nil, empty, rfl, rfl, leafAt_nil, rfl, rfl, rfl, rfl⟩

theorem resetBlock_inv (s : State) : s.resetBlock.Inv := ⟨rfl, fun _ => rfl⟩

/-- Settles O17: the empty table is canonical, and there is no tree. -/
theorem resetStateMeetsTheInvariant : Obligations.ResetStateMeetsTheInvariant := resetBlock_inv State.reset

/-! ## The streams -/

/-- Nothing is taken back from the sink or given back to the source (R24). -/
def StreamsGrow (s t : State) : Prop := s.sink.snk <+: t.sink.snk ∧ s.source.taken ≤ t.source.taken

theorem StreamsGrow.of_eq {s t : State} (hk : t.sink = s.sink) (hc : t.source = s.source) : StreamsGrow s t := by
  simp [StreamsGrow, hk, hc]

theorem exec_streamsGrow {i : Instr} {s t : State} (e : exec i s = .next t) : StreamsGrow s t := by
  rcases exec_next e with ⟨-, rfl⟩ | ⟨-, u, hk, ⟨-, rfl⟩ | ⟨x, -, rfl⟩ | ⟨p, -, rfl⟩⟩
  · exact .of_eq rfl rfl
  all_goals exact ⟨hk.sink, hk.source⟩

theorem illegalWord_cases (s : State) : illegalWord s = lockedAnswer s ∨ illegalWord s = takeFault false .illegal s := by
  unfold illegalWord; split <;> simp

/-- Settles O16: a step either runs a command, which takes nothing back, or leaves the streams as they are. -/
theorem streamsOnlyGrow : Obligations.StreamsOnlyGrow := by
  intro s t e
  obtain ⟨rest, -, rfl⟩ | ⟨-, -, rfl⟩ | ⟨w, rest, -, -, ⟨i, -, run⟩ | ⟨x, -, rfl⟩⟩ |
    ⟨w, rest, -, -, ⟨i, u, -, run, rfl⟩ | ⟨x, -, rfl⟩⟩ := step_next e
  · exact StreamsGrow.of_eq rfl rfl
  · exact StreamsGrow.of_eq rfl rfl
  · exact (exec_streamsGrow run : StreamsGrow { s with host := rest } _)
  · rcases illegalWord_cases { s with host := rest } with h | h <;> rw [h] <;> exact StreamsGrow.of_eq rfl rfl
  · exact (exec_streamsGrow run : StreamsGrow { s with host := rest } _)
  · exact StreamsGrow.of_eq rfl rfl

/-! ## The invariant -/

/-- What leaves the table and the tree registers, and takes no stream's hold off the block, keeps the invariant. -/
theorem State.Inv.of_frame {s t : State} (h : s.Inv) (hf : t.freq = s.freq) (ht : t.tree = s.tree)
    (hw : t.waiting = s.waiting ∨ ∃ p, t.waiting = some p) : t.Inv := by
  refine ⟨hf ▸ h.1, fun hn => ?_⟩
  rw [ht]
  rcases hw with hw | ⟨p, hw⟩
  · exact h.2 (hw ▸ hn)
  · rw [hw] at hn; cases hn

theorem lockedAnswer_inv {s : State} (h : s.Inv) : (lockedAnswer s).Inv := h.of_frame rfl rfl (.inl rfl)

/-- The tree of a DES that is done meets the invariant (R17, R22). -/
theorem desTree_inv {t τ : Tree} {k k' : Source} (e : desTree (t, k) = .done () (τ, k')) : τ.Inv := by
  obtain ⟨T, a, -, -, -, -, value, holds, sorted, -, kind⟩ := desTree_done e
  have inner : a.isInner = T.isInner := by rw [← value, SlotTree.value_isInner]
  unfold Tree.Inv
  cases hT : T.isInner with
  | true => rw [kind, hT]; exact ⟨a, inner.trans hT, holds, sorted⟩
  | false => rw [kind, hT]; exact ⟨a, inner.trans hT, holds, sorted⟩

/-- Every command keeps the invariant, however it ends (R26). -/
theorem exec_keeps_inv {i : Instr} {s t : State} (h : s.Inv) (e : exec i s = .next t) : t.Inv := by
  cases i with
  | setf y c =>
    rcases exec_setf_next e with rfl | rfl
    · exact lockedAnswer_inv h
    · exact ⟨freqWf_freqPut y c h.1, h.2⟩
  | clrf =>
    rcases exec_clrf_next e with rfl | rfl
    · exact lockedAnswer_inv h
    · exact ⟨rfl, h.2⟩
  | build =>
    cases herr : s.err with
    | some x => rw [exec_locked _ herr] at e; cases e; exact lockedAnswer_inv h
    | none =>
      rcases exec_build_ends herr with ⟨τ, inv, e'⟩ | e' <;> rw [e] at e' <;> cases e'
      · exact ⟨h.1, fun _ => inv⟩
      · exact ⟨h.1, fun _ => rfl⟩
  | enc y =>
    obtain ⟨hf, ht, -, -, -, -, -, -, hw⟩ := encAndSerFrame _ _ _ (.inr ⟨y, rfl⟩) e
    exact h.of_frame hf ht (hw.imp_right fun hw => ⟨_, hw⟩)
  | dec =>
    obtain ⟨hf, ht, -, -, -, -, -, hw⟩ := decFrame _ _ e
    exact h.of_frame hf ht (hw.imp_right fun hw => ⟨_, hw⟩)
  | ser =>
    obtain ⟨hf, ht, -, -, -, -, -, -, hw⟩ := encAndSerFrame _ _ _ (.inl rfl) e
    exact h.of_frame hf ht (hw.imp_right fun hw => ⟨_, hw⟩)
  | des =>
    cases herr : s.err with
    | some x => rw [exec_locked _ herr] at e; cases e; exact lockedAnswer_inv h
    | none =>
      rcases exec_des_ends herr with ⟨τ, k, made, e'⟩ | ⟨x, τ, k, -, e'⟩ | ⟨τ, k, e'⟩ <;> rw [e] at e' <;> cases e'
      · exact ⟨h.1, fun _ => desTree_inv made⟩
      · exact ⟨h.1, fun _ => rfl⟩
      · exact ⟨h.1, nofun⟩

/-- Settles O18: by what a step can do; a command keeps the invariant, a reset makes it, all else leaves the table and
the tree. -/
theorem stepKeepsTheInvariant : Obligations.StepKeepsTheInvariant := by
  intro s t inv e
  have taken : ∀ rest, ({ s with host := rest } : State).Inv := fun _ => inv
  obtain ⟨rest, -, rfl⟩ | ⟨-, -, rfl⟩ | ⟨w, rest, -, -, ⟨i, -, run⟩ | ⟨x, -, rfl⟩⟩ |
    ⟨w, rest, -, -, ⟨i, u, -, -, rfl⟩ | ⟨x, -, rfl⟩⟩ := step_next e
  · exact resetBlock_inv _
  · exact inv
  · exact exec_keeps_inv (taken rest) run
  · rcases illegalWord_cases { s with host := rest } with h | h <;> rw [h] <;>
      exact (taken rest).of_frame rfl rfl (.inl rfl)
  · exact resetBlock_inv _
  · exact resetBlock_inv _

end Sys2Proof.Machine
end

section
/-! The walks of ENC, DEC and SER on a tree the invariant allows (10_state.md R20 to R23): they never meet a broken arena,
the codes are bounded, and of the tree no more is seen than its shape and the leaves' symbols. -/

namespace Sys2Proof.Machine

/-! ## Paths in the arena -/

/-- Below the root a strict tree has two more slots for every bit of a path in it (R20). -/
theorem SlotTree.follow_length_slots {a b : SlotTree} {bs : List Bool} (h : a.follow bs = some b) :
    2 * bs.length + 1 ≤ a.slots.length := by
  induction a generalizing bs with
  | leaf s => cases bs <;> simp_all [follow, slots]
  | node s l r ihl ihr =>
    have hl := List.length_pos_of_mem l.top_mem_slots
    have hr := List.length_pos_of_mem r.top_mem_slots
    simp only [slots, List.length_cons, List.length_append]
    cases bs with
    | nil => simp
    | cons c bs =>
      rw [follow] at h
      rw [List.length_cons]
      cases c
      · have := ihl (by simpa using h); omega
      · have := ihr (by simpa using h); omega

/-- Going down the child fields of a held tree along some bits comes to the top of the subtree those bits name, and out of
the tree to nil (R12). -/
theorem SlotTree.follow_of_children {n : Arena} {a : SlotTree} {p : Option Handle} (held : a.heldBy n p)
    {bits : List Bool} {h : Handle}
    (leads : bits.foldl (fun r b => r.bind fun g => (nodeAt n g).child b) (some a.top) = some h) :
    ∃ b q, a.follow bits = some b ∧ b.heldBy n q ∧ b.top = h := by
  induction a generalizing p bits with
  | leaf s =>
    cases bits with
    | nil => exact ⟨_, p, rfl, held, Option.some.inj leads⟩
    | cons c bits =>
      obtain ⟨x, hx, h0, h1, -⟩ := held
      have none : (nodeAt n s).child c = none := by rw [nodeAt_of_nodeAt? hx]; cases c <;> assumption
      rw [List.foldl_cons, Option.bind_some, top_leaf, none, List.foldl_fixed' (fun _ => rfl)] at leads
      cases leads
  | node s l r ihl ihr =>
    cases bits with
    | nil => exact ⟨_, p, rfl, held, Option.some.inj leads⟩
    | cons c bits =>
      obtain ⟨⟨x, hx, h0, h1, -⟩, hl, hr⟩ := held
      have child : (nodeAt n s).child c = some (if c then r else l).top := by
        rw [nodeAt_of_nodeAt? hx]; cases c <;> assumption
      rw [List.foldl_cons, Option.bind_some, top_node, child] at leads
      cases c
      · exact ihl hl leads
      · exact ihr hr leads

theorem SlotTree.follow_heldBy {n : Arena} {a b : SlotTree} {p : Option Handle} {bs : List Bool} (held : a.heldBy n p)
    (h : a.follow bs = some b) : ∃ q, b.heldBy n q := by
  induction a generalizing p bs with
  | leaf s =>
    cases bs with
    | nil => simp only [follow, Option.some.injEq] at h; exact ⟨p, h ▸ held⟩
    | cons c bs => cases h
  | node s l r ihl ihr =>
    cases bs with
    | nil => simp only [follow, Option.some.injEq] at h; exact ⟨p, h ▸ held⟩
    | cons c bs =>
      rw [follow] at h
      cases c
      · exact ihl held.2.1 (by simpa using h)
      · exact ihr held.2.2 (by simpa using h)

/-- The slot `LEAF` names stands at the end of a path from the root (R16, R62). -/
theorem Tree.holds.follow_leafAt {t : Tree} {a : SlotTree} (held : t.holds a) {y : Sym} {h : Handle}
    (hl : leafAt t.leaf y = some h) : ∃ bs, a.follow bs = some (.leaf h) := by
  obtain ⟨-, -, -, -, -, leaf⟩ := held
  obtain ⟨bs, -, e⟩ := SlotTree.lastPath_value.2 h ((leaf y).symm.trans hl)
  exact ⟨bs, e⟩

/-- The code ENC finds for a symbol is any path that leads to the slot `LEAF` names (R62, R81). -/
theorem Tree.holds.codeOf_leadsTo {t : Tree} {a : SlotTree} (held : t.holds a) {y : Sym} {h : Handle}
    (hl : leafAt t.leaf y = some h) {bits : List Bool} (leads : t.leadsTo bits h) : codeOf t.node h = some bits := by
  obtain ⟨bs, hbs⟩ := held.follow_leafAt hl
  obtain ⟨heldA, -, -, -, root, -⟩ := id held
  unfold Tree.leadsTo at leads
  rw [root] at leads
  obtain ⟨b, q, hf, hb, rfl⟩ := SlotTree.follow_of_children heldA leads
  obtain ⟨q', x, hx, h0, -⟩ := SlotTree.follow_heldBy heldA hbs
  cases b with
  | leaf s => exact Tree.codeOf_holds held hf
  | node s l r =>
    obtain ⟨⟨x', hx', h0', -⟩, -⟩ := hb
    obtain rfl : x = x' := Option.some.inj (hx.symm.trans hx')
    simp [h0] at h0'

/-! ## The invariant, by KIND -/

theorem Tree.Inv.full {t : Tree} (h : t.Inv) (hk : t.kind = .full) :
    ∃ a : SlotTree, a.isInner = true ∧ t.holds a := by
  unfold Tree.Inv at h
  rw [hk] at h
  obtain ⟨a, inner, holds, -⟩ := h
  exact ⟨a, inner, holds⟩

theorem Tree.Inv.singleton {t : Tree} (h : t.Inv) (hk : t.kind = .singleton) : ∃ y c, t = Tree.degenerate y c := by
  unfold Tree.Inv at h
  rw [hk] at h
  obtain ⟨y, c, -, ht⟩ := h
  exact ⟨y, c, ht⟩

theorem Tree.Inv.leafroot {t : Tree} (h : t.Inv) (hk : t.kind = .leafroot) : ∃ a : SlotTree, t.holds a := by
  unfold Tree.Inv at h
  rw [hk] at h
  obtain ⟨a, -, holds, -⟩ := h
  exact ⟨a, holds⟩

theorem Tree.degenerate_code (y : Sym) (c : Count) :
    (Tree.degenerate y c).code = some (.node (.leaf y) (.leaf y)) := rfl

/-- The degenerate tree has one leaf, whose code is the one bit 0 (R84). -/
theorem Tree.degenerate_codeOf {y z : Sym} {c : Count} {h : Handle}
    (hl : leafAt (Tree.degenerate y c).leaf z = some h) : codeOf (Tree.degenerate y c).node h = some [false] := by
  have leaf : leafAt (Tree.degenerate y c).leaf z = if y = z then some 0 else none := rfl
  rw [leaf] at hl
  split at hl
  · obtain rfl := Option.some.inj hl; rfl
  · cases hl

/-- A block that holds a tree holds it as a value, with an internal root unless KIND is LEAFROOT (R17, R23). -/
theorem Tree.Inv.code {t : Tree} (h : t.Inv) (hk : t.kind ≠ .none) :
    ∃ T, t.code = some T ∧ (t.kind = .full ∨ t.kind = .singleton → T.isInner = true) := by
  cases kind : t.kind with
  | none => exact absurd kind hk
  | full =>
    obtain ⟨a, inner, holds⟩ := h.full kind
    exact ⟨_, Tree.code_of_holds holds, fun _ => by rw [SlotTree.value_isInner, inner]⟩
  | singleton =>
    obtain ⟨y, c, rfl⟩ := h.singleton kind
    exact ⟨_, Tree.degenerate_code y c, fun _ => rfl⟩
  | leafroot =>
    obtain ⟨a, holds⟩ := h.leafroot kind
    exact ⟨_, Tree.code_of_holds holds, nofun⟩

/-- Every symbol `LEAF` names has a code of 1 to 255 bits: the tree is strict and has at most 511 slots (R20, R62). -/
theorem Tree.Inv.codeOf_bounded {t : Tree} (h : t.Inv) (hk : t.kind = .full ∨ t.kind = .singleton) {y : Sym}
    {g : Handle} (hl : leafAt t.leaf y = some g) :
    ∃ bits, codeOf t.node g = some bits ∧ 1 ≤ bits.length ∧ bits.length ≤ 255 := by
  rcases hk with kind | kind
  · obtain ⟨a, inner, holds⟩ := h.full kind
    obtain ⟨bits, hf⟩ := holds.follow_leafAt hl
    refine ⟨bits, Tree.codeOf_holds holds hf, ?_, ?_⟩
    · refine List.length_pos_iff.2 fun hnil => ?_
      subst hnil
      cases a with
      | leaf s => cases inner
      | node s l r => cases hf
    · have path := SlotTree.follow_length_slots hf
      obtain ⟨-, -, fills, cap, -⟩ := holds
      simp only [nodeCap] at cap
      omega
  · obtain ⟨z, c, rfl⟩ := h.singleton kind
    exact ⟨[false], Tree.degenerate_codeOf hl, by simp, by simp⟩

/-- Settles O35: by the number of slots of a strict tree. -/
theorem codeLengthsAreBounded : Obligations.CodeLengthsAreBounded := by
  intro s y h inv idle hk hl
  exact (inv.2 idle).codeOf_bounded hk hl

/-! ## The pseudocode of ENC, DEC and SER on a tree as a value -/

theorem encBody_of_code {y : Sym} {s : State} {h : Handle} {bits : List Bool}
    (hk : s.tree.kind = .full ∨ s.tree.kind = .singleton) (hl : leafAt s.tree.leaf y = some h)
    (hc : codeOf s.tree.node h = some bits) : encBody y s = onSink (sinkBits bits) s := by
  unfold encBody
  rcases hk with hk | hk <;> rw [hk] <;> simp only [hl, hc]

theorem encBody_of_absent {y : Sym} {s : State} (hk : s.tree.kind = .full ∨ s.tree.kind = .singleton)
    (hl : leafAt s.tree.leaf y = none) : encBody y s = .raise .domain s := by
  unfold encBody
  rcases hk with hk | hk <;> rw [hk] <;> simp only [hl]

theorem encBody_of_none {y : Sym} {s : State} (hk : s.tree.kind = .none) : encBody y s = .raise .notree s := by
  unfold encBody; rw [hk]

theorem encBody_of_leafroot {y : Sym} {s : State} (hk : s.tree.kind = .leafroot) : encBody y s = .raise .shape s := by
  unfold encBody; rw [hk]

/-- DEC reads a symbol of the tree as a value (R85, R86). -/
theorem decBody_of_code {s : State} {T : CodeTree} (hk : s.tree.kind = .full ∨ s.tree.kind = .singleton)
    (hT : s.tree.code = some T) (inner : T.isInner = true) :
    decBody s = (onSource T.read s).bind fun y t => .done () { t with res := y } := by
  obtain ⟨x, hx, -⟩ := treeAt_succ (fuel := 510) hT
  have reads : onSource (descend s.tree.node nodeCap x) s = onSource T.read s := by
    rw [onSource, onSource, descend_eq hT hx inner]
  unfold decBody
  rcases hk with hk | hk <;> rw [hk] <;> simp only [hx, reads]

theorem decBody_of_none {s : State} (hk : s.tree.kind = .none) : decBody s = .raise .notree s := by
  unfold decBody; rw [hk]

theorem decBody_of_leafroot {s : State} (hk : s.tree.kind = .leafroot) : decBody s = .raise .shape s := by
  unfold decBody; rw [hk]

/-- SER writes the header of the tree as a value (R90, R91). -/
theorem serBody_of_code {s : State} {T : CodeTree} (hk : s.tree.kind ≠ .none) (hT : s.tree.code = some T) :
    serBody s = onSink (sinkBits T.header) s := by
  have writes : onSink (serNode s.tree.node nodeCap s.tree.root) s = onSink (sinkBits T.header) s := by
    rw [onSink, onSink, serNode_eq hT]
  unfold serBody
  split
  · next h => exact absurd h hk
  all_goals exact writes

theorem serBody_of_none {s : State} (hk : s.tree.kind = .none) : serBody s = .raise .notree s := by
  unfold serBody; rw [hk]

theorem onSink_sinkBits_ne_broken (bits : List Bool) (s : State) : onSink (sinkBits bits) s ≠ .broken := by
  rw [onSink_eq]
  rcases sinkBits_cases bits s.sink with ⟨k, e, -⟩ | ⟨as, k, -, -, e, -⟩ | ⟨as, k, -, -, e, -⟩ <;> simp [e]

theorem onSource_read_ne_broken (T : CodeTree) (s : State) :
    ((onSource T.read s).bind fun y t => .done () { t with res := y }) ≠ .broken := by
  rw [onSource_eq]
  rcases T.read_cases s.source with ⟨y, k, e⟩ | ⟨k, e⟩ | ⟨k, e⟩ | ⟨k, e⟩ <;> simp [e]

/-! ## No broken arena -/

theorem encBody_ne_broken {s : State} (inv : s.tree.Inv) (y : Sym) : encBody y s ≠ .broken := by
  have usable : s.tree.kind = .full ∨ s.tree.kind = .singleton → encBody y s ≠ .broken := fun hk => by
    cases hl : leafAt s.tree.leaf y with
    | none => rw [encBody_of_absent hk hl]; nofun
    | some h =>
      obtain ⟨bits, hc, -⟩ := inv.codeOf_bounded hk hl
      rw [encBody_of_code hk hl hc]
      exact onSink_sinkBits_ne_broken bits s
  cases kind : s.tree.kind with
  | none => rw [encBody_of_none kind]; nofun
  | full => exact usable (.inl kind)
  | singleton => exact usable (.inr kind)
  | leafroot => rw [encBody_of_leafroot kind]; nofun

theorem decBody_ne_broken {s : State} (inv : s.tree.Inv) : decBody s ≠ .broken := by
  have usable : s.tree.kind = .full ∨ s.tree.kind = .singleton → decBody s ≠ .broken := fun hk => by
    obtain ⟨T, hT, inner⟩ := inv.code (by rcases hk with hk | hk <;> simp [hk])
    rw [decBody_of_code hk hT (inner hk)]
    exact onSource_read_ne_broken T s
  cases kind : s.tree.kind with
  | none => rw [decBody_of_none kind]; nofun
  | full => exact usable (.inl kind)
  | singleton => exact usable (.inr kind)
  | leafroot => rw [decBody_of_leafroot kind]; nofun

theorem serBody_ne_broken {s : State} (inv : s.tree.Inv) : serBody s ≠ .broken := by
  by_cases kind : s.tree.kind = .none
  · rw [serBody_of_none kind]; nofun
  · obtain ⟨T, hT, -⟩ := inv.code kind
    rw [serBody_of_code kind hT]
    exact onSink_sinkBits_ne_broken _ s

/-- A command gives a next state unless its pseudocode meets a broken arena. -/
theorem exec_next_of_ne_broken {i : Instr} {s : State} (h : bodyOf i s ≠ .broken) : ∃ t, exec i s = .next t := by
  rw [exec_eq]
  cases e : runCommand (discardsTree i) (bodyOf i) s with
  | next t => exact ⟨t, rfl⟩
  | fault r => exact absurd (runCommand_fault e).1 h
  | refused r => exact absurd e runCommand_not_refused

theorem exec_next_of_inv (i : Instr) {s : State} (inv : s.tree.Inv) : ∃ t, exec i s = .next t := by
  cases i with
  | setf y c => exact exec_next_of_ne_broken nofun
  | clrf => exact exec_next_of_ne_broken nofun
  | build => obtain ⟨t, e, -⟩ := buildFrame s; exact ⟨t, e⟩
  | enc y => exact exec_next_of_ne_broken (encBody_ne_broken inv y)
  | dec => exact exec_next_of_ne_broken (decBody_ne_broken inv)
  | ser => exact exec_next_of_ne_broken (serBody_ne_broken inv)
  | des => obtain ⟨t, e, -⟩ := desFrame s; exact ⟨t, e⟩

/-- A step that runs no command stops only for a far end that holds the block; one that runs a command stops as the
command does (U15). -/
theorem step_fault {s : State} {r : Fault} (e : step s = .fault r) :
    (∃ p, r = stalledAt p) ∨ (s.waiting = none ∧ ∃ i rest, exec i { s with host := rest } = .fault r) := by
  obtain ⟨freq, tree, err, res, waiting, rsp, sink, source, host, ms⟩ := s
  rcases host with _ | ⟨(w | _ | w), rest⟩ <;> rcases waiting with _ | p <;> simp only [step, fetch] at e
  case nil.some | command.some | commandCutByReset.some => cases e; exact .inl ⟨p, rfl⟩
  case nil.none | reset.none | reset.some => cases e
  case command.none =>
    cases hd : decode w with
    | ok i => rw [hd] at e; exact .inr ⟨rfl, i, rest, e⟩
    | error x => rw [hd] at e; cases e
  case commandCutByReset.none =>
    cases hd : decode w with
    | ok i =>
      rw [hd] at e
      simp only [cutByReset] at e
      split at e
      · cases e
      · next r' run => cases e; exact .inr ⟨rfl, i, rest, run⟩
      · cases e
    | error x => rw [hd] at e; cases e

/-- Settles O19: on a tree the invariant allows every walk is one of the tree as a value, which is never broken. -/
theorem noBrokenArena : Obligations.NoBrokenArena := by
  refine ⟨fun s inv e => ?_, fun i s inv idle => exec_next_of_inv i (inv.2 idle)⟩
  rcases step_fault e with ⟨p, hp⟩ | ⟨idle, i, rest, run⟩
  · cases p <;> cases hp
  · obtain ⟨t, next⟩ := exec_next_of_inv i (s := { s with host := rest }) (inv.2 idle)
    rw [run] at next
    cases next

/-! ## What is seen of the tree -/

/-- The block with other tree registers. -/
def State.putTree (τ : Tree) (s : State) : State := { s with tree := τ }

theorem onSink_putTree {α : Type} (m : Sink → Flow Sink α) (s : State) (τ : Tree) :
    onSink m (s.putTree τ) = (onSink m s).mapState (State.putTree τ) := by
  have sink : (s.putTree τ).sink = s.sink := rfl
  rw [onSink_eq, onSink_eq, sink]
  cases m s.sink <;> rfl

theorem onSource_read_putTree (T : CodeTree) (s : State) (τ : Tree) :
    ((onSource T.read (s.putTree τ)).bind fun y t => .done () { t with res := y }) =
      ((onSource T.read s).bind fun y t => .done () { t with res := y }).mapState (State.putTree τ) := by
  have source : (s.putTree τ).source = s.source := rfl
  rw [onSource_eq, onSource_eq, source]
  cases T.read s.source <;> rfl

/-- The pseudocode, with the tree registers `τ` in place of those of `s`, does what it did, and leaves them as they
are. -/
structure SeesAlike (body : State → Flow State Unit) (s : State) (τ : Tree) : Prop where
  same : body (s.putTree τ) = (body s).mapState (State.putTree τ)
  whole : body s ≠ .broken
  keeps : ∀ u, (body s).at? = some u → u.tree = s.tree

theorem encBody_keeps_tree {y : Sym} {s u : State} (e : (encBody y s).at? = some u) : u.tree = s.tree := by
  rcases encBody_writesSinkOnly y s with h | ⟨k, h | ⟨x, h⟩ | h⟩ <;> rw [h] at e <;> cases e <;> rfl

theorem serBody_keeps_tree {s u : State} (e : (serBody s).at? = some u) : u.tree = s.tree := by
  rcases serBody_writesSinkOnly s with h | ⟨k, h | ⟨x, h⟩ | h⟩ <;> rw [h] at e <;> cases e <;> rfl

theorem decBody_keeps_tree {s u : State} (e : (decBody s).at? = some u) : u.tree = s.tree := by
  rcases decBody_cases s with h | ⟨k, ⟨y, h⟩ | ⟨x, h⟩ | h⟩ <;> rw [h] at e <;> cases e <;> rfl

/-- Pseudocode that does alike on both trees makes a command that answers alike, KIND being the same (R57, R106). -/
theorem SeesAlike.exec_next {i : Instr} {s : State} {τ : Tree} (hd : discardsTree i = false)
    (h : SeesAlike (bodyOf i) s τ) (hk : τ.kind = s.tree.kind) :
    ∃ t v, exec i s = .next t ∧ exec i (s.putTree τ) = .next v ∧ v = { t with tree := τ } := by
  have answers : ∀ (st : BitVec 4) (u : State), u.tree = s.tree →
      State.respond st (u.putTree τ) = State.putTree τ (u.respond st) := fun st u hu => by
    simp [State.respond, State.putTree, hu, hk]
  simp only [exec_eq, hd]
  cases herr : s.err with
  | some x =>
    exact ⟨_, _, runCommand_locked herr, runCommand_locked (s := s.putTree τ) herr, answers stLocked s rfl⟩
  | none =>
    have herr' : (s.putTree τ).err = none := herr
    have same := h.same
    cases e : bodyOf i s with
    | done a u =>
      rw [e] at same
      exact ⟨_, _, runCommand_done herr e, runCommand_done herr' same, answers stOk u (h.keeps u (by rw [e]; rfl))⟩
    | raise x u =>
      rw [e] at same
      exact ⟨_, _, runCommand_raise herr e, runCommand_raise herr' same,
        answers x.code { u with err := some x } (h.keeps u (by rw [e]; rfl))⟩
    | wait p u =>
      rw [e] at same
      exact ⟨_, _, runCommand_wait herr e, runCommand_wait herr' same, rfl⟩
    | broken => exact absurd e h.whole

theorem decBody_seesAlike {s : State} {τ : Tree} {T : CodeTree} (hs : s.tree.code = some T) (hτ : τ.code = some T)
    (hk : τ.kind = s.tree.kind) (inner : s.tree.kind = .full ∨ s.tree.kind = .singleton → T.isInner = true) :
    SeesAlike decBody s τ := by
  have raises : ∀ x, decBody s = .raise x s → decBody (s.putTree τ) = .raise x (s.putTree τ) →
      SeesAlike decBody s τ := fun x e e' => ⟨by rw [e, e']; rfl, by rw [e]; nofun, fun _ => decBody_keeps_tree⟩
  have reads : s.tree.kind = .full ∨ s.tree.kind = .singleton → SeesAlike decBody s τ := fun usable => by
    have e := decBody_of_code usable hs (inner usable)
    have e' := decBody_of_code (s := s.putTree τ) (by simpa [State.putTree, hk] using usable) hτ (inner usable)
    exact ⟨by rw [e, e', onSource_read_putTree], by rw [e]; exact onSource_read_ne_broken T s,
      fun _ => decBody_keeps_tree⟩
  cases kind : s.tree.kind with
  | none => exact raises _ (decBody_of_none kind) (decBody_of_none (hk.trans kind))
  | full => exact reads (.inl kind)
  | singleton => exact reads (.inr kind)
  | leafroot => exact raises _ (decBody_of_leafroot kind) (decBody_of_leafroot (hk.trans kind))

theorem serBody_seesAlike {s : State} {τ : Tree} {T : CodeTree} (hs : s.tree.code = some T) (hτ : τ.code = some T)
    (hk : τ.kind = s.tree.kind) : SeesAlike serBody s τ := by
  by_cases kind : s.tree.kind = .none
  · have e := serBody_of_none kind
    have e' := serBody_of_none (s := s.putTree τ) (hk.trans kind)
    exact ⟨by rw [e, e']; rfl, by rw [e]; nofun, fun _ => serBody_keeps_tree⟩
  · have e := serBody_of_code kind hs
    have e' := serBody_of_code (s := s.putTree τ) (by simpa [State.putTree, hk] using kind) hτ
    exact ⟨by rw [e, e', onSink_putTree], by rw [e]; exact onSink_sinkBits_ne_broken _ s,
      fun _ => serBody_keeps_tree⟩

/-- Two trees of one KIND in which one path leads to the leaves of a symbol give it one code (R62, R84). -/
theorem codeOf_alike {t τ : Tree} (inv : t.Inv) (inv' : τ.Inv) (hk : τ.kind = t.kind)
    (usable : t.kind = .full ∨ t.kind = .singleton) {y : Sym} {g h : Handle} {bits : List Bool}
    (hg : leafAt t.leaf y = some g) (hh : leafAt τ.leaf y = some h) (leads : t.leadsTo bits g)
    (leads' : τ.leadsTo bits h) : ∃ code, codeOf t.node g = some code ∧ codeOf τ.node h = some code := by
  rcases usable with kind | kind
  · obtain ⟨a, -, holds⟩ := inv.full kind
    obtain ⟨b, -, holds'⟩ := inv'.full (hk.trans kind)
    exact ⟨bits, holds.codeOf_leadsTo hg leads, holds'.codeOf_leadsTo hh leads'⟩
  · obtain ⟨z, c, rfl⟩ := inv.singleton kind
    obtain ⟨z', c', rfl⟩ := inv'.singleton (hk.trans kind)
    exact ⟨[false], Tree.degenerate_codeOf hg, Tree.degenerate_codeOf hh⟩

theorem encBody_seesAlike {s : State} {τ : Tree} {y : Sym} (inv : s.tree.Inv) (inv' : τ.Inv)
    (hk : τ.kind = s.tree.kind)
    (leaf : (leafAt s.tree.leaf y = none ∧ leafAt τ.leaf y = none) ∨
      ∃ g h bits, leafAt s.tree.leaf y = some g ∧ leafAt τ.leaf y = some h ∧ s.tree.leadsTo bits g ∧
        τ.leadsTo bits h) : SeesAlike (encBody y) s τ := by
  have raises : ∀ x, encBody y s = .raise x s → encBody y (s.putTree τ) = .raise x (s.putTree τ) →
      SeesAlike (encBody y) s τ := fun x e e' => ⟨by rw [e, e']; rfl, by rw [e]; nofun, fun _ => encBody_keeps_tree⟩
  have writes : s.tree.kind = .full ∨ s.tree.kind = .singleton → SeesAlike (encBody y) s τ := fun usable => by
    have usable' : (s.putTree τ).tree.kind = .full ∨ (s.putTree τ).tree.kind = .singleton := by
      simpa [State.putTree, hk] using usable
    rcases leaf with ⟨absent, absent'⟩ | ⟨g, h, bits, hg, hh, leads, leads'⟩
    · exact raises _ (encBody_of_absent usable absent) (encBody_of_absent usable' absent')
    · obtain ⟨code, hc, hc'⟩ := codeOf_alike inv inv' hk usable hg hh leads leads'
      have e := encBody_of_code usable hg hc
      have e' := encBody_of_code usable' hh hc'
      exact ⟨by rw [e, e', onSink_putTree], by rw [e]; exact onSink_sinkBits_ne_broken _ s,
        fun _ => encBody_keeps_tree⟩
  cases kind : s.tree.kind with
  | none => exact raises _ (encBody_of_none kind) (encBody_of_none (hk.trans kind))
  | full => exact writes (.inl kind)
  | singleton => exact writes (.inr kind)
  | leafroot => exact raises _ (encBody_of_leafroot kind) (encBody_of_leafroot (hk.trans kind))

/-- Settles O57: DEC and SER are walks of the tree as a value, and ENC writes the one path to the symbol's leaf. -/
theorem onlyShapeIsObserved : Obligations.OnlyShapeIsObserved := by
  constructor
  · intro s u T i hi hs hτ full singleton hu hk
    have inner : s.tree.kind = .full ∨ s.tree.kind = .singleton → T.isInner = true := fun h => h.elim full singleton
    rw [show u = s.putTree u.tree from hu]
    rcases hi with rfl | rfl
    · exact (decBody_seesAlike hs hτ hk inner).exec_next (i := .dec) rfl hk
    · exact (serBody_seesAlike hs hτ hk).exec_next (i := .ser) rfl hk
  · intro s u y inv inv' hu hk leaf
    rw [show u = s.putTree u.tree from hu]
    exact (encBody_seesAlike inv inv' hk leaf).exec_next (i := .enc y) rfl hk

end Sys2Proof.Machine
end

section
/-! DES of a header (45_tree_deserializer.md R95 to R99): what it reads is the header that is there. -/

namespace Sys2Proof.Machine

/-- A source gives one string of each length (R32). -/
theorem Source.gives_unique {as bs : List Bool} {k : Source} (ha : k.gives as = true) (hb : k.gives bs = true)
    (hl : as.length = bs.length) : as = bs := by
  induction as generalizing bs k with
  | nil => exact (List.length_eq_zero_iff.1 hl.symm).symm
  | cons a as ih =>
    cases bs with
    | nil => cases hl
    | cons b bs =>
      simp only [Source.gives, Bool.and_eq_true, decide_eq_true_eq] at ha hb
      have beat := ha.1.symm.trans hb.1
      rw [ih ha.2 hb.2 (by simpa using hl)]
      simpa using beat

theorem Source.past_inj {n m : Nat} {k : Source} (h : k.past n = k.past m) : n = m := by
  have := congrArg Source.taken h
  simpa [Source.past] using this

/-- Two headers the source gives, and past which it stands alike, are of one tree (R60). -/
theorem header_read_unique {T U : CodeTree} {k : Source} (hT : k.gives T.header = true) (hU : k.gives U.header = true)
    (h : k.past T.header.length = k.past U.header.length) : T = U := by
  have same := Source.gives_unique hT hU (Source.past_inj h)
  exact (CodeTree.header_unique (as := []) (bs := []) (by rw [same])).1

/-- DES on a source that gives a header of at most 511 nodes comes to its end past it (R95, R100). -/
theorem desTree_header {T : CodeTree} {t : Tree} {k : Source} (hk : k.gives T.header = true) (hs : T.size ≤ nodeCap) :
    ∃ τ, desTree (t, k) = .done () (τ, k.past T.header.length) := by
  obtain ⟨h, τ, e, -⟩ := (desNode_header T (fuel := nodeCap) (t := t.discard) hk (by simp)).1 (by simpa using hs)
  exact ⟨_, by rw [desTree, e]; rfl⟩

theorem SlotTree.top_val_of_slots {a : SlotTree} {s n : Nat} (h : a.slots.map Fin.val = List.range' s n) :
    a.top.val = s := by
  have head : (a.slots.map Fin.val).head? = some a.top.val := by cases a <;> rfl
  rw [h] at head
  cases n with
  | zero => cases head
  | succ n => exact (Option.some.inj head).symm

/-- Settles O47: DES comes to its end past the header, and the tree it then holds has that header. -/
theorem desReadsAHeader : Obligations.DesReadsAHeader := by
  intro s T herr hsize hk
  obtain ⟨τ, e⟩ := desTree_header (t := s.tree) hk hsize
  obtain ⟨U, a, hU, past, -, slots, value, holds, -, freq, kind⟩ := desTree_done e
  obtain rfl := header_read_unique hk hU past
  obtain ⟨-, -, count, -, root, -⟩ := id holds
  refine ⟨_, a, exec_des_of_done herr e, herr, ?_, kind, ?_, ?_, rfl, rfl, holds, value, ?_, freq⟩
  · exact (Tree.code_of_holds holds).trans (congrArg some value)
  · exact root.trans (congrArg some (Fin.ext (SlotTree.top_val_of_slots slots)))
  · exact count.symm.trans (by simpa using congrArg List.length slots)
  · rw [slots, List.range_eq_range']

end Sys2Proof.Machine
end

section
/-! BUILD of one symbol and of many (41_tree_builder.md R70 to R78, 10_state.md R20, R21). -/

namespace Sys2Proof.Machine

theorem presentSyms_eq_singleton {f : FreqTable} {y : Sym} (hy : freqAt f y ≠ 0)
    (others : ∀ z, z ≠ y → freqAt f z = 0) : presentSyms f = [y] := by
  refine List.perm_singleton.1 ((List.perm_ext_iff_of_nodup (presentSyms_nodup f) (List.nodup_singleton y)).2
    fun z => ?_)
  rw [mem_presentSyms, List.mem_singleton]
  exact ⟨not_imp_comm.1 (others z), fun e => e ▸ hy⟩

/-- Settles O24: the one symbol present gives the degenerate tree. -/
theorem buildOfOneSymbol : Obligations.BuildOfOneSymbol := by
  intro s y herr hy others
  exact exec_build_of_done herr (buildTree_one _ _ _ (presentSyms_eq_singleton hy others))

/-- Settles O25: the merges end with one tree of all the symbols present. -/
theorem buildOfManySymbols : Obligations.BuildOfManySymbols := by
  intro s herr h2
  obtain ⟨τ, a, e, kind, inner, holds, -, count, top, leaves, table⟩ := buildTree_full s.mergeSym s.freq s.tree h2
  obtain ⟨-, -, -, -, root, -⟩ := id holds
  refine ⟨_, a, exec_build_of_done herr e, kind, herr, by simp [kind, stOk], count, ⟨a.top, root, top⟩, inner, holds,
    leaves, fun y => ?_⟩
  have named : leafAt τ.leaf y ≠ none ↔ ∃ h ∈ a.leafSlots, (nodeAt τ.node h).sym = y := by
    simp only [Option.ne_none_iff_exists', table]
  have syms : (a.leafSlots.map fun h => (nodeAt τ.node h).sym).Perm (presentSyms s.freq) := by
    simpa [Function.comp_def] using leaves.map Prod.fst
  simp only [State.respond_tree]
  rw [named, ← mem_presentSyms, ← syms.mem_iff, List.mem_map]

end Sys2Proof.Machine
end

section
/-! The merge procedure on values (41_tree_builder.md R71 to R74): the order is that of one number, and what the procedure
makes does not depend on the order in which the pending nodes are listed. -/

namespace Sys2Proof.Machine

/-- Frequency and symbol as one number, in which the order of R71 is the order of numbers. -/
def Weighted.rank (x : Weighted) : Nat := x.freq * 256 + x.sym.toNat

theorem Weighted.before_iff {x y : Weighted} : x.before y = true ↔ x.rank < y.rank := by
  have hx := x.sym.isLt
  have hy := y.sym.isLt
  simp only [before, rank, Bool.or_eq_true, Bool.and_eq_true, decide_eq_true_eq]
  omega

/-- The symbol is the low end of the number. -/
theorem Weighted.ofNat_rank (x : Weighted) : BitVec.ofNat 8 x.rank = x.sym := by
  apply BitVec.eq_of_toNat_eq
  have := x.sym.isLt
  simp only [rank, BitVec.toNat_ofNat]
  omega

/-- The node comes before all of the list (R71). -/
def Weighted.Least (a : Weighted) (ws : List Weighted) : Prop := ∀ z ∈ ws, a.rank ≤ z.rank

/-- `ExtractMin` takes the least node and leaves the others (R71). -/
theorem extractMin_spec (x : Weighted) (xs : List Weighted) :
    ((extractMin x xs).1 :: (extractMin x xs).2).Perm (x :: xs) ∧ (extractMin x xs).1.Least (x :: xs) := by
  induction xs generalizing x with
  | nil => exact ⟨.refl _, by simp [extractMin, Weighted.Least]⟩
  | cons y ys ih =>
    obtain ⟨perm, least⟩ := ih y
    rw [extractMin]
    simp only
    split
    · next hb =>
      refine ⟨(List.Perm.swap _ _ _).trans (perm.cons x), fun z hz => ?_⟩
      rcases List.mem_cons.1 hz with rfl | hz
      · exact le_of_lt (Weighted.before_iff.1 hb)
      · exact least z hz
    · next hb =>
      have first : x.rank ≤ (extractMin y ys).1.rank := not_lt.1 fun h => hb (Weighted.before_iff.2 h)
      refine ⟨.refl _, fun z hz => ?_⟩
      rcases List.mem_cons.1 hz with rfl | hz
      · exact le_refl _
      · exact first.trans (least z hz)

/-- No two pending nodes have one symbol (R77 item 1). -/
def SymsDistinct (ws : List Weighted) : Prop := (ws.map Weighted.sym).Nodup

theorem SymsDistinct.perm {ws vs : List Weighted} (h : SymsDistinct ws) (p : ws.Perm vs) : SymsDistinct vs :=
  (p.map _).nodup_iff.1 h

/-- So there is one least node (R71, R77 item 1). -/
theorem Weighted.Least.unique {a b : Weighted} {as bs : List Weighted} (ha : a.Least as) (hb : b.Least bs)
    (p : (a :: as).Perm (b :: bs)) (distinct : SymsDistinct (a :: as)) : a = b ∧ as.Perm bs := by
  have le_of_mem : ∀ {c d : Weighted} {cs : List Weighted}, c.Least cs → d ∈ c :: cs → c.rank ≤ d.rank := by
    intro c d cs hc hd
    rcases List.mem_cons.1 hd with rfl | hd
    · exact le_refl _
    · exact hc d hd
  have mem : b ∈ a :: as := p.symm.subset (by simp)
  have rank : a.rank = b.rank := le_antisymm (le_of_mem ha mem) (le_of_mem hb (p.subset (by simp)))
  have sym : a.sym = b.sym := by rw [← a.ofNat_rank, ← b.ofNat_rank, rank]
  obtain rfl : a = b := List.inj_on_of_nodup_map distinct (by simp) mem sym
  exact ⟨rfl, (List.perm_cons a).1 p⟩

theorem SymsDistinct.merge {ms : MergeSym} {a b : Weighted} {ws : List Weighted} (h : SymsDistinct (a :: b :: ws)) :
    SymsDistinct (a.merge ms b :: ws) := by
  simp only [SymsDistinct, List.map_cons, List.nodup_cons, List.mem_cons, not_or] at h ⊢
  obtain ⟨⟨-, ha⟩, hb, hws⟩ := h
  cases ms
  · exact ⟨ha, hws⟩
  · exact ⟨hb, hws⟩

/-- One round of the merge procedure takes the two least nodes (R73). -/
theorem huffman_step (ms : MergeSym) (fuel : Nat) {ws : List Weighted} (h : 2 ≤ ws.length) :
    ∃ a b rest, ws.Perm (a :: b :: rest) ∧ a.Least (b :: rest) ∧ b.Least rest ∧
      huffman ms (fuel + 1) ws = huffman ms fuel (a.merge ms b :: rest) := by
  match ws, h with
  | x :: y :: ys, _ =>
    obtain ⟨perm, least⟩ := extractMin_spec x (y :: ys)
    rw [huffman]
    cases e : extractMin x (y :: ys) with
    | mk a others =>
      rw [e] at perm least
      cases others with
      | nil => simpa using perm.length_eq
      | cons z zs =>
        obtain ⟨perm', least'⟩ := extractMin_spec z zs
        have all : (x :: y :: ys).Perm (a :: (extractMin z zs).1 :: (extractMin z zs).2) :=
          perm.symm.trans (perm'.symm.cons a)
        exact ⟨a, (extractMin z zs).1, (extractMin z zs).2, all,
          fun w hw => least w (all.symm.subset (List.mem_cons_of_mem _ hw)),
          fun w hw => least' w (perm'.subset (List.mem_cons_of_mem _ hw)), rfl⟩

/-- The tree made does not depend on the order in which the pending nodes are listed (R71, R77). -/
theorem huffman_perm (ms : MergeSym) (fuel : Nat) {ws vs : List Weighted} (p : ws.Perm vs) (distinct : SymsDistinct ws) :
    huffman ms fuel ws = huffman ms fuel vs := by
  induction fuel generalizing ws vs with
  | zero => rfl
  | succ fuel ih =>
    match ws with
    | [] => rw [List.nil_perm.1 p]
    | [x] => rw [List.singleton_perm.1 p]
    | x :: y :: ys =>
      obtain ⟨a, b, rest, pw, ha, hb, ew⟩ := huffman_step ms fuel (ws := x :: y :: ys) (by simp)
      obtain ⟨c, d, rest', pv, hc, hd, ev⟩ := huffman_step ms fuel (ws := vs) (by simp [← p.length_eq])
      have distinct' := distinct.perm pw
      obtain ⟨rfl, p1⟩ := ha.unique hc (pw.symm.trans (p.trans pv)) distinct'
      obtain ⟨rfl, p2⟩ := hb.unique hd p1 (List.nodup_cons.1 distinct').2
      rw [ew, ev]
      exact ih (p2.cons _) distinct'.merge

/-- The merge procedure on nodes of which the two least are known (R73). -/
theorem huffman_of_least (ms : MergeSym) (fuel : Nat) {a b : Weighted} {ws : List Weighted} (ha : a.Least (b :: ws))
    (hb : b.Least ws) (distinct : SymsDistinct (a :: b :: ws)) :
    huffman ms (fuel + 1) (a :: b :: ws) = huffman ms fuel (a.merge ms b :: ws) := by
  obtain ⟨c, d, rest, p, hc, hd, e⟩ := huffman_step ms fuel (ws := a :: b :: ws) (by simp)
  obtain ⟨rfl, p1⟩ := ha.unique hc p distinct
  obtain ⟨rfl, p2⟩ := hb.unique hd p1 (List.nodup_cons.1 distinct).2
  rw [e]
  exact huffman_perm ms fuel (p2.symm.cons _) ((distinct.perm p).merge)

end Sys2Proof.Machine
end

section
/-! BUILD follows the merge procedure on values, with exact sums (41_tree_builder.md R71 to R74, 10_state.md R13). -/

namespace Sys2Proof.Machine

/-! ## Nodes after a merge -/

theorem nodeAt_parentPut (n : Arena) (h p g : Handle) :
    ∃ q, nodeAt (parentPut n h p) g = { nodeAt n g with parent := q } := by
  by_cases hg : g = h
  · subst hg
    by_cases hh : g.val < n.length
    · exact ⟨_, nodeAt_parentPut_self p hh⟩
    · exact ⟨none, by simp [nodeAt, nodeAt?, parentPut, nodePut, hh, Node.blank]⟩
  · exact ⟨_, nodeAt_parentPut_ne n p hg⟩

/-- A merge writes one node, and besides it only parent fields (R70). -/
theorem nodeAt_mergeStep (ms : MergeSym) (t : Tree) (a b m g : Handle) :
    ∃ q, nodeAt (mergeStep ms t a b m).node g =
      { nodeAt (nodePut (t.node ++ [Node.blank]) m (mergedNode ms t.node a b)) g with parent := q } := by
  simp only [mergeStep, Tree.putParent_node, Tree.putNode_node]
  generalize nodePut (t.node ++ [Node.blank]) m (mergedNode ms t.node a b) = n
  obtain ⟨q, hq⟩ := nodeAt_parentPut n a m g
  obtain ⟨r, hr⟩ := nodeAt_parentPut (parentPut n a m) b m g
  exact ⟨r, by rw [hr, hq]⟩

/-- A slot in use keeps all but its parent field in a merge (R70). -/
theorem nodeAt_mergeStep_old (ms : MergeSym) (t : Tree) {a b m g : Handle} (hm : m.val = t.node.length)
    (hg : g.val < t.node.length) : ∃ q, nodeAt (mergeStep ms t a b m).node g = { nodeAt t.node g with parent := q } := by
  have ne : g ≠ m := fun e => by subst e; omega
  have kept : nodeAt (t.node ++ [Node.blank]) g = nodeAt t.node g := by
    simp only [nodeAt]; rw [nodeAt?_append _ hg]
  have written := nodeAt_mergeStep ms t a b m g
  rwa [nodeAt_nodePut_ne _ _ ne, kept] at written

/-- The slot a merge takes holds the merged node (R73). -/
theorem nodeAt_mergeStep_new (ms : MergeSym) (t : Tree) {a b m : Handle} (hm : m.val = t.node.length) :
    ∃ q, nodeAt (mergeStep ms t a b m).node m = { mergedNode ms t.node a b with parent := q } := by
  have written := nodeAt_mergeStep ms t a b m m
  rwa [nodeAt_nodePut_self _ (by simp [hm])] at written

theorem nodeAt_of_le {n : Arena} {h : Handle} (hh : n.length ≤ h.val) : nodeAt n h = Node.blank := by
  simp [nodeAt, nodeAt?, hh]

/-! ## Pending nodes as values -/

/-- A pending tree of the arena as a pending node of the merge procedure on values. -/
def weigh (n : Arena) (a : SlotTree) : Weighted where
  freq := (nodeAt n a.top).freq.toNat
  sym := (nodeAt n a.top).sym
  tree := a.value n

/-- The place of a slot in the order of R71, as a number. -/
def slotRank (n : Arena) (h : Handle) : Nat := (weigh n (.leaf h)).rank

theorem rank_weigh (n : Arena) (a : SlotTree) : (weigh n a).rank = slotRank n a.top := rfl

theorem precedes_iff {n : Arena} {x y : Handle} : precedes n x y = true ↔ slotRank n x < slotRank n y := by
  have hx := (nodeAt n x).sym.isLt
  have hy := (nodeAt n y).sym.isLt
  simp only [precedes, BitVec.ult, Bool.or_eq_true, Bool.and_eq_true, decide_eq_true_eq, beq_iff_eq,
    ← BitVec.toNat_inj, slotRank, Weighted.rank, weigh, SlotTree.top_leaf]
  omega

/-- The pending collection stands in the order of R71. -/
def PendingSorted (n : Arena) (p : List Handle) : Prop := p.Pairwise fun x y => slotRank n x < slotRank n y

theorem addPending_sorted {n : Arena} {m : Handle} {p : List Handle} (h : PendingSorted n p)
    (new : ∀ q ∈ p, slotRank n q ≠ slotRank n m) : PendingSorted n (addPending n m p) := by
  induction p with
  | nil => exact List.pairwise_singleton _ _
  | cons q qs ih =>
    obtain ⟨first, rest⟩ := List.pairwise_cons.1 h
    rw [addPending]
    split
    · next hp =>
      have hmq := precedes_iff.1 hp
      refine List.pairwise_cons.2 ⟨fun z hz => ?_, h⟩
      rcases List.mem_cons.1 hz with rfl | hz
      · exact hmq
      · exact hmq.trans (first z hz)
    · next hp =>
      have hqm : slotRank n q < slotRank n m :=
        lt_of_le_of_ne (not_lt.1 fun h => hp (precedes_iff.2 h)) (new q (by simp))
      refine List.pairwise_cons.2 ⟨fun z hz => ?_, ih rest fun z hz => new z (by simp [hz])⟩
      rcases List.mem_cons.1 ((addPending_perm n m qs).subset hz) with rfl | hz
      · exact hqm
      · exact first z hz

theorem pendingOf_sorted {n : Arena} {hs : List Handle} (h : (hs.map (slotRank n)).Nodup) :
    PendingSorted n (pendingOf n hs) := by
  induction hs with
  | nil => exact List.Pairwise.nil
  | cons m hs ih =>
    obtain ⟨new, rest⟩ := List.nodup_cons.1 h
    refine addPending_sorted (ih rest) fun q hq e => new ?_
    exact List.mem_map.2 ⟨q, (pendingOf_perm n hs).subset hq, e⟩

/-! ## What the merges keep -/

/-- Every internal node's frequency is the exact sum of its children's, which are in use (R13). -/
def ExactSums (n : Arena) : Prop :=
  ∀ h a b, (nodeAt n h).c0 = some a → (nodeAt n h).c1 = some b → a.val < n.length ∧ b.val < n.length ∧
    (nodeAt n h).freq.toNat = (nodeAt n a).freq.toNat + (nodeAt n b).freq.toNat

/-- How far BUILD of the table `f` has come: no sum has wrapped, the pending nodes add up to the whole table, they are
distinct and in order, and as values they lead the merge procedure to the tree of the table. -/
structure Merging (ms : MergeSym) (f : FreqTable) (t : Tree) (pending : List Handle) (as : List SlotTree) : Prop where
  exact : ExactSums t.node
  total : ((as.map (weigh t.node)).map Weighted.freq).sum = totalCount f
  sorted : PendingSorted t.node pending
  distinct : SymsDistinct (as.map (weigh t.node))
  result : ∃ fuel, as.length ≤ fuel ∧
    huffman ms fuel (as.map (weigh t.node)) = huffman ms 256 (seedsOf f)

theorem Merging.perm {ms : MergeSym} {f : FreqTable} {t : Tree} {p : List Handle} {as bs : List SlotTree}
    (h : Merging ms f t p as) (hab : as.Perm bs) : Merging ms f t p bs := by
  have perm := hab.map (weigh t.node)
  obtain ⟨fuel, len, result⟩ := h.result
  exact ⟨h.exact, by rw [← (perm.map _).sum_eq]; exact h.total, h.sorted, h.distinct.perm perm,
    fuel, hab.length_eq ▸ len, by rw [← huffman_perm ms fuel perm h.distinct]; exact result⟩

/-- The whole table sums to less than `2 ^ 40` (R13). -/
theorem totalCount_lt (f : FreqTable) : totalCount f < 2 ^ 40 := by
  have entry : ∀ c ∈ allSyms.map (fun y => (freqAt f y).toNat), c ≤ 2 ^ 32 - 1 := by
    intro c hc
    obtain ⟨y, -, rfl⟩ := List.mem_map.1 hc
    have := (freqAt f y).isLt
    omega
  have := List.sum_le_card_nsmul _ _ entry
  simp only [List.length_map, allSyms_length, smul_eq_mul] at this
  unfold totalCount
  omega

/-! ## The leaves -/

theorem map_nodeAt_of_range {n : Arena} {hs : List Handle} (h : hs.map Fin.val = List.range' 0 n.length) :
    hs.map (nodeAt n) = n := by
  have read : hs.map (nodeAt n) = (hs.map Fin.val).map fun i => (n[i]?).getD Node.blank := by
    rw [List.map_map]; rfl
  rw [read, h]
  refine List.ext_getElem (by simp) fun i h1 h2 => ?_
  simp [h2]

theorem weigh_seeds {f : FreqTable} {hs : List Handle} {u : Tree}
    (hv : hs.map Fin.val = List.range' 0 (presentSyms f).length)
    (hn : u.node = (presentSyms f).map fun y => seedNode y (freqAt f y)) :
    (hs.map SlotTree.leaf).map (weigh u.node) = seedsOf f := by
  have nodes : hs.map (nodeAt u.node) = (presentSyms f).map fun y => seedNode y (freqAt f y) := by
    rw [← hn]; exact map_nodeAt_of_range (by rw [hv, hn, List.length_map])
  have values : (hs.map SlotTree.leaf).map (weigh u.node) =
      (hs.map (nodeAt u.node)).map fun x => { freq := x.freq.toNat, sym := x.sym, tree := .leaf x.sym } := by
    rw [List.map_map, List.map_map]; rfl
  have exact : ∀ c : Count, (zext40 c).toNat = c.toNat := fun c => BitVec.toNat_setWidth_of_le (by decide)
  rw [values, nodes, seedsOf, List.map_map]
  simp [seedNode, exact]

theorem seedsOf_total (f : FreqTable) : ((seedsOf f).map Weighted.freq).sum = totalCount f := by
  have present : ∀ ys : List Sym, ((ys.filter fun y => freqAt f y != 0).map fun y => (freqAt f y).toNat).sum =
      (ys.map fun y => (freqAt f y).toNat).sum := by
    intro ys
    induction ys with
    | nil => rfl
    | cons y ys ih =>
      by_cases hy : freqAt f y = 0
      · rw [List.filter_cons_of_neg (by simp [hy]), ih, List.map_cons, List.sum_cons, hy]; simp
      · rw [List.filter_cons_of_pos (by simpa using hy), List.map_cons, List.sum_cons, ih, List.map_cons, List.sum_cons]
  simpa [seedsOf, presentSyms, totalCount, Function.comp_def] using present allSyms

theorem seedsOf_distinct (f : FreqTable) : SymsDistinct (seedsOf f) := by
  simpa [SymsDistinct, seedsOf, Function.comp_def] using presentSyms_nodup f

theorem exactSums_seeds {n : Arena} {f : FreqTable} {ys : List Sym}
    (hn : n = ys.map fun y => seedNode y (freqAt f y)) : ExactSums n := by
  have childless : ∀ h, (nodeAt n h).c0 = none := by
    intro h
    by_cases hh : h.val < n.length
    · have mem : nodeAt n h ∈ ys.map fun y => seedNode y (freqAt f y) := by
        rw [← hn]; exact List.mem_of_getElem? (nodeAt?_of_lt hh)
      obtain ⟨y, -, hy⟩ := List.mem_map.1 mem
      rw [← hy]; rfl
    · rw [nodeAt_of_le (not_lt.1 hh)]; rfl
  intro h a b h0
  rw [childless] at h0
  cases h0

/-- When the leaves are made, the merge procedure on values is at its beginning (R72). -/
theorem Merging.seeds {ms : MergeSym} {f : FreqTable} {hs : List Handle} {u : Tree}
    (hv : hs.map Fin.val = List.range' 0 (presentSyms f).length)
    (hn : u.node = (presentSyms f).map fun y => seedNode y (freqAt f y)) :
    Merging ms f u (pendingOf u.node hs) (hs.map SlotTree.leaf) := by
  have seeds := weigh_seeds hv hn
  have ranks : (hs.map (slotRank u.node)).Nodup := by
    refine List.Nodup.of_map (BitVec.ofNat 8) ?_
    have syms : (hs.map (slotRank u.node)).map (BitVec.ofNat 8) =
        ((hs.map SlotTree.leaf).map (weigh u.node)).map Weighted.sym := by
      simp only [List.map_map, Function.comp_def, slotRank, Weighted.ofNat_rank]
    rw [syms, seeds]
    exact seedsOf_distinct f
  have len : hs.length = (presentSyms f).length := by simpa using congrArg List.length hv
  exact ⟨exactSums_seeds hn, by rw [seeds]; exact seedsOf_total f, pendingOf_sorted ranks,
    by rw [seeds]; exact seedsOf_distinct f,
    256, by rw [List.length_map, len]; exact presentSyms_length f, by rw [seeds]⟩

/-! ## One merge -/

theorem weigh_mergeStep_old (ms : MergeSym) {t : Tree} {a b m : Handle} (hm : m.val = t.node.length) {c : SlotTree}
    (hc : ∀ g ∈ c.slots, g.val < t.node.length) : weigh (mergeStep ms t a b m).node c = weigh t.node c := by
  have top := hc _ c.top_mem_slots
  simp only [weigh, mergeStep_sym ms t hm top, mergeStep_freq ms t hm top,
    SlotTree.value_congr c fun g hg => mergeStep_sym ms t hm (hc g hg)]

/-- The merged slot is the merged node as a value, if the sum does not wrap (R73, R74). -/
theorem weigh_mergeStep_new (ms : MergeSym) {t : Tree} {l r : SlotTree} {m : Handle} (hm : m.val = t.node.length)
    (hl : ∀ g ∈ l.slots, g.val < t.node.length) (hr : ∀ g ∈ r.slots, g.val < t.node.length)
    (fits : (weigh t.node l).freq + (weigh t.node r).freq < 2 ^ 40) :
    weigh (mergeStep ms t l.top r.top m).node (.node m l r) = (weigh t.node l).merge ms (weigh t.node r) := by
  obtain ⟨sym, freq⟩ := mergeStep_new ms t (a := l.top) (b := r.top) hm
  have sum : ((nodeAt t.node l.top).freq + (nodeAt t.node r.top).freq).toNat =
      (nodeAt t.node l.top).freq.toNat + (nodeAt t.node r.top).freq.toNat := BitVec.toNat_add_of_lt fits
  simp only [weigh, SlotTree.top_node, sym, freq, sum, SlotTree.value, Weighted.merge,
    SlotTree.value_congr l fun g hg => mergeStep_sym ms t hm (hl g hg),
    SlotTree.value_congr r fun g hg => mergeStep_sym ms t hm (hr g hg)]
  cases ms <;> rfl

theorem slotRank_mergeStep (ms : MergeSym) {t : Tree} {a b m g : Handle} (hm : m.val = t.node.length)
    (hg : g.val < t.node.length) : slotRank (mergeStep ms t a b m).node g = slotRank t.node g := by
  rw [slotRank, weigh_mergeStep_old ms hm (by simpa [SlotTree.slots] using hg), slotRank]

theorem ExactSums.mergeStep {ms : MergeSym} {t : Tree} {a b m : Handle} (h : ExactSums t.node)
    (hm : m.val = t.node.length) (ha : a.val < t.node.length) (hb : b.val < t.node.length)
    (fits : (nodeAt t.node a).freq.toNat + (nodeAt t.node b).freq.toNat < 2 ^ 40) :
    ExactSums (mergeStep ms t a b m).node := by
  intro g x y h0 h1
  rw [mergeStep_length]
  rcases lt_trichotomy g.val t.node.length with hg | hg | hg
  · obtain ⟨q, hq⟩ := nodeAt_mergeStep_old ms t (a := a) (b := b) hm hg
    rw [hq] at h0 h1
    obtain ⟨hx, hy, sum⟩ := h g x y h0 h1
    refine ⟨by omega, by omega, ?_⟩
    rw [mergeStep_freq ms t hm hg, mergeStep_freq ms t hm hx, mergeStep_freq ms t hm hy, sum]
  · obtain rfl : g = m := Fin.ext (hg.trans hm.symm)
    obtain ⟨q, hq⟩ := nodeAt_mergeStep_new ms t (a := a) (b := b) hm
    rw [hq] at h0 h1
    obtain rfl := Option.some.inj h0
    obtain rfl := Option.some.inj h1
    refine ⟨by omega, by omega, ?_⟩
    rw [(mergeStep_new ms t hm).2, mergeStep_freq ms t hm ha, mergeStep_freq ms t hm hb]
    exact BitVec.toNat_add_of_lt fits
  · rw [nodeAt_of_le (by rw [mergeStep_length]; omega)] at h0
    cases h0

theorem Forest.inUse {t : Tree} {p : List Handle} {as : List SlotTree} (hF : Forest t p as) {c : SlotTree}
    (hc : c ∈ as) : ∀ g ∈ c.slots, g.val < t.node.length := SlotTree.heldBy_lt (hF.held c hc)

theorem Forest.rest_tops {t : Tree} {rest : List Handle} {l r : SlotTree} {as : List SlotTree}
    (hF : Forest t (l.top :: r.top :: rest) (l :: r :: as)) : (as.map SlotTree.top).Perm rest := by
  have tops := hF.tops
  simp only [List.map_cons] at tops
  exact (List.perm_cons _).1 ((List.perm_cons _).1 tops)

section
variable {ms : MergeSym} {f : FreqTable} {t : Tree} {m : Handle} {rest : List Handle} {l r : SlotTree}
  {as : List SlotTree}

theorem Merging.fits {p : List Handle} (h : Merging ms f t p (l :: r :: as)) :
    (weigh t.node l).freq + (weigh t.node r).freq < 2 ^ 40 := by
  have total := h.total
  have bound := totalCount_lt f
  simp only [List.map_cons, List.sum_cons] at total
  omega

/-- The pending nodes as values after a merge: the merged one, and the others as they were (R73). -/
theorem Merging.values {p : List Handle} (h : Merging ms f t p (l :: r :: as)) (hF : Forest t p (l :: r :: as))
    (hm : m.val = t.node.length) :
    (SlotTree.node m l r :: as).map (weigh (mergeStep ms t l.top r.top m).node) =
      (weigh t.node l).merge ms (weigh t.node r) :: as.map (weigh t.node) := by
  rw [List.map_cons, weigh_mergeStep_new ms hm (hF.inUse (by simp)) (hF.inUse (by simp)) h.fits]
  congr 1
  exact List.map_congr_left fun c hc => weigh_mergeStep_old ms hm (hF.inUse (by simp [hc]))

/-- The two pending nodes at the head are the two least (R71, R73). -/
theorem Merging.least (h : Merging ms f t (l.top :: r.top :: rest) (l :: r :: as))
    (hF : Forest t (l.top :: r.top :: rest) (l :: r :: as)) :
    (weigh t.node l).Least (weigh t.node r :: as.map (weigh t.node)) ∧
      (weigh t.node r).Least (as.map (weigh t.node)) := by
  obtain ⟨first, sorted⟩ := List.pairwise_cons.1 h.sorted
  obtain ⟨second, -⟩ := List.pairwise_cons.1 sorted
  have pending : ∀ c ∈ as, c.top ∈ rest := fun c hc => hF.rest_tops.subset (List.mem_map_of_mem hc)
  constructor
  · intro z hz
    rcases List.mem_cons.1 hz with rfl | hz
    · exact le_of_lt (first _ List.mem_cons_self)
    · obtain ⟨c, hc, rfl⟩ := List.mem_map.1 hz
      exact le_of_lt (first _ (List.mem_cons_of_mem _ (pending c hc)))
  · intro z hz
    obtain ⟨c, hc, rfl⟩ := List.mem_map.1 hz
    exact le_of_lt (second _ (pending c hc))

/-- The pending collection is in order after a merge (R71). -/
theorem Merging.sorted_merge (h : Merging ms f t (l.top :: r.top :: rest) (l :: r :: as))
    (hF : Forest t (l.top :: r.top :: rest) (l :: r :: as)) (hm : m.val = t.node.length) :
    PendingSorted (mergeStep ms t l.top r.top m).node (addPending (mergeStep ms t l.top r.top m).node m rest) := by
  have topOf : ∀ q ∈ rest, ∃ c ∈ as, c.top = q := fun q hq => List.mem_map.1 (hF.rest_tops.symm.subset hq)
  have same : ∀ q ∈ rest, slotRank (mergeStep ms t l.top r.top m).node q = slotRank t.node q := fun q hq => by
    obtain ⟨c, hc, rfl⟩ := topOf q hq
    exact slotRank_mergeStep ms hm (hF.inUse (by simp [hc]) _ c.top_mem_slots)
  have sortedRest : PendingSorted t.node rest := (List.pairwise_cons.1 (List.pairwise_cons.1 h.sorted).2).2
  refine addPending_sorted (sortedRest.imp_of_mem fun hx hy hlt => ?_) fun q hq e => ?_
  · rwa [same _ hx, same _ hy]
  · obtain ⟨c, hc, rfl⟩ := topOf q hq
    have merged := (List.cons.inj (h.values hF hm)).1
    have ranks : (weigh t.node c).rank = ((weigh t.node l).merge ms (weigh t.node r)).rank := by
      rw [← merged, rank_weigh, rank_weigh, ← same _ hq]; exact e
    have syms : (weigh t.node c).sym = ((weigh t.node l).merge ms (weigh t.node r)).sym := by
      rw [← Weighted.ofNat_rank, ranks, Weighted.ofNat_rank]
    have distinct : SymsDistinct (_ :: as.map (weigh t.node)) := SymsDistinct.merge (ms := ms) h.distinct
    exact (List.nodup_cons.1 distinct).1 (List.mem_map.2 ⟨_, List.mem_map_of_mem hc, syms⟩)

/-- One merge is one round of the merge procedure on values (R73). -/
theorem Merging.merge (h : Merging ms f t (l.top :: r.top :: rest) (l :: r :: as))
    (hF : Forest t (l.top :: r.top :: rest) (l :: r :: as)) (hm : m.val = t.node.length) :
    Merging ms f (mergeStep ms t l.top r.top m) (addPending (mergeStep ms t l.top r.top m).node m rest)
      (.node m l r :: as) := by
  have values := h.values hF hm
  obtain ⟨leastL, leastR⟩ := h.least hF
  refine ⟨?_, ?_, h.sorted_merge hF hm, ?_, ?_⟩
  · exact h.exact.mergeStep hm (hF.inUse (by simp) _ l.top_mem_slots) (hF.inUse (by simp) _ r.top_mem_slots) h.fits
  · have total := h.total
    rw [values]
    simp only [List.map_cons, List.sum_cons, Weighted.merge] at total ⊢
    omega
  · rw [values]
    exact SymsDistinct.merge h.distinct
  · obtain ⟨fuel, len, result⟩ := h.result
    simp only [List.length_cons] at len
    obtain ⟨fuel, rfl⟩ : ∃ n, fuel = n + 1 := ⟨fuel - 1, by omega⟩
    refine ⟨fuel, by simpa using len, ?_⟩
    rw [values, ← huffman_of_least ms fuel leastL leastR h.distinct]
    exact result

end

/-! ## The tree made -/

/-- BUILD comes to its end where the merge procedure on values does (R73). -/
theorem buildTree_merging (ms : MergeSym) (f : FreqTable) (t : Tree) (h2 : 2 ≤ (presentSyms f).length) :
    ∃ τ a, buildTree ms f t = .done () τ ∧ τ.holds a ∧ Merging ms f τ [a.top] [a] := by
  obtain ⟨τ, a, e, -, -, holds, -, -, -, -, -, v, merging, node⟩ := buildTree_many ms f t h2 (Merging ms f)
    (fun _ _ hv hn => .seeds hv hn) (fun _ _ _ _ _ _ _ _ h hF hl hr hm => by subst hl hr; exact h.merge hF hm)
    (fun _ _ _ _ h hab => h.perm hab)
  obtain ⟨exact, total, sorted, distinct, result⟩ := merging
  rw [node] at exact total sorted distinct result
  exact ⟨τ, a, e, holds, exact, total, sorted, distinct, result⟩

/-- Settles O26: the one pending node left carries the tree the merge procedure on values ends with. -/
theorem buildMakesTheMergeTree : Obligations.BuildMakesTheMergeTree := by
  intro s herr h2
  obtain ⟨τ, a, e, holds, merging⟩ := buildTree_merging s.mergeSym s.freq s.tree h2
  obtain ⟨fuel, len, result⟩ := merging.result
  refine ⟨_, a.value τ.node, exec_build_of_done herr e, Tree.code_of_holds holds, ?_⟩
  obtain ⟨fuel, rfl⟩ : ∃ n, fuel = n + 1 := ⟨fuel - 1, by rw [List.length_singleton] at len; omega⟩
  rw [← result]
  rfl

/-- Settles O27: the one pending node left weighs the whole table, and no sum has wrapped. -/
theorem buildFrequenciesAreExactSums : Obligations.BuildFrequenciesAreExactSums := by
  intro s herr h2
  obtain ⟨τ, a, e, holds, merging⟩ := buildTree_merging s.mergeSym s.freq s.tree h2
  obtain ⟨-, -, -, -, root, -⟩ := holds
  refine ⟨_, a.top, exec_build_of_done herr e, root, by simpa [weigh] using merging.total, fun h x y h0 h1 => ?_⟩
  exact (merging.exact h x y h0 h1).2.2

end Sys2Proof.Machine
end

section
/-! Transfers that fail, meet the end of the stream or never happen: where the pseudocode that comes to one stands
(20_memory.md R31, R32; 60_exceptions.md R109; 70_reset_and_hazards.md R135). -/

namespace Sys2Proof.Machine

/-! ## The sink -/

/-- A transfer that never happens after some that did (R31, R135): the earlier bits stay in `SNK`. -/
theorem sinkBits_waits {as bs : List Bool} {b : Bool} {k : Sink} (h : k.accepts as.length = true)
    (hb : k.beat as.length = .never) :
    sinkBits (as ++ b :: bs) k = .wait .sink { k.skip (as.length + 1) with snk := k.snk ++ as } := by
  rw [sinkBits_prefix h, sinkBits_cons, sinkBit, Sink.written_next, hb]
  simp only [Flow.bind_wait, Sink.written, Sink.next_with_snk, Sink.skip_succ]

/-- A string cut at one of its bits. -/
theorem exists_cut_at {bits : List Bool} {n : Nat} (hn : n < bits.length) :
    ∃ as b bs, bits = as ++ b :: bs ∧ n = as.length :=
  ⟨bits.take n, bits[n], bits.drop (n + 1), by rw [← List.drop_eq_getElem_cons hn, List.take_append_drop],
    (List.length_take_of_le hn.le).symm⟩

section
variable {i : Instr} {s : State} {bits : List Bool} {n : Nat}

/-- A command that writes `bits`, keeps the tree on a fault and has its `n`-th transfer fail (R107, R109). -/
theorem exec_of_sinkBits_fails (herr : s.err = none) (keeps : discardsTree i = false)
    (body : bodyOf i s = onSink (sinkBits bits) s) (hn : n < bits.length) (ha : s.sink.accepts n = true)
    (hb : s.sink.beat n = .ready true) :
    ∃ t, exec i s = .next t ∧ t.sink.snk = s.sink.snk ++ bits.take n ∧ t.err = some .io ∧
      t.rsp = some (rspWord 3 s.tree.kind s.res) ∧ t.tree = s.tree := by
  obtain ⟨as, b, bs, rfl, rfl⟩ := exists_cut_at hn
  rw [onSink_eq, sinkBits_fails ha hb] at body
  rw [exec_eq, keeps]
  exact ⟨_, runCommand_raise herr body, by rw [List.take_left]; rfl, rfl, rfl, rfl⟩

/-- A command that writes `bits` and has its `n`-th transfer never happen (R64, R135). -/
theorem exec_of_sinkBits_waits (herr : s.err = none) (body : bodyOf i s = onSink (sinkBits bits) s)
    (hn : n < bits.length) (ha : s.sink.accepts n = true) (hb : s.sink.beat n = .never) :
    ∃ t, exec i s = .next t ∧ t.sink.snk = s.sink.snk ++ bits.take n ∧ t.err = none ∧ t.rsp = none ∧
      t.waiting = some .sink := by
  obtain ⟨as, b, bs, rfl, rfl⟩ := exists_cut_at hn
  rw [onSink_eq, sinkBits_waits ha hb] at body
  rw [exec_eq]
  exact ⟨_, runCommand_wait herr body, by rw [List.take_left]; rfl, herr, rfl, rfl⟩

end

/-! ## The source -/

section
variable {k : Source} {n : Nat}

theorem Source.past_next (n : Nat) (k : Source) : (k.past n).next.1 = k.beat n := by
  rw [Source.past, Source.next_with_taken, Source.beat]

theorem Source.past_next_taken (n : Nat) (k : Source) : (k.past n).next.2.taken = k.taken + n := by
  rw [Source.next_taken, Source.past]

theorem srcBit_past_of_end {b : Bool} (h : k.beat n = .valid false true b) :
    srcBit (k.past n) = .raise .corrupt (k.past n).next.2 := by
  simp only [srcBit, Source.past_next, h]

theorem srcBit_past_of_failure {eos b : Bool} (h : k.beat n = .valid true eos b) :
    srcBit (k.past n) = .raise .io (k.past n).next.2 := by
  simp only [srcBit, Source.past_next, h]

theorem srcBit_past_of_never (h : k.beat n = .never) : srcBit (k.past n) = .wait .source (k.past n).next.2 := by
  simp only [srcBit, Source.past_next, h]

/-- A symbol of which some bits, but not all, have been read is read on (R33). -/
theorem srcSymBits_reads_on {bits : List Bool} {v : Sym} (hk : k.gives bits = true) (hn : bits.length < n) :
    ∃ f, srcSymBits n v k = (srcBit (k.past bits.length)).bind f := by
  induction bits generalizing n v k with
  | nil =>
    obtain ⟨n, rfl⟩ : ∃ m, n = m + 1 := ⟨n - 1, by rw [List.length_nil] at hn; omega⟩
    exact ⟨_, rfl⟩
  | cons b bs ih =>
    obtain ⟨n, rfl⟩ : ∃ m, n = m + 1 := ⟨n - 1, by omega⟩
    obtain ⟨h1, h2⟩ := gives_cons.1 hk
    obtain ⟨f, e⟩ := ih (n := n) (v := shiftIn v b) h2 (by simpa using hn)
    exact ⟨f, by rw [srcSymBits, srcBit_of_gives h1, Flow.bind_done, e, Source.past_past, Nat.add_comm,
      List.length_cons]⟩

end

end Sys2Proof.Machine
end

section
/-! ENC and SER of a tree as a value: what is written, and where a transfer that fails or never happens leaves them
(42_encoder.md R80 to R84, 44_tree_serializer.md R90, R91). -/

namespace Sys2Proof.Machine

/-- ENC writes the path to the last leaf of its symbol (R80, R81, R99). -/
theorem encBody_of_lastPath {y : Sym} {s : State} {T : CodeTree} {bits : List Bool} (inv : s.tree.Inv)
    (kind : s.tree.kind = .full) (hT : s.tree.code = some T) (path : T.lastPath y = some bits) :
    encBody y s = onSink (sinkBits bits) s := by
  obtain ⟨a, -, holds⟩ := inv.full kind
  obtain rfl : a.value s.tree.node = T := Option.some.inj ((Tree.code_of_holds holds).symm.trans hT)
  obtain ⟨absent, found⟩ := SlotTree.lastPath_value (n := s.tree.node) (a := a) (y := y)
  cases last : a.lastLeaf s.tree.node y with
  | none => rw [absent last] at path; cases path
  | some h =>
    obtain ⟨bs, hbs, follows⟩ := found h last
    obtain rfl : bs = bits := Option.some.inj (hbs.symm.trans path)
    obtain ⟨-, -, -, -, -, leaf⟩ := id holds
    exact encBody_of_code (.inl kind) ((leaf y).trans last) (Tree.codeOf_holds holds follows)

/-- ENC of the one symbol of the degenerate tree writes the one bit 0 (R84). -/
theorem encBody_of_degenerate {y : Sym} {c : Count} {s : State} (ht : s.tree = Tree.degenerate y c) :
    encBody y s = onSink (sinkBits [false]) s := by
  have leaf : leafAt (Tree.degenerate y c).leaf y = some 0 := if_pos rfl
  refine encBody_of_code (h := 0) (.inr (by rw [ht]; rfl)) (by rw [ht, leaf]) ?_
  rw [ht, Tree.degenerate_codeOf leaf]

/-- Settles O34: ENC hands the sink the bits of the code, on the degenerate tree the one bit 0. -/
theorem encStopsAtABadTransfer : Obligations.EncStopsAtABadTransfer := by
  refine ⟨fun y s T bits n inv idle herr kind hT path hn ha => ?_, fun y c s idle herr ht => ?_⟩
  · have body := encBody_of_lastPath (inv.2 idle) kind hT path
    rw [← kind]
    exact ⟨exec_of_sinkBits_fails (i := .enc y) herr rfl body hn ha,
      exec_of_sinkBits_waits (i := .enc y) herr body hn ha⟩
  · have body := encBody_of_degenerate ht
    have kind : s.tree.kind = .singleton := by rw [ht]; rfl
    rw [← kind]
    constructor
    · intro hb
      simpa using exec_of_sinkBits_fails (i := .enc y) herr rfl body (n := 0) Nat.one_pos rfl hb
    · intro hb
      simpa using exec_of_sinkBits_waits (i := .enc y) herr body (n := 0) Nat.one_pos rfl hb

/-- Nine bits for each leaf and one for each of the internal nodes, which are one fewer (R60, R61). -/
theorem CodeTree.header_length (T : CodeTree) : T.header.length + 1 = 10 * T.leaves := by
  induction T with
  | leaf y => simp [header, leaves]
  | node l r ihl ihr =>
    simp only [header, leaves, List.length_cons, List.length_append]
    omega

/-- Settles O43: SER hands the sink the header of the tree, which accepts it. -/
theorem serWritesTheHeader : Obligations.SerWritesTheHeader := by
  intro s T herr hk hT ha
  refine ⟨?_, T.header_length⟩
  have body : serBody s = .done () { s with sink := s.sink.written T.header } := by
    rw [serBody_of_code hk hT, onSink_eq, sinkBits_of_accepts ha]
  exact runCommand_done herr body

/-- Settles O46: SER hands the sink the bits of the header. -/
theorem serStopsAtABadTransfer : Obligations.SerStopsAtABadTransfer := by
  intro s T n herr _ hk hT hn ha
  have body := serBody_of_code hk hT
  exact ⟨exec_of_sinkBits_fails (i := .ser) herr rfl body hn ha,
    exec_of_sinkBits_waits (i := .ser) herr body hn ha⟩

end Sys2Proof.Machine
end

section
/-! DEC short of a leaf (43_decoder.md R85, R86): the next transfer decides how it ends. -/

namespace Sys2Proof.Machine

theorem CodeTree.isInner_of_follow {T U : CodeTree} {bits : List Bool} (path : T.follow bits = some U)
    (inner : U.isInner = true) : T.isInner = true := by
  cases T with
  | node l r => rfl
  | leaf y =>
    cases bits with
    | nil => obtain rfl := Option.some.inj path; cases inner
    | cons b bs => cases path

/-- At an internal node the tree is read on (R85). -/
theorem CodeTree.read_reads_on {T U : CodeTree} {bits : List Bool} {k : Source} (path : T.follow bits = some U)
    (inner : U.isInner = true) (hk : k.gives bits = true) :
    ∃ f, T.read k = (srcBit (k.past bits.length)).bind f := by
  rw [CodeTree.read_partway path hk]
  cases U with
  | leaf y => cases inner
  | node l r => exact ⟨_, rfl⟩

section
variable {s : State} {T : CodeTree} {k : Source}

theorem decBody_of_read_raise {x : Cause} (hk : s.tree.kind = .full ∨ s.tree.kind = .singleton)
    (hT : s.tree.code = some T) (inner : T.isInner = true) (e : T.read s.source = .raise x k) :
    decBody s = .raise x { s with source := k } := by
  rw [decBody_of_code hk hT inner, onSource_eq, e]; rfl

theorem decBody_of_read_wait {p : Port} (hk : s.tree.kind = .full ∨ s.tree.kind = .singleton)
    (hT : s.tree.code = some T) (inner : T.isInner = true) (e : T.read s.source = .wait p k) :
    decBody s = .wait p { s with source := k } := by
  rw [decBody_of_code hk hT inner, onSource_eq, e]; rfl

end

/-- Settles O41: DEC reads a bit where the path stands, and ends as that transfer does. -/
theorem decStopsAtABadTransfer : Obligations.DecStopsAtABadTransfer := by
  intro s T U bits herr _ hk hT path inner gives
  obtain ⟨f, reads⟩ := CodeTree.read_reads_on path inner gives
  have innerT := CodeTree.isInner_of_follow path inner
  refine ⟨?_, ?_, fun never => ?_⟩
  · rintro ⟨b, atEnd⟩
    rw [srcBit_past_of_end atEnd, Flow.bind_raise] at reads
    exact ⟨_, runCommand_raise herr (decBody_of_read_raise hk hT innerT reads), rfl, rfl, rfl, rfl,
      Source.past_next_taken _ _⟩
  · rintro ⟨eos, b, fails⟩
    rw [srcBit_past_of_failure fails, Flow.bind_raise] at reads
    exact ⟨_, runCommand_raise herr (decBody_of_read_raise hk hT innerT reads), rfl, rfl, rfl, rfl,
      Source.past_next_taken _ _⟩
  · rw [srcBit_past_of_never never, Flow.bind_wait] at reads
    exact ⟨_, runCommand_wait herr (decBody_of_read_wait hk hT innerT reads), herr, rfl, rfl, rfl⟩

end Sys2Proof.Machine
end

section
/-! DES inside a header (45_tree_deserializer.md R95, R100, R103): the next transfer decides how it ends. -/

namespace Sys2Proof.Machine

@[simp] theorem CodeTree.firstNodes_zero (T : CodeTree) : T.firstNodes 0 = ([], 0) := by cases T <;> rfl

/-- Of `n` nodes a tree leaves those it does not have (R100). -/
theorem CodeTree.firstNodes_left (T : CodeTree) (n : Nat) : (T.firstNodes n).2 = n - T.size := by
  induction T generalizing n with
  | leaf y => cases n <;> simp [firstNodes, size]
  | node l r ihl ihr =>
    cases n with
    | zero => simp [firstNodes]
    | succ n => simp only [firstNodes, ihl, ihr, size]; omega

/-- The bits of the first `n` nodes of a tree of at most `n` are its header (R100). -/
theorem CodeTree.firstNodes_header {T : CodeTree} {n : Nat} (h : T.size ≤ n) : (T.firstNodes n).1 = T.header := by
  induction T generalizing n with
  | leaf y =>
    obtain ⟨n, rfl⟩ : ∃ m, n = m + 1 := ⟨n - 1, by simp only [size] at h; omega⟩
    rfl
  | node l r ihl ihr =>
    simp only [size] at h
    obtain ⟨n, rfl⟩ : ∃ m, n = m + 1 := ⟨n - 1, by omega⟩
    simp only [firstNodes, firstNodes_left, header]
    rw [ihl (by omega), ihr (by omega)]

/-- A symbol of which some bits, but not all, have been read is read on while the tree is under construction (R33). -/
theorem readSym_reads_on {p : Tree × Source} {bits : List Bool} (hk : p.2.gives bits = true) (hn : bits.length < 8) :
    ∃ f, readSym p = (readFlag (p.1, p.2.past bits.length)).bind f := by
  obtain ⟨f, e⟩ := srcSymBits_reads_on (v := 0) hk hn
  refine ⟨fun b q => (f b q.2).mapState fun k => (p.1, k), ?_⟩
  rw [readSym, srcSym, e, readFlag]
  cases srcBit (p.2.past bits.length) <;> rfl

theorem readFlag_of_gives {τ : Tree} {b : Bool} {k : Source} (h : k.gives [b] = true) :
    readFlag (τ, k) = .done b (τ, k.past 1) := by
  rw [readFlag, srcBit_of_gives h, Flow.mapState_done]

/-- With a slot left `Alloc()` takes one (R15). -/
theorem Tree.alloc_of_room {t : Tree} {m : Nat} (room : nodeCap - t.node.length = m + 1) :
    ∃ h t', t.alloc = some (h, t') ∧ nodeCap - t'.node.length = m := by
  refine ⟨_, _, Tree.alloc_of_lt (t := t) (by omega), ?_⟩
  rw [List.length_append, List.length_singleton]
  omega

/-- The part of the header of `T` that `Des()` reads with `t` as it stands (R100). -/
def CodeTree.readPart (T : CodeTree) (t : Tree) : List Bool := (T.firstNodes (nodeCap - t.node.length)).1

/-- With some of the bits of the part of a header that it reads behind it, but not all, `Des()` reads on (R95, R100). -/
def CodeTree.DesReadsOn (T : CodeTree) : Prop :=
  ∀ (fuel : Nat) (t : Tree) (k : Source) (bits : List Bool), nodeCap ≤ fuel + t.node.length → bits <+: T.readPart t →
    bits.length < (T.readPart t).length → k.gives bits = true →
    ∃ τ f, desNode fuel (t, k) = (readFlag (τ, k.past bits.length)).bind f

/-- Of a header something is read only while a slot is left (R100). -/
theorem CodeTree.room_of_readPart {T : CodeTree} {t : Tree} {n : Nat} (h : n < (T.readPart t).length) :
    ∃ m, nodeCap - t.node.length = m + 1 := by
  refine Nat.exists_eq_add_one_of_ne_zero fun full => ?_
  rw [readPart, full, firstNodes_zero] at h
  exact Nat.not_lt_zero n h

theorem CodeTree.desReadsOn_leaf (y : Sym) : (CodeTree.leaf y).DesReadsOn := by
  intro fuel t k bits hf hp hl hk
  obtain ⟨m, room⟩ := room_of_readPart hl
  obtain ⟨fuel, rfl⟩ : ∃ n, fuel = n + 1 := ⟨fuel - 1, by omega⟩
  obtain ⟨h, t', taken, -⟩ := Tree.alloc_of_room room
  rw [readPart, room, firstNodes] at hp hl
  rw [desNode, taken]
  cases bits with
  | nil => exact ⟨_, _, rfl⟩
  | cons b bs =>
    obtain ⟨rfl, -⟩ := List.cons_prefix_cons.1 hp
    obtain ⟨flag, rest⟩ := gives_cons.1 hk
    obtain ⟨f, e⟩ := readSym_reads_on (p := (t', k.past 1)) rest (Nat.lt_of_succ_lt_succ hl)
    simp only [readFlag_of_gives flag, Flow.bind_done, if_true]
    rw [e, Flow.bind_assoc, Source.past_past, Nat.add_comm 1]
    exact ⟨_, _, rfl⟩

theorem CodeTree.desReadsOn_node {l r : CodeTree} (readsL : l.DesReadsOn) (readsR : r.DesReadsOn) :
    (CodeTree.node l r).DesReadsOn := by
  intro fuel t k bits hf hp hl hk
  obtain ⟨m, room⟩ := room_of_readPart hl
  obtain ⟨fuel, rfl⟩ : ∃ n, fuel = n + 1 := ⟨fuel - 1, by omega⟩
  obtain ⟨h, t', taken, room'⟩ := Tree.alloc_of_room room
  rw [readPart, room] at hp hl
  simp only [firstNodes, firstNodes_left] at hp hl
  rw [desNode, taken]
  cases bits with
  | nil => exact ⟨_, _, rfl⟩
  | cons b bs =>
    obtain ⟨rfl, within⟩ := List.cons_prefix_cons.1 hp
    obtain ⟨flag, rest⟩ := gives_cons.1 hk
    simp only [readFlag_of_gives flag, Flow.bind_done, Bool.false_eq_true, if_false]
    by_cases inL : bs.length < (l.firstNodes m).1.length
    · have prefixL : bs <+: (l.firstNodes m).1 :=
        List.prefix_of_prefix_length_le within (List.prefix_append _ _) inL.le
      rw [← room'] at prefixL inL
      obtain ⟨τ, f, e⟩ := readsL fuel t' (k.past 1) bs (by omega) prefixL inL rest
      rw [e, Flow.bind_assoc, Source.past_past, Nat.add_comm 1]
      exact ⟨_, _, rfl⟩
    · obtain ⟨cs, rfl⟩ : (l.firstNodes m).1 <+: bs :=
        List.prefix_of_prefix_length_le (List.prefix_append _ _) within (not_lt.1 inL)
      have prefixR := (List.prefix_append_right_inj _).1 within
      have shortR : cs.length < (r.firstNodes (m - l.size)).1.length := by simpa using hl
      have fits : l.size < m := by
        by_contra full
        rw [Nat.sub_eq_zero_of_le (not_lt.1 full), firstNodes_zero] at shortR
        exact Nat.not_lt_zero _ shortR
      rw [firstNodes_header fits.le] at rest ⊢
      rw [Source.gives_past, Bool.and_eq_true] at rest
      obtain ⟨givesL, givesR⟩ := rest
      obtain ⟨a, ta, made, length⟩ := (desNode_header l (fuel := fuel) (t := t') givesL (by omega)).1 (by omega)
      have roomR : nodeCap - ta.node.length = m - l.size := by omega
      rw [← roomR] at prefixR shortR
      obtain ⟨τ, f, e⟩ := readsR fuel ta _ cs (by omega) prefixR shortR givesR
      rw [made, Flow.bind_done, e, Flow.bind_assoc, Source.past_past, Source.past_past, List.length_cons,
        List.length_append, Nat.add_comm 1, Nat.add_right_comm]
      exact ⟨_, _, rfl⟩

theorem CodeTree.desReadsOn (T : CodeTree) : T.DesReadsOn := by
  induction T with
  | leaf y => exact desReadsOn_leaf y
  | node l r ihl ihr => exact desReadsOn_node ihl ihr

/-- With some of the bits read that DES reads of a header, but not all, DES reads on (R95, R100). -/
theorem desTree_reads_on {T : CodeTree} {t : Tree} {k : Source} {bits : List Bool} (hp : bits <+: (T.firstNodes 511).1)
    (hl : bits.length < (T.firstNodes 511).1.length) (hk : k.gives bits = true) :
    ∃ τ f, desTree (t, k) = (readFlag (τ, k.past bits.length)).bind f := by
  obtain ⟨τ, f, e⟩ := T.desReadsOn nodeCap t.discard k bits (Nat.le_add_right _ _) hp hl hk
  exact ⟨τ, _, by rw [desTree, e, Flow.bind_assoc]⟩

section
variable {s : State} {τ : Tree} {k : Source} {f : Bool → Tree × Source → Flow (Tree × Source) Unit}

/-- DES that comes to a transfer which is a fault (R107). -/
theorem exec_des_of_raise {k' : Source} {x : Cause} (herr : s.err = none)
    (reads : desTree (s.tree, s.source) = (readFlag (τ, k)).bind f) (e : srcBit k = .raise x k') :
    exec .des s = .next (takeFault true x { s with tree := τ, source := k' }) := by
  rw [readFlag, e] at reads
  exact runCommand_raise herr (by rw [desBody, onTreeSource_eq, reads]; rfl)

/-- DES that comes to a transfer which never happens (R64, R135). -/
theorem exec_des_of_wait {k' : Source} {p : Port} (herr : s.err = none)
    (reads : desTree (s.tree, s.source) = (readFlag (τ, k)).bind f) (e : srcBit k = .wait p k') :
    exec .des s = .next (State.hold p { s with tree := τ, source := k' }) := by
  rw [readFlag, e] at reads
  exact runCommand_wait herr (by rw [desBody, onTreeSource_eq, reads]; rfl)

end

/-- Settles O52: DES reads a bit where it stands in the header, and ends as that transfer does. -/
theorem desStopsAtABadTransfer : Obligations.DesStopsAtABadTransfer := by
  intro s T bits herr hp hl gives
  obtain ⟨τ, f, reads⟩ := desTree_reads_on (t := s.tree) hp hl gives
  constructor
  · rintro ⟨eos, b, fails⟩
    exact ⟨_, exec_des_of_raise herr reads (srcBit_past_of_failure fails), rfl, rfl, rfl, Source.past_next_taken _ _⟩
  · intro never
    exact ⟨_, exec_des_of_wait herr reads (srcBit_past_of_never never), herr, rfl, rfl, Source.past_next_taken _ _⟩

end Sys2Proof.Machine
end

section
/-! How many bits a command that ends OK has moved (20_memory.md R36, 70_reset_and_hazards.md R137): a tree of at most
511 nodes has at most 256 leaves, and no path in it is longer than 255. -/

namespace Sys2Proof.Machine

/-- Below the root a tree has two more nodes for every bit of a path in it (R20). -/
theorem CodeTree.follow_length_size {T U : CodeTree} {bits : List Bool} (path : T.follow bits = some U) :
    2 * bits.length + 1 ≤ T.size := by
  induction T generalizing bits with
  | leaf y =>
    cases bits with
    | nil => exact le_refl 1
    | cons b bs => cases path
  | node l r ihl ihr =>
    have hl := l.size_pos
    have hr := r.size_pos
    cases bits with
    | nil => exact Nat.le_of_lt_succ (by simp only [size, List.length_nil]; omega)
    | cons b bs =>
      rw [follow] at path
      simp only [size, List.length_cons]
      cases b
      · have := ihl path; omega
      · have := ihr path; omega

theorem CodeTree.header_length_bounds {T : CodeTree} (h : T.size ≤ nodeCap) :
    9 ≤ T.header.length ∧ T.header.length ≤ 2559 := by
  have bits := T.header_length
  have nodes := T.size_leaves
  have leaves := T.leaves_pos
  simp only [nodeCap] at h
  omega

/-- A tree that is read to a leaf has been given the path to it (R86). -/
theorem CodeTree.read_done {T : CodeTree} {y : Sym} {k k' : Source} (e : T.read k = .done y k') :
    ∃ bits, T.follow bits = some (.leaf y) ∧ k' = k.past bits.length := by
  induction T generalizing k with
  | leaf z => cases e; exact ⟨[], rfl, rfl⟩
  | node l r ihl ihr =>
    obtain ⟨b, k1, bit, reads⟩ := Flow.bind_eq_done e
    obtain ⟨-, rfl⟩ := srcBit_done bit
    have below : ∃ bs, (if b then r else l).follow bs = some (.leaf y) ∧ k' = (k.past 1).past bs.length := by
      cases b
      · exact ihl reads
      · exact ihr reads
    obtain ⟨bs, path, rfl⟩ := below
    exact ⟨b :: bs, path, by rw [Source.past_past, Nat.add_comm, List.length_cons]⟩

theorem SlotTree.size_value (n : Arena) (a : SlotTree) : (a.value n).size = a.slots.length := by
  induction a with
  | leaf h => rfl
  | node h l r ihl ihr => simp only [value, CodeTree.size, slots, List.length_cons, List.length_append, ihl, ihr]; omega

theorem Tree.holds.size_le {t : Tree} {a : SlotTree} (h : t.holds a) : (a.value t.node).size ≤ nodeCap := by
  obtain ⟨-, -, fills, cap, -⟩ := h
  rw [SlotTree.size_value, fills]
  exact cap

/-- A tree the invariant allows has at most 511 nodes as a value (R12, R20). -/
theorem Tree.Inv.size_le {t : Tree} {T : CodeTree} (h : t.Inv) (hk : t.kind ≠ .none) (hT : t.code = some T) :
    T.size ≤ nodeCap := by
  have held : ∀ a : SlotTree, t.holds a → T.size ≤ nodeCap := fun a holds => by
    obtain rfl := Option.some.inj ((Tree.code_of_holds holds).symm.trans hT)
    exact holds.size_le
  cases kind : t.kind with
  | none => exact absurd kind hk
  | full => obtain ⟨a, -, holds⟩ := h.full kind; exact held a holds
  | leafroot => obtain ⟨a, holds⟩ := h.leafroot kind; exact held a holds
  | singleton =>
    obtain ⟨y, c, rfl⟩ := h.singleton kind
    obtain rfl := Option.some.inj ((Tree.degenerate_code y c).symm.trans hT)
    exact (by decide : 3 ≤ 511)

/-! ## The pseudocode that comes to its end -/

theorem Flow.mapState_eq_done {σ τ α : Type} {f : σ → τ} {m : Flow σ α} {a : α} {t : τ}
    (e : m.mapState f = .done a t) : ∃ s, m = .done a s ∧ f s = t := by
  cases m with
  | done b s => cases e; exact ⟨s, rfl, rfl⟩
  | raise x s => cases e
  | wait p s => cases e
  | broken => cases e

theorem Kind.full_or_singleton {k : Kind} (none : k ≠ .none) (leafroot : k ≠ .leafroot) :
    k = .full ∨ k = .singleton := by
  cases k with
  | none => exact absurd rfl none
  | leafroot => exact absurd rfl leafroot
  | full => exact .inl rfl
  | singleton => exact .inr rfl

section
variable {s u : State}

theorem onSink_sinkBits_done {bits : List Bool} (e : onSink (sinkBits bits) s = .done () u) :
    u.sink = s.sink.written bits := by
  obtain ⟨k, writes, rfl⟩ := Flow.mapState_eq_done e
  exact (sinkBits_done writes).2

theorem encBody_done {y : Sym} (inv : s.tree.Inv) (e : encBody y s = .done () u) :
    ∃ bits : List Bool, 1 ≤ bits.length ∧ bits.length ≤ 255 ∧ u.sink = s.sink.written bits := by
  have usable : s.tree.kind = .full ∨ s.tree.kind = .singleton := by
    refine Kind.full_or_singleton (fun kind => ?_) (fun kind => ?_)
    · rw [encBody_of_none kind] at e; cases e
    · rw [encBody_of_leafroot kind] at e; cases e
  cases leaf : leafAt s.tree.leaf y with
  | none => rw [encBody_of_absent usable leaf] at e; cases e
  | some h =>
    obtain ⟨bits, code, low, high⟩ := inv.codeOf_bounded usable leaf
    rw [encBody_of_code usable leaf code] at e
    exact ⟨bits, low, high, onSink_sinkBits_done e⟩

theorem decBody_done (inv : s.tree.Inv) (e : decBody s = .done () u) :
    ∃ n, 1 ≤ n ∧ n ≤ 255 ∧ u.source = s.source.past n := by
  have usable : s.tree.kind = .full ∨ s.tree.kind = .singleton := by
    refine Kind.full_or_singleton (fun kind => ?_) (fun kind => ?_)
    · rw [decBody_of_none kind] at e; cases e
    · rw [decBody_of_leafroot kind] at e; cases e
  have holdsTree : s.tree.kind ≠ .none := by rcases usable with h | h <;> rw [h] <;> nofun
  obtain ⟨T, hT, inner⟩ := inv.code holdsTree
  rw [decBody_of_code usable hT (inner usable)] at e
  obtain ⟨y, v, source, ended⟩ := Flow.bind_eq_done e
  obtain ⟨k, reads, rfl⟩ := Flow.mapState_eq_done source
  cases ended
  obtain ⟨bits, path, rfl⟩ := CodeTree.read_done reads
  have short := (CodeTree.follow_length_size path).trans (inv.size_le holdsTree hT)
  refine ⟨bits.length, List.length_pos_iff.2 fun nil => ?_, by simp only [nodeCap] at short; omega, rfl⟩
  subst nil
  obtain rfl := Option.some.inj path
  cases inner usable

theorem serBody_done (inv : s.tree.Inv) (e : serBody s = .done () u) :
    ∃ T : CodeTree, T.size ≤ nodeCap ∧ u.sink = s.sink.written T.header := by
  by_cases kind : s.tree.kind = .none
  · rw [serBody_of_none kind] at e; cases e
  · obtain ⟨T, hT, -⟩ := inv.code kind
    rw [serBody_of_code kind hT] at e
    exact ⟨T, inv.size_le kind hT, onSink_sinkBits_done e⟩

theorem desBody_done (e : desBody s = .done () u) :
    ∃ T : CodeTree, T.size ≤ nodeCap ∧ u.source = s.source.past T.header.length := by
  obtain ⟨⟨τ, k⟩, reads, rfl⟩ := Flow.mapState_eq_done e
  obtain ⟨T, -, -, past, size, -⟩ := desTree_done reads
  exact ⟨T, size, past⟩

end

/-- A command that ends OK is pseudocode that came to its end (R106, R107). -/
theorem exec_ended_ok {i : Instr} {s t : State} (herr : s.err = none) (e : exec i s = .next t) (ok : t.err = none)
    (idle : t.waiting = none) : ∃ u, bodyOf i s = .done () u ∧ t.sink = u.sink ∧ t.source = u.source := by
  rcases exec_next e with ⟨locked, -⟩ | ⟨-, u, -, ⟨body, rfl⟩ | ⟨x, -, rfl⟩ | ⟨p, -, rfl⟩⟩
  · rw [locked_of_none herr] at locked; cases locked
  · exact ⟨u, body, rfl, rfl⟩
  · cases ok
  · cases idle

theorem Sink.written_length (bits : List Bool) (k : Sink) :
    (k.written bits).snk.length = k.snk.length + bits.length := by
  rw [Sink.written, List.length_append]

theorem Source.past_taken (n : Nat) (k : Source) : (k.past n).taken = k.taken + n := rfl

/-- Settles O58: ENC writes a code, DEC reads a path, SER and DES move a header. -/
theorem transfersAreBounded : Obligations.TransfersAreBounded := by
  intro i s t inv idle herr e ok ended
  obtain ⟨u, body, sink, source⟩ := exec_ended_ok herr e ok ended
  have tree := inv.2 idle
  rw [sink, source]
  refine ⟨?_, ?_, ?_, ?_⟩
  · rintro y rfl
    obtain ⟨bits, low, high, written⟩ := encBody_done tree body
    rw [written, Sink.written_length]
    omega
  · rintro rfl
    obtain ⟨n, low, high, past⟩ := decBody_done tree body
    rw [past, Source.past_taken]
    omega
  · rintro rfl
    obtain ⟨T, size, written⟩ := serBody_done tree body
    have := CodeTree.header_length_bounds size
    rw [written, Sink.written_length]
    omega
  · rintro rfl
    obtain ⟨T, size, past⟩ := desBody_done body
    have := CodeTree.header_length_bounds size
    rw [past, Source.past_taken]
    omega

end Sys2Proof.Machine
end

section
/-! The fields of a word and the word of some fields are each other's inverse (30_encoding.md R50, R57). -/

namespace Sys2Proof

/-- A field that stands between two others is read back where it was put. -/
theorem extractLsb'_append_append {a b c : Nat} (hi : BitVec a) (mid : BitVec b) (lo : BitVec c) :
    (hi ++ mid ++ lo).extractLsb' c b = mid := by
  rw [BitVec.extractLsb'_append_eq_of_le le_rfl, Nat.sub_self, BitVec.extractLsb'_append_eq_right]

/-- A field that does not reach into the lowest one is read from what stands above that. -/
theorem extractLsb'_append_add {a b len : Nat} (start : Nat) (hi : BitVec a) (lo : BitVec b) :
    (hi ++ lo).extractLsb' (start + b) len = hi.extractLsb' start len := by
  rw [BitVec.extractLsb'_append_eq_of_le (Nat.le_add_left b start), Nat.add_sub_cancel]

@[simp] theorem fieldsOf_packFields (f : Fields) : fieldsOf (packFields f) = f := by
  have op : (f.op ++ f.mbz ++ f.sym ++ f.data).extractLsb' 44 4 = f.op :=
    (extractLsb'_append_add 12 _ _).trans ((extractLsb'_append_add 4 _ _).trans BitVec.extractLsb'_append_eq_left)
  have mbz : (f.op ++ f.mbz ++ f.sym ++ f.data).extractLsb' 40 4 = f.mbz :=
    (extractLsb'_append_add 8 _ _).trans (extractLsb'_append_append _ _ _)
  have sym : (f.op ++ f.mbz ++ f.sym ++ f.data).extractLsb' 32 8 = f.sym := extractLsb'_append_append _ _ _
  have data : (f.op ++ f.mbz ++ f.sym ++ f.data).extractLsb' 0 32 = f.data := BitVec.extractLsb'_append_eq_right
  exact congr (congr (congr (congrArg Fields.mk op) mbz) sym) data

@[simp] theorem packFields_fieldsOf (w : CmdWord) : packFields (fieldsOf w) = w := by
  have upper : w.extractLsb' 44 4 ++ w.extractLsb' 40 4 = w.extractLsb' 40 8 :=
    BitVec.extractLsb'_append_extractLsb'_eq_extractLsb' rfl
  have operands : w.extractLsb' 40 8 ++ w.extractLsb' 32 8 = w.extractLsb' 32 16 :=
    BitVec.extractLsb'_append_extractLsb'_eq_extractLsb' rfl
  have whole : w.extractLsb' 32 16 ++ w.extractLsb' 0 32 = w.extractLsb' 0 48 :=
    BitVec.extractLsb'_append_extractLsb'_eq_extractLsb' rfl
  calc packFields (fieldsOf w)
      = w.extractLsb' 44 4 ++ w.extractLsb' 40 4 ++ w.extractLsb' 32 8 ++ w.extractLsb' 0 32 := rfl
    _ = w.extractLsb' 0 48 := by rw [upper, operands, whole]
    _ = w := BitVec.extractLsb'_eq_self

theorem fieldsOf_inj {w v : CmdWord} : fieldsOf w = fieldsOf v ↔ w = v :=
  (Function.LeftInverse.injective packFields_fieldsOf).eq_iff

/-- `AND` with a mask acts on each field (R53). -/
theorem fieldsOf_and (w v : CmdWord) :
    fieldsOf (w &&& v) =
      { op := (fieldsOf w).op &&& (fieldsOf v).op, mbz := (fieldsOf w).mbz &&& (fieldsOf v).mbz,
        sym := (fieldsOf w).sym &&& (fieldsOf v).sym, data := (fieldsOf w).data &&& (fieldsOf v).data } := by
  simp only [fieldsOf, BitVec.extractLsb'_and]

end Sys2Proof
end

section
/-! Which fields are those of a command (30_encoding.md R52 to R56): the decoder accepts exactly what the encoder makes,
and exactly what R52 allows. -/

namespace Sys2Proof

theorem decodeBare_eq_ok {i j : Instr} {f : Fields} :
    decodeBare i f = .ok j ↔ f.sym = 0 ∧ f.data = 0 ∧ i = j := by
  unfold decodeBare
  split
  · next sym => exact ⟨nofun, fun ⟨symClear, _⟩ => absurd symClear sym⟩
  · split
    · next data => exact ⟨nofun, fun ⟨_, dataClear, _⟩ => absurd dataClear data⟩
    · next sym data =>
      rw [Except.ok.injEq]
      exact ⟨fun eq => ⟨not_not.1 sym, not_not.1 data, eq⟩, fun ⟨_, _, eq⟩ => eq⟩

theorem decodeFields_fieldsOfInstr (i : Instr) : decodeFields (fieldsOfInstr i) = .ok i := by
  cases i <;> rfl

/-- Fields that decode to a command are the ones it is encoded with: each arm of R56 has fixed every field the command
does not use. -/
theorem eq_fieldsOfInstr_of_decodeFields {f : Fields} {i : Instr} (decoded : decodeFields f = .ok i) :
    f = fieldsOfInstr i := by
  obtain ⟨op, mbz, sym, data⟩ := f
  unfold decodeFields at decoded
  split at decoded
  · cases decoded
  next mbzClear =>
  obtain rfl : mbz = 0 := not_not.1 mbzClear
  dsimp only at decoded
  split at decoded
  -- SETF
  case h_1 => cases decoded; rfl
  -- ENC
  case h_4 =>
    split at decoded
    · cases decoded
    · next dataClear =>
      obtain rfl : data = 0 := not_not.1 dataClear
      cases decoded
      rfl
  -- a reserved opcode
  case h_8 => cases decoded
  -- the five commands without operands
  all_goals
    obtain ⟨rfl, rfl, rfl⟩ := decodeBare_eq_ok.1 decoded
    rfl

theorem decodeFields_eq_ok {f : Fields} {i : Instr} : decodeFields f = .ok i ↔ f = fieldsOfInstr i :=
  ⟨eq_fieldsOfInstr_of_decodeFields, fun h => h ▸ decodeFields_fieldsOfInstr i⟩

theorem decode_eq_ok {w : CmdWord} {i : Instr} : decode w = .ok i ↔ fieldsOf w = fieldsOfInstr i := decodeFields_eq_ok

@[simp] theorem fieldsOf_encode (i : Instr) : fieldsOf (encode i) = fieldsOfInstr i := fieldsOf_packFields _

/-- Settles O2: the word's fields are the command's, which decode to it. -/
theorem decodeUndoesEncode : Obligations.DecodeUndoesEncode := fun i => decode_eq_ok.2 (fieldsOf_encode i)

/-- Each command has one word (R52, R56). -/
theorem decode_eq_ok_iff_encode {w : CmdWord} {i : Instr} : decode w = .ok i ↔ w = encode i := by
  rw [decode_eq_ok, ← fieldsOf_encode, fieldsOf_inj]

/-- Settles O3: the word is the one its command is encoded as. -/
theorem decodedWordIsItsEncoding : Obligations.DecodedWordIsItsEncoding :=
  fun _ _ decoded => (decode_eq_ok_iff_encode.1 decoded).symm

/-- Settles O1: each word by evaluating the decoder on it. -/
theorem writtenOutWordsDecode : Obligations.WrittenOutWordsDecode := by
  unfold Obligations.WrittenOutWordsDecode
  decide

/-! ## The rows of the opcode table -/

/-- The mask of a command without operands compares the word whole (R53). -/
theorem decode_eq_ok_iff_whole_word (w : CmdWord) (i : Instr) :
    decode w = .ok i ↔ w &&& 0xFFFFFFFFFFFF = encode i := by
  rw [decode_eq_ok_iff_encode, show (0xFFFFFFFFFFFF : CmdWord) = BitVec.allOnes 48 from rfl, BitVec.and_allOnes]

/-- SETF's mask leaves `op` and `mbz` (R53). -/
theorem decode_setf_iff_mask (w : CmdWord) :
    (∃ y c, decode w = .ok (.setf y c)) ↔ w &&& 0xFF0000000000 = 0x100000000000 := by
  have mask : fieldsOf 0xFF0000000000 =
    { op := BitVec.allOnes 4, mbz := BitVec.allOnes 4, sym := 0#8, data := 0#32 } := rfl
  have row : fieldsOf 0x100000000000 = { op := 1, mbz := 0, sym := 0, data := 0 } := rfl
  rw [← fieldsOf_inj, fieldsOf_and, mask, row]
  simp only [decode_eq_ok, fieldsOfInstr]
  cases fieldsOf w
  simp only [Fields.mk.injEq, BitVec.and_allOnes, BitVec.and_zero]
  simp

/-- ENC's mask leaves every field but `sym` (R53). -/
theorem decode_enc_iff_mask (w : CmdWord) :
    (∃ y, decode w = .ok (.enc y)) ↔ w &&& 0xFF00FFFFFFFF = 0x400000000000 := by
  have mask : fieldsOf 0xFF00FFFFFFFF =
    { op := BitVec.allOnes 4, mbz := BitVec.allOnes 4, sym := 0#8, data := BitVec.allOnes 32 } := rfl
  have row : fieldsOf 0x400000000000 = { op := 4, mbz := 0, sym := 0, data := 0 } := rfl
  rw [← fieldsOf_inj, fieldsOf_and, mask, row]
  simp only [decode_eq_ok, fieldsOfInstr]
  cases fieldsOf w
  simp only [Fields.mk.injEq, BitVec.and_allOnes, BitVec.and_zero]
  simp

/-- Settles O4: a row without operands is one word; SETF and ENC are compared field by field. -/
theorem wordMatchesItsRow : Obligations.WordMatchesItsRow := fun w =>
  ⟨decode_setf_iff_mask w, decode_eq_ok_iff_whole_word w .clrf, decode_eq_ok_iff_whole_word w .build,
    decode_enc_iff_mask w, decode_eq_ok_iff_whole_word w .dec, decode_eq_ok_iff_whole_word w .ser,
    decode_eq_ok_iff_whole_word w .des⟩

/-! ## Illegal words -/

theorem fieldsOfInstr_legal : ∀ i : Instr, (fieldsOfInstr i).legal = true
  | .setf sym count => Laws.EncodeLegal.setf sym count
  | .clrf => Laws.EncodeLegal.clrf
  | .build => Laws.EncodeLegal.build
  | .enc sym => Laws.EncodeLegal.enc sym
  | .dec => Laws.EncodeLegal.dec
  | .ser => Laws.EncodeLegal.ser
  | .des => Laws.EncodeLegal.des

/-- Legal fields have one of the seven opcodes, and are then a command's (R52, R53). -/
theorem exists_fieldsOfInstr_of_legal {f : Fields} (legal : f.legal = true) : ∃ i, f = fieldsOfInstr i := by
  have seven : ∀ op : BitVec 4, 1 ≤ op.toNat → op.toNat ≤ 7 →
      op = 1 ∨ op = 2 ∨ op = 3 ∨ op = 4 ∨ op = 5 ∨ op = 6 ∨ op = 7 := by decide
  obtain ⟨op, mbz, sym, data⟩ := f
  simp only [Fields.legal, Fields.opKnown, Fields.mbzClear, Fields.symClear, Fields.dataClear, Fields.usesSym,
    Fields.usesData, Bool.and_eq_true, Bool.or_eq_true, decide_eq_true_eq, beq_iff_eq] at legal
  obtain ⟨⟨⟨⟨low, high⟩, rfl⟩, symClear⟩, dataClear⟩ := legal
  have bare : op ≠ 1 → op ≠ 4 → sym = 0 ∧ data = 0 := fun notSetf notEnc =>
    ⟨symClear.resolve_left (not_or.2 ⟨notSetf, notEnc⟩), dataClear.resolve_left notSetf⟩
  obtain rfl | rfl | rfl | rfl | rfl | rfl | rfl := seven op low high
  · exact ⟨.setf sym data, rfl⟩
  · obtain ⟨rfl, rfl⟩ := bare (by decide) (by decide)
    exact ⟨.clrf, rfl⟩
  · obtain ⟨rfl, rfl⟩ := bare (by decide) (by decide)
    exact ⟨.build, rfl⟩
  · obtain rfl : data = 0 := dataClear.resolve_left (by decide)
    exact ⟨.enc sym, rfl⟩
  · obtain ⟨rfl, rfl⟩ := bare (by decide) (by decide)
    exact ⟨.dec, rfl⟩
  · obtain ⟨rfl, rfl⟩ := bare (by decide) (by decide)
    exact ⟨.ser, rfl⟩
  · obtain ⟨rfl, rfl⟩ := bare (by decide) (by decide)
    exact ⟨.des, rfl⟩

/-- A word is a command exactly when its fields are legal (R54, R56). -/
theorem exists_decode_ok_iff_legal {w : CmdWord} : (∃ i, decode w = .ok i) ↔ (fieldsOf w).legal = true := by
  simp only [decode_eq_ok]
  exact ⟨fun ⟨i, fields⟩ => fields ▸ fieldsOfInstr_legal i, exists_fieldsOfInstr_of_legal⟩

theorem exists_decode_error_iff_illegal {w : CmdWord} :
    (∃ e, decode w = .error e) ↔ (fieldsOf w).legal = false := by
  rw [← Bool.not_eq_true, ← exists_decode_ok_iff_legal]
  cases decode w <;> simp

end Sys2Proof

namespace Sys2Proof.Machine

/-- A word that is no command is answered without an instruction (R54). -/
theorem step_command_of_decode_error {s : State} {w : CmdWord} {rest : List HostInput} {e : Illegal}
    (host : s.host = .command w :: rest) (idle : s.waiting = none) (illegal : decode w = .error e) :
    step s = .next (illegalWord { s with host := rest }) := by
  simp only [step, fetch, host, idle, illegal]

/-- Settles O5: what does not decode is what R52 forbids, and an unlocked block takes ILLEGAL for it. -/
theorem illegalWordsFault : Obligations.IllegalWordsFault := by
  refine ⟨fun w => exists_decode_error_iff_illegal, fun s w rest host idle herr illegal => ?_⟩
  obtain ⟨e, undecoded⟩ := exists_decode_error_iff_illegal.2 illegal
  have unlocked : ({ s with host := rest } : State).locked = false := locked_of_none herr
  rw [step_command_of_decode_error host idle undecoded, illegalWord, unlocked]
  rfl

end Sys2Proof.Machine
end

section
/-! Commands as they are written down (30_encoding.md R59). -/

namespace Sys2Proof

theorem AsmCommand.instr_of_illFormed {a : AsmCommand} (h : a.wellFormed = false) : a.instr = none := by
  simp [AsmCommand.instr, h]

theorem AsmCommand.wellFormed_setf {y c : Nat} :
    (AsmCommand.setf y c).wellFormed = true ↔ y ≤ 255 ∧ c ≤ 4294967295 := by
  simp [AsmCommand.wellFormed]

theorem AsmCommand.wellFormed_enc {y : Nat} : (AsmCommand.enc y).wellFormed = true ↔ y ≤ 255 := by
  simp [AsmCommand.wellFormed]

theorem AsmCommand.instr_setf {y c : Nat} (h : (AsmCommand.setf y c).wellFormed = true) :
    (AsmCommand.setf y c).instr = some (.setf (BitVec.ofNat 8 y) (BitVec.ofNat 32 c)) := if_pos h

theorem AsmCommand.instr_enc {y : Nat} (h : (AsmCommand.enc y).wellFormed = true) :
    (AsmCommand.enc y).instr = some (.enc (BitVec.ofNat 8 y)) := if_pos h

theorem toNat_ofNat_sym {y : Nat} (h : y ≤ 255) : (BitVec.ofNat 8 y).toNat = y :=
  (BitVec.toNat_ofNat y 8).trans (Nat.mod_eq_of_lt (by omega))

/-- Settles O7: an operand in range is the value of its field, and one out of range is ill-formed. -/
theorem writtenOperandsInRange : Obligations.WrittenOperandsInRange := by
  refine ⟨fun y c hy hc => ?_, fun y c out => ?_, fun y hy => ?_, fun y out => ?_⟩
  · exact ⟨_, _, AsmCommand.instr_setf (AsmCommand.wellFormed_setf.2 ⟨hy, hc⟩), toNat_ofNat_sym hy,
      (BitVec.toNat_ofNat c 32).trans (Nat.mod_eq_of_lt (by omega))⟩
  · refine AsmCommand.instr_of_illFormed ?_
    rw [← Bool.not_eq_true, AsmCommand.wellFormed_setf]
    omega
  · exact ⟨_, AsmCommand.instr_enc (AsmCommand.wellFormed_enc.2 hy), toNat_ofNat_sym hy⟩
  · refine AsmCommand.instr_of_illFormed ?_
    rw [← Bool.not_eq_true, AsmCommand.wellFormed_enc]
    omega

end Sys2Proof
end

section
/-! What answers an accepted word (30_encoding.md R57, R64; 60_exceptions.md R106, R107), and a command held by a stream
(70_reset_and_hazards.md R135). -/

namespace Sys2Proof.Machine

/-- The response is one that shows `KIND` and `RES` as they are (R57). -/
def State.Answered (t : State) : Prop := ∃ st, t.rsp = some (rspWord st t.tree.kind t.res)

theorem respond_answered (st : BitVec 4) (s : State) : (s.respond st).Answered := ⟨st, rfl⟩

theorem lockedAnswer_answered (s : State) : (lockedAnswer s).Answered := respond_answered _ _

theorem takeFault_answered (discards : Bool) (x : Cause) (s : State) : (takeFault discards x s).Answered :=
  respond_answered _ _

theorem illegalWord_answered (s : State) : (illegalWord s).Answered := by
  rcases illegalWord_cases s with h | h <;> rw [h]
  · exact lockedAnswer_answered s
  · exact takeFault_answered _ _ s

/-- A command ends with a response, or a stream holds it (R64, R106). -/
theorem exec_answered_or_held {i : Instr} {s t : State} (e : exec i s = .next t) :
    (t.Answered ∧ t.waiting = s.waiting) ∨ ∃ p u, Kept s u ∧ t = u.hold p := by
  rcases exec_next e with ⟨-, rfl⟩ | ⟨-, u, kept, ⟨-, rfl⟩ | ⟨x, -, rfl⟩ | ⟨p, -, rfl⟩⟩
  · exact .inl ⟨lockedAnswer_answered s, rfl⟩
  · exact .inl ⟨respond_answered _ u, kept.waiting⟩
  · exact .inl ⟨takeFault_answered _ x u, kept.waiting⟩
  · exact .inr ⟨p, u, kept, rfl⟩

theorem step_command_answered {s t : State} {w : CmdWord} {rest : List HostInput} (host : s.host = .command w :: rest)
    (e : step s = .next t) (ended : t.waiting = none) : t.Answered := by
  obtain ⟨rest', taken, -⟩ | ⟨taken, -⟩ | ⟨w', rest', -, -, ⟨i, -, run⟩ | ⟨x, -, rfl⟩⟩ |
    ⟨w', rest', taken, -⟩ := step_next e
  · rw [host] at taken; cases taken
  · rw [host] at taken; cases taken
  · rcases exec_answered_or_held run with ⟨answered, -⟩ | ⟨p, u, -, rfl⟩
    · exact answered
    · cases ended
  · exact illegalWord_answered _
  · rw [host] at taken; cases taken

/-- The parts of a response word (R57). -/
theorem rspWord_parts (st : BitVec 4) (kind : Kind) (res : Sym) :
    (rspWord st kind res).extractLsb' 12 4 = st ∧ (rspWord st kind res).extractLsb' 10 2 = kind.bits ∧
      (rspWord st kind res).extractLsb' 8 2 = 0 ∧ (rspWord st kind res).extractLsb' 0 8 = res := by
  have layout : rspWord st kind res = st ++ kind.bits ++ 0#2 ++ res := rfl
  rw [layout]
  refine ⟨?_, ?_, extractLsb'_append_append _ _ _, BitVec.extractLsb'_append_eq_right⟩
  · exact (extractLsb'_append_add 4 _ _).trans ((extractLsb'_append_add 2 _ _).trans BitVec.extractLsb'_append_eq_left)
  · exact (extractLsb'_append_add 2 _ _).trans (extractLsb'_append_append _ _ _)

/-- Settles O9: every way an accepted word can end but being held responds, with the word R57 lays out. -/
theorem everyWordIsAnswered : Obligations.EveryWordIsAnswered :=
  ⟨fun _ _ _ _ host _ e ended => step_command_answered host e ended, rspWord_parts⟩

/-- A held block takes nothing but reset (R64, R135). -/
theorem fetch_of_held {s : State} {p : Port} (held : s.waiting = some p)
    (noReset : ∀ rest, s.host ≠ .reset :: rest) :
    fetch s = .stop (stalledAt p) := by
  rcases host : s.host with _ | ⟨(w | _ | w), rest⟩
  case cons.reset => exact absurd host (noReset rest)
  all_goals simp only [fetch, host, held]

theorem step_of_reset {s : State} {rest : List HostInput} (host : s.host = .reset :: rest) :
    step s = .next ({ s with host := rest } : State).resetBlock := by
  simp only [step, fetch, host]

/-- Settles O11: a command not answered is held; only reset is then taken, and leaves the block ready. -/
theorem heldCommandHangs : Obligations.HeldCommandHangs := by
  refine ⟨fun i s t herr idle e held => ?_, fun s p held noReset => ?_, fun s p rest _ host => ?_⟩
  · rcases exec_answered_or_held e with ⟨-, waiting⟩ | ⟨p, u, kept, rfl⟩
    · exact absurd (waiting.trans idle) held
    · exact ⟨rfl, kept.err.trans herr, rfl⟩
  · simp only [step, fetch_of_held held noReset]
  · exact ⟨_, step_of_reset host, rfl, rfl, rfl⟩

end Sys2Proof.Machine
end

section
/-! ENC on a FULL tree whose sink takes the whole code (42_encoder.md R80, R81). -/

namespace Sys2Proof.Machine

/-- Settles O30: ENC hands the sink the path to the symbol's last leaf, and the sink accepts it. -/
theorem encWritesThePath : Obligations.EncWritesThePath := by
  intro y s T bits inv idle herr kind hT path accepts
  have body : bodyOf (.enc y) s = .done () { s with sink := s.sink.written bits } := by
    rw [bodyOf, encBody_of_lastPath (inv.2 idle) kind hT path, onSink_eq, sinkBits_of_accepts accepts]
  rw [exec_eq, runCommand_done herr body, ← kind]
  rfl

end Sys2Proof.Machine
end

section
/-! SETF and CLRF on an unlocked block (40_table_commands.md R65, R66). -/

namespace Sys2Proof.Machine

/-- A command on an unlocked block whose pseudocode ends is answered OK (R106). -/
theorem exec_of_bodyOf_done {i : Instr} {s u : State} (herr : s.err = none) (body : bodyOf i s = .done () u) :
    exec i s = .next (u.respond stOk) := by
  rw [exec_eq, runCommand_done herr body]

/-- Settles O20: the next state is the write to `FREQ` and the response, and a write to one entry aliases no other. -/
theorem setfWritesOneEntry : Obligations.SetfWritesOneEntry := by
  intro y c s herr
  exact ⟨State.respond stOk { s with freq := freqPut s.freq y c }, exec_of_bodyOf_done herr rfl,
    freqAt_freqPut_self s.freq y c, fun _ other => freqAt_freqPut_ne s.freq c other, rfl, herr, rfl⟩

/-- Settles O21: the next state is the empty table, in which every entry reads 0, and the response. -/
theorem clrfClearsTheTable : Obligations.ClrfClearsTheTable := by
  intro s herr
  exact ⟨State.respond stOk { s with freq := [] }, exec_of_bodyOf_done herr rfl, freqAt_nil, rfl, herr, rfl⟩

end Sys2Proof.Machine
end

section
/-! ENC and then DEC on one tree (30_encoding.md R67): the bits ENC writes lead DEC to the symbol's leaf. -/

namespace Sys2Proof.Machine

/-- The path to the last leaf of a symbol ends at a leaf of that symbol (R99). -/
theorem CodeTree.follow_of_lastPath {T : CodeTree} {y : Sym} {bits : List Bool} (path : T.lastPath y = some bits) :
    T.follow bits = some (.leaf y) := by
  induction T generalizing bits with
  | leaf z =>
    obtain ⟨rfl, rfl⟩ : z = y ∧ [] = bits := by simpa [lastPath] using path
    rfl
  | node l r ihl ihr =>
    rw [lastPath] at path
    cases right : r.lastPath y with
    | some bs =>
      obtain rfl : true :: bs = bits := by simpa [right] using path
      exact ihr right
    | none =>
      obtain ⟨bs, left, rfl⟩ : ∃ bs, l.lastPath y = some bs ∧ false :: bs = bits := by simpa [right] using path
      exact ihl left

/-- The code ENC finds for a symbol leads, in the tree as a value, to a leaf of that symbol (R62, R81, R84). -/
theorem Tree.Inv.codeOf_follow {t : Tree} (h : t.Inv) (hk : t.kind = .full ∨ t.kind = .singleton) {T : CodeTree}
    (hT : t.code = some T) {y : Sym} {g : Handle} (hl : leafAt t.leaf y = some g) :
    ∃ bits, codeOf t.node g = some bits ∧ T.follow bits = some (.leaf y) := by
  rcases hk with kind | kind
  · obtain ⟨a, -, holds⟩ := h.full kind
    obtain rfl : a.value t.node = T := Option.some.inj ((Tree.code_of_holds holds).symm.trans hT)
    obtain ⟨-, -, -, -, -, leaf⟩ := id holds
    obtain ⟨bits, path, follows⟩ := SlotTree.lastPath_value.2 g ((leaf y).symm.trans hl)
    exact ⟨bits, Tree.codeOf_holds holds follows, CodeTree.follow_of_lastPath path⟩
  · obtain ⟨z, c, rfl⟩ := h.singleton kind
    obtain rfl : CodeTree.node (.leaf z) (.leaf z) = T := Option.some.inj ((Tree.degenerate_code z c).symm.trans hT)
    have leaf : leafAt (Tree.degenerate z c).leaf y = if z = y then some 0 else none := rfl
    obtain rfl : z = y := by
      by_contra other
      rw [leaf, if_neg other] at hl
      cases hl
    exact ⟨[false], Tree.degenerate_codeOf hl, rfl⟩

/-- ENC on a sink that accepts the whole code of its symbol (R80, R81, R84). -/
theorem exec_enc_of_accepts {y : Sym} {s : State} {h : Handle} {bits : List Bool} (herr : s.err = none)
    (hk : s.tree.kind = .full ∨ s.tree.kind = .singleton) (hl : leafAt s.tree.leaf y = some h)
    (hc : codeOf s.tree.node h = some bits) (accepts : s.sink.accepts bits.length = true) :
    exec (.enc y) s = .next (State.respond stOk { s with sink := s.sink.written bits }) :=
  exec_of_bodyOf_done herr (by rw [bodyOf, encBody_of_code hk hl hc, onSink_eq, sinkBits_of_accepts accepts])

/-- DEC on a source that gives a path to a leaf (R85, R86). -/
theorem exec_dec_of_gives {y : Sym} {s : State} {T : CodeTree} {bits : List Bool} (herr : s.err = none)
    (hk : s.tree.kind = .full ∨ s.tree.kind = .singleton) (hT : s.tree.code = some T) (inner : T.isInner = true)
    (path : T.follow bits = some (.leaf y)) (gives : s.source.gives bits = true) :
    exec .dec s = .next (State.respond stOk { s with source := s.source.past bits.length, res := y }) :=
  exec_of_bodyOf_done herr (by
    rw [bodyOf, decBody_of_code hk hT inner, onSource_eq, CodeTree.read_of_gives path gives, Flow.bind_done])

/-- Settles O56: the code is a path of the tree as a value to a leaf of the symbol, and DEC reads that path. -/
theorem encThenDecGivesTheSymbol : Obligations.EncThenDecGivesTheSymbol := by
  intro y s h inv idle herr hk hl
  have treeInv := inv.2 idle
  obtain ⟨T, hT, inner⟩ := treeInv.code (by rcases hk with kind | kind <;> simp [kind])
  obtain ⟨bits, hc, path⟩ := treeInv.codeOf_follow hk hT hl
  refine ⟨bits, fun k accepts => ?_, fun k gives => ?_⟩
  · exact ⟨_, exec_enc_of_accepts (s := { s with sink := k }) herr hk hl hc accepts, rfl, herr⟩
  · exact ⟨_, exec_dec_of_gives (s := { s with source := k }) herr hk hT (inner hk) path gives, rfl, herr, rfl⟩

end Sys2Proof.Machine
end

section
/-! BUILD of a table with no symbol present, and what BUILD reads of the block (41_tree_builder.md R70, R76, R77). -/

namespace Sys2Proof.Machine

theorem exec_build_of_raise {s : State} {τ : Tree} {x : Cause} (herr : s.err = none)
    (e : buildTree s.mergeSym s.freq s.tree = .raise x τ) :
    exec .build s = .next (takeFault true x { s with tree := τ }) :=
  runCommand_raise herr (by rw [buildBody, onTree_eq, e])

theorem presentSyms_eq_nil {f : FreqTable} (absent : ∀ y, freqAt f y = 0) : presentSyms f = [] :=
  List.eq_nil_iff_forall_not_mem.2 fun y present => mem_presentSyms.1 present (absent y)

/-- Settles O23: with no symbol present BUILD raises DOMAIN, and taking the fault discards the tree. -/
theorem buildOfNothingFaults : Obligations.BuildOfNothingFaults := by
  intro s herr absent
  have raises := buildTree_none s.mergeSym s.freq s.tree (presentSyms_eq_nil absent)
  exact ⟨_, exec_build_of_raise herr raises, rfl, rfl, rfl, leafAt_nil, rfl, rfl, rfl, rfl⟩

/-! ## What BUILD reads -/

section
variable {f g : FreqTable} (same : ∀ y, freqAt f y = freqAt g y)
include same

theorem presentSyms_congr : presentSyms f = presentSyms g := by
  simp only [presentSyms, same]

theorem seed_congr (ys : List Sym) (t : Tree) : seed f ys t = seed g ys t := by
  induction ys generalizing t with
  | nil => rfl
  | cons y ys ih => simp only [seed, same, ih]

/-- BUILD reads the table's entries only, and nothing of the tree before: it begins by discarding that (R70, R77). -/
theorem buildTree_congr (ms : MergeSym) (t τ : Tree) : buildTree ms f t = buildTree ms g τ := by
  simp only [buildTree, presentSyms_congr same, seed_congr same, Tree.discard_eq]

end

/-- Settles O28: BUILD's pseudocode is the same for both blocks, and its end fixes the tree and the fault. -/
theorem buildDependsOnTheTableOnly : Obligations.BuildDependsOnTheTableOnly := by
  intro s u hs hu sameMerge same
  have alike : buildTree u.mergeSym u.freq u.tree = buildTree s.mergeSym s.freq s.tree := by
    rw [← sameMerge, buildTree_congr same _ s.tree u.tree]
  rcases buildTree_ends s.mergeSym s.freq s.tree with ⟨τ, made, -⟩ | raises
  · exact ⟨_, _, exec_build_of_done hs made, exec_build_of_done hu (alike.trans made), rfl, hs.trans hu.symm⟩
  · exact ⟨_, _, exec_build_of_raise hs raises, exec_build_of_raise hu (alike.trans raises), rfl, rfl⟩

end Sys2Proof.Machine
end

section
/-! Codes are paths to leaves, and no path goes on from a leaf (30_encoding.md R62, 41_tree_builder.md R77). -/

namespace Sys2Proof.Machine

theorem CodeTree.follow_append (T : CodeTree) (as bs : List Bool) :
    T.follow (as ++ bs) = (T.follow as).bind fun U => U.follow bs := by
  induction as generalizing T with
  | nil => cases T <;> rfl
  | cons a as ih =>
    cases T with
    | leaf y => rfl
    | node l r => exact ih (if a then r else l)

/-- A path that begins with a path to a leaf is that path, so both end at the one leaf. -/
theorem CodeTree.leaf_eq_of_prefix {T : CodeTree} {as bs : List Bool} {y z : Sym} (pathY : T.follow as = some (.leaf y))
    (pathZ : T.follow bs = some (.leaf z)) (begins : as <+: bs) : y = z := by
  obtain ⟨cs, rfl⟩ := begins
  rw [follow_append, pathY, Option.bind_some] at pathZ
  cases cs with
  | nil => cases pathZ; rfl
  | cons c cs => cases pathZ

/-- Settles O36: both codes are paths to leaves of the tree as a value, and the leaves differ. -/
theorem codesArePrefixFree : Obligations.CodesArePrefixFree := by
  intro s y z g h a b inv idle kind other leafY leafZ codeY codeZ begins
  have treeInv := inv.2 idle
  obtain ⟨T, hT, -⟩ := treeInv.code (by simp [kind])
  have path : ∀ {x e bits}, leafAt s.tree.leaf x = some e → codeOf s.tree.node e = some bits →
      T.follow bits = some (.leaf x) := fun leaf code => by
    obtain ⟨bits, code', follows⟩ := treeInv.codeOf_follow (.inl kind) hT leaf
    exact Option.some.inj (code.symm.trans code') ▸ follows
  exact other (CodeTree.leaf_eq_of_prefix (path leafY codeY) (path leafZ codeZ) begins)

end Sys2Proof.Machine
end

section
/-! ENC on the degenerate tree, and its faults before anything is written (42_encoder.md R82 to R84). -/

namespace Sys2Proof.Machine

/-- A command on an unlocked block whose pseudocode raises takes that fault (R107). -/
theorem exec_of_bodyOf_raise {i : Instr} {s u : State} {x : Cause} (herr : s.err = none)
    (body : bodyOf i s = .raise x u) : exec i s = .next (takeFault (discardsTree i) x u) := by
  rw [exec_eq, runCommand_raise herr body]

/-- Settles O31: ENC hands the sink the one bit 0, which it accepts. -/
theorem encOfTheSingleton : Obligations.EncOfTheSingleton := by
  intro y c s herr degenerate accepts
  have body : bodyOf (.enc y) s = .done () { s with sink := s.sink.written [false] } := by
    rw [bodyOf, encBody_of_degenerate degenerate, onSink_eq, sinkBits_of_accepts (bs := [false]) accepts]
  have kind : s.tree.kind = .singleton := by rw [degenerate]; rfl
  rw [exec_of_bodyOf_done herr body, ← kind]
  rfl

/-- Settles O32: ENC raises on `KIND` alone, and taking the fault keeps the tree. -/
theorem encOnUnusableTrees : Obligations.EncOnUnusableTrees := by
  refine fun y s herr => ⟨fun kind => ?_, fun kind => ?_⟩
  · rw [exec_of_bodyOf_raise (i := .enc y) herr (encBody_of_none kind), ← kind]
    rfl
  · rw [exec_of_bodyOf_raise (i := .enc y) herr (encBody_of_leafroot kind), ← kind]
    rfl

/-- Settles O33: ENC raises DOMAIN in the state it began in, and taking the fault keeps the tree and locks the block. -/
theorem encOfAbsentSymbol : Obligations.EncOfAbsentSymbol := by
  intro y s herr usable absent
  exact ⟨_, exec_of_bodyOf_raise (i := .enc y) herr (encBody_of_absent usable absent), rfl, rfl, rfl, rfl, rfl⟩

end Sys2Proof.Machine
end

section
/-! DEC on a source that gives a path to a leaf, and its faults before any bit is read (43_decoder.md R85 to R88). -/

namespace Sys2Proof.Machine

/-- Only an internal node has a bit to follow. -/
theorem CodeTree.isInner_of_follow_ne_nil {T U : CodeTree} {bits : List Bool} (path : T.follow bits = some U)
    (nonempty : bits ≠ []) : T.isInner = true := by
  cases T with
  | node l r => rfl
  | leaf y =>
    cases bits with
    | nil => exact absurd rfl nonempty
    | cons b bs => cases path

/-- Settles O38: a path of one bit or more leaves from an internal node, and DEC there reads the tree as a value. -/
theorem decReturnsTheLeafsSymbol : Obligations.DecReturnsTheLeafsSymbol := by
  intro s T bits y herr usable hT nonempty path gives
  exact exec_dec_of_gives herr usable hT (CodeTree.isInner_of_follow_ne_nil path nonempty) path gives

/-- Settles O39: in the degenerate tree either bit is a path to a leaf of the one symbol. -/
theorem decOfTheSingleton : Obligations.DecOfTheSingleton := by
  intro y c b s herr degenerate gives
  have kind : s.tree.kind = .singleton := by rw [degenerate]; rfl
  have code : s.tree.code = some (.node (.leaf y) (.leaf y)) := by rw [degenerate, Tree.degenerate_code]
  have path : (CodeTree.node (.leaf y) (.leaf y)).follow [b] = some (.leaf y) := by cases b <;> rfl
  rw [← kind]
  exact decReturnsTheLeafsSymbol s _ [b] y herr (.inr kind) code (List.cons_ne_nil b []) path gives

/-- Settles O40: DEC raises on `KIND` alone, in the state it began in, and taking the fault keeps the tree. -/
theorem decOnUnusableTrees : Obligations.DecOnUnusableTrees := by
  refine fun s herr => ⟨fun kind => ?_, fun kind => ?_⟩
  · rw [exec_of_bodyOf_raise (i := .dec) herr (decBody_of_none kind), ← kind]
    rfl
  · rw [exec_of_bodyOf_raise (i := .dec) herr (decBody_of_leafroot kind), ← kind]
    rfl

end Sys2Proof.Machine
end

section
/-! SER on each kind of tree (44_tree_serializer.md R90 to R93). -/

namespace Sys2Proof.Machine

/-- Settles O44: as a value the degenerate tree is a node of one leaf twice, and SER writes the header of that. -/
theorem serOfTheSingleton : Obligations.SerOfTheSingleton := by
  intro y c s herr degenerate accepts
  have kind : s.tree.kind = .singleton := by rw [degenerate]; rfl
  have code : s.tree.code = some (.node (.leaf y) (.leaf y)) := by rw [degenerate, Tree.degenerate_code]
  rw [← kind]
  exact ⟨_, (serWritesTheHeader s _ herr (by simp [kind]) code accepts).1, herr, rfl, rfl⟩

/-- Settles O45: with no tree SER raises in the state it began in; the header of a tree of one leaf is nine bits. -/
theorem serOnNoTreeAndOnOneLeaf : Obligations.SerOnNoTreeAndOnOneLeaf := by
  refine fun s herr => ⟨fun kind => ?_, fun y kind code accepts => ?_⟩
  · rw [exec_of_bodyOf_raise (i := .ser) herr (serBody_of_none kind), ← kind]
    rfl
  · rw [← kind]
    exact ⟨_, (serWritesTheHeader s _ herr (by simp [kind]) code accepts).1, herr, rfl, rfl⟩

end Sys2Proof.Machine
end

section
/-! A tree that SER writes and DES reads back (44_tree_serializer.md R94): it has the same value, by which DEC and, if
it was FULL, ENC do the same on both blocks. -/

namespace Sys2Proof.Machine

/-- DES of a header that fits is done, unlocked, with a tree of that header (R95, R98). -/
theorem exec_des_of_header {s : State} {T : CodeTree} (herr : s.err = none) (fits : T.size ≤ nodeCap)
    (gives : s.source.gives T.header = true) :
    ∃ t, exec .des s = .next t ∧ t.err = none ∧ t.waiting = s.waiting ∧ t.tree.Inv ∧ t.tree.code = some T ∧
      t.tree.kind = if T.isInner then .full else .leafroot := by
  obtain ⟨τ, made⟩ := desTree_header (t := s.tree) gives fits
  obtain ⟨U, a, givesU, past, -, -, value, holds, -, -, kind⟩ := desTree_done made
  obtain rfl := header_read_unique gives givesU past
  exact ⟨_, exec_des_of_done herr made, herr, rfl, desTree_inv made,
    (Tree.code_of_holds holds).trans (congrArg some value), kind⟩

/-- ENC of a symbol no leaf of the tree carries raises DOMAIN in the state it began in (R82). -/
theorem encBody_of_no_path {y : Sym} {s : State} {T : CodeTree} (inv : s.tree.Inv) (kind : s.tree.kind = .full)
    (code : s.tree.code = some T) (noPath : T.lastPath y = none) : encBody y s = .raise .domain s := by
  obtain ⟨a, -, holds⟩ := inv.full kind
  obtain rfl : a.value s.tree.node = T := Option.some.inj ((Tree.code_of_holds holds).symm.trans code)
  obtain ⟨-, -, -, -, -, leaf⟩ := id holds
  refine encBody_of_absent (.inl kind) ((leaf y).trans ?_)
  cases last : a.lastLeaf s.tree.node y with
  | none => rfl
  | some h =>
    obtain ⟨bits, path, -⟩ := SlotTree.lastPath_value.2 h last
    cases noPath.symm.trans path

/-- ENC on a FULL tree and a sink that accepts the path to the symbol's last leaf (R80, R81). -/
theorem exec_enc_of_lastPath {y : Sym} {s : State} {T : CodeTree} {bits : List Bool} (herr : s.err = none)
    (inv : s.tree.Inv) (kind : s.tree.kind = .full) (code : s.tree.code = some T) (path : T.lastPath y = some bits)
    (accepts : s.sink.accepts bits.length = true) :
    exec (.enc y) s = .next (State.respond stOk { s with sink := s.sink.written bits }) :=
  exec_of_bodyOf_done herr (by
    rw [bodyOf, encBody_of_lastPath inv kind code path, onSink_eq, sinkBits_of_accepts accepts])

section
variable {s u : State} {T : CodeTree} (errS : s.err = none) (errU : u.err = none) (waiting : s.waiting = u.waiting)
include errS errU waiting

/-- DEC on two trees of one value and one source ends alike on both blocks (R85, R86). -/
theorem exec_dec_alike (usableS : s.tree.kind = .full ∨ s.tree.kind = .singleton)
    (usableU : u.tree.kind = .full ∨ u.tree.kind = .singleton) (codeS : s.tree.code = some T)
    (codeU : u.tree.code = some T) (inner : T.isInner = true) (source : s.source = u.source) :
    ∃ t v, exec .dec s = .next t ∧ exec .dec u = .next v ∧ t.err = v.err ∧ t.source = v.source ∧
      t.waiting = v.waiting ∧ (t.err = none → t.waiting = none → t.res = v.res) := by
  have bodyS := decBody_of_code usableS codeS inner
  have bodyU := decBody_of_code usableU codeU inner
  rw [onSource_eq, source] at bodyS
  rw [onSource_eq] at bodyU
  cases e : T.read u.source with
  | done y k =>
    rw [e] at bodyS bodyU
    exact ⟨_, _, runCommand_done errS bodyS, runCommand_done errU bodyU, errS.trans errU.symm, rfl, waiting,
      fun _ _ => rfl⟩
  | raise x k =>
    rw [e] at bodyS bodyU
    exact ⟨_, _, runCommand_raise errS bodyS, runCommand_raise errU bodyU, rfl, rfl, waiting, nofun⟩
  | wait p k =>
    rw [e] at bodyS bodyU
    exact ⟨_, _, runCommand_wait errS bodyS, runCommand_wait errU bodyU, errS.trans errU.symm, rfl, rfl, nofun⟩
  | broken => exact absurd (by rw [onSource_eq, e]; rfl) (onSource_read_ne_broken T u)

/-- ENC that writes one string of bits to one sink ends alike on both blocks (R31, R81). -/
theorem exec_enc_alike_of_bits {y : Sym} {bits : List Bool} (bodyS : encBody y s = onSink (sinkBits bits) s)
    (bodyU : encBody y u = onSink (sinkBits bits) u) (sink : s.sink = u.sink) :
    ∃ t v, exec (.enc y) s = .next t ∧ exec (.enc y) u = .next v ∧ t.err = v.err ∧ t.sink = v.sink ∧
      t.waiting = v.waiting := by
  rw [onSink_eq, sink] at bodyS
  rw [onSink_eq] at bodyU
  cases e : sinkBits bits u.sink with
  | done a k =>
    rw [e] at bodyS bodyU
    exact ⟨_, _, runCommand_done errS bodyS, runCommand_done errU bodyU, errS.trans errU.symm, rfl, waiting⟩
  | raise x k =>
    rw [e] at bodyS bodyU
    exact ⟨_, _, runCommand_raise errS bodyS, runCommand_raise errU bodyU, rfl, rfl, waiting⟩
  | wait p k =>
    rw [e] at bodyS bodyU
    exact ⟨_, _, runCommand_wait errS bodyS, runCommand_wait errU bodyU, errS.trans errU.symm, rfl, rfl⟩
  | broken => exact absurd (by rw [onSink_eq, e]) (onSink_sinkBits_ne_broken bits u)

/-- ENC on two FULL trees of one value and to one sink ends alike on both blocks: the value has the path ENC writes, or
has no leaf of the symbol (R80, R82, R99). -/
theorem exec_enc_alike {y : Sym} (invS : s.tree.Inv) (invU : u.tree.Inv) (fullS : s.tree.kind = .full)
    (fullU : u.tree.kind = .full) (codeS : s.tree.code = some T) (codeU : u.tree.code = some T)
    (sink : s.sink = u.sink) :
    ∃ t v, exec (.enc y) s = .next t ∧ exec (.enc y) u = .next v ∧ t.err = v.err ∧ t.sink = v.sink ∧
      t.waiting = v.waiting := by
  cases path : T.lastPath y with
  | some bits =>
    exact exec_enc_alike_of_bits errS errU waiting (encBody_of_lastPath invS fullS codeS path)
      (encBody_of_lastPath invU fullU codeU path) sink
  | none =>
    exact ⟨_, _, runCommand_raise errS (encBody_of_no_path invS fullS codeS path),
      runCommand_raise errU (encBody_of_no_path invU fullU codeU path), rfl, sink, waiting⟩

end

/-- Settles O55: DES makes a FULL tree of the value SER wrote, and by that value DEC and ENC go. -/
theorem serThenDesDecodesAlike : Obligations.SerThenDesDecodesAlike := by
  intro s d T inv idleS idleD errS errD usable code accepts gives
  have treeInv := inv.2 idleS
  have someTree : s.tree.kind ≠ .none := by rcases usable with kind | kind <;> simp [kind]
  have inner : T.isInner = true := by
    obtain ⟨U, codeU, innerU⟩ := treeInv.code someTree
    obtain rfl : U = T := Option.some.inj (codeU.symm.trans code)
    exact innerU usable
  have ser := (serWritesTheHeader s T errS someTree code accepts).1
  obtain ⟨d', des, errD', idleD', invD', codeD', kindD'⟩ :=
    exec_des_of_header errD (treeInv.size_le someTree code) gives
  have full : d'.tree.kind = .full := by rw [kindD', inner]; rfl
  have sameHold : s.waiting = d'.waiting := idleS.trans (idleD'.trans idleD).symm
  refine ⟨_, d', ser, rfl, rfl, des, full, codeD', fun k => ?_, fun kind y k => ?_, fun y c degenerate k takes => ?_⟩
  · exact exec_dec_alike (s := { s with source := k }) (u := { d' with source := k }) errS errD' sameHold usable
      (.inl full) code codeD' inner rfl
  · exact exec_enc_alike (s := { s with sink := k }) (u := { d' with sink := k }) errS errD' sameHold treeInv invD'
      kind full code codeD' rfl
  · obtain rfl : CodeTree.node (.leaf y) (.leaf y) = T :=
      Option.some.inj ((Tree.degenerate_code y c).symm.trans (degenerate ▸ code))
    have path : (CodeTree.node (.leaf y) (.leaf y)).lastPath y = some [true] := by simp [CodeTree.lastPath]
    exact ⟨_, _, encOfTheSingleton y c { s with sink := k } errS degenerate takes, errS, rfl,
      exec_enc_of_lastPath (s := { d' with sink := k }) errD' invD' full codeD' path takes, errD', rfl⟩

end Sys2Proof.Machine
end

section
/-! DES in a header of more than 511 nodes, and where the source ends inside one (45_tree_deserializer.md R95, R100,
R103). -/

namespace Sys2Proof.Machine

/-- Settles O51: DES reads a bit where it stands in the header, and there the source is at its end. -/
theorem desSourceEndsInHeader : Obligations.DesSourceEndsInHeader := by
  intro s T bits b herr hp hl gives atEnd
  obtain ⟨τ, f, reads⟩ := desTree_reads_on (t := s.tree) hp hl gives
  exact ⟨_, exec_des_of_raise herr reads (srcBit_past_of_end atEnd), rfl, rfl, rfl, Source.past_next_taken _ _⟩

/-- With no slot left `Des()` raises CAPACITY before it reads a bit (R100). -/
theorem desNode_of_full {fuel : Nat} {t : Tree} (full : nodeCap ≤ t.node.length) (k : Source) :
    desNode fuel (t, k) = .raise .capacity (t, k) := by
  cases fuel with
  | zero => rfl
  | succ fuel => rw [desNode, Tree.alloc_none.2 full]

section
variable {fuel : Nat} {t t' : Tree} {k : Source} {h : Handle}

/-- `Des()` on a flag of 1: a leaf of the symbol that follows (R95, R98, R99). -/
theorem desNode_leaf {y : Sym} (taken : t.alloc = some (h, t')) (gives : k.gives (true :: symBits y) = true) :
    desNode (fuel + 1) (t, k) = .done h ((t'.putNode h (readLeafNode y)).putLeaf y h, k.past 9) := by
  obtain ⟨flag, sym⟩ := gives_cons.1 gives
  rw [desNode, taken]
  simp only [readFlag_of_gives flag, Flow.bind_done, if_true, readSym, srcSym_of_gives sym, Flow.mapState_done,
    Source.past_past]

/-- `Des()` on a flag of 0: child0, then child1, then the node that joins them (R95, R98, R104). -/
theorem desNode_inner (taken : t.alloc = some (h, t')) (flag : k.gives [false] = true) :
    desNode (fuel + 1) (t, k) = (desNode fuel (t', k.past 1)).bind fun a r => (desNode fuel r).bind fun b u =>
      .done h (((u.1.putNode h (readInnerNode u.1.node a b)).putParent a h).putParent b h, u.2) := by
  rw [desNode, taken]
  simp only [readFlag_of_gives flag, Flow.bind_done, Bool.false_eq_true, if_false]

end

/-- In a header of more nodes than slots are left `Des()` raises CAPACITY past the part it reads (R100). -/
theorem desNode_over_capacity (T : CodeTree) {fuel : Nat} {t : Tree} {k : Source} (hf : nodeCap ≤ fuel + t.node.length)
    (exceeds : nodeCap < t.node.length + T.size) (gives : k.gives (T.readPart t) = true) :
    ∃ τ, desNode fuel (t, k) = .raise .capacity (τ, k.past (T.readPart t).length) := by
  induction T generalizing fuel t k with
  | leaf y =>
    have full : nodeCap ≤ t.node.length := Nat.le_of_lt_succ exceeds
    rw [CodeTree.readPart, Nat.sub_eq_zero_of_le full, CodeTree.firstNodes_zero]
    exact ⟨t, desNode_of_full full k⟩
  | node l r ihl ihr =>
    cases room : nodeCap - t.node.length with
    | zero =>
      rw [CodeTree.readPart, room, CodeTree.firstNodes_zero]
      exact ⟨t, desNode_of_full (Nat.le_of_sub_eq_zero room) k⟩
    | succ m =>
      obtain ⟨fuel, rfl⟩ : ∃ n, fuel = n + 1 := ⟨fuel - 1, by omega⟩
      obtain ⟨h, t', taken, room'⟩ := Tree.alloc_of_room room
      have nonempty := l.size_pos
      simp only [CodeTree.size] at exceeds
      simp only [CodeTree.readPart, room, CodeTree.firstNodes, CodeTree.firstNodes_left] at gives ⊢
      obtain ⟨flag, rest⟩ := gives_cons.1 gives
      rw [Source.gives_past, Bool.and_eq_true] at rest
      obtain ⟨givesL, givesR⟩ := rest
      rw [desNode_inner taken flag]
      by_cases fits : l.size ≤ m
      · rw [CodeTree.firstNodes_header fits] at givesL givesR ⊢
        obtain ⟨a, ta, made, length⟩ := (desNode_header l (fuel := fuel) (t := t') givesL (by omega)).1 (by omega)
        have roomR : nodeCap - ta.node.length = m - l.size := by omega
        rw [← roomR] at givesR ⊢
        obtain ⟨τ, e⟩ := ihr (fuel := fuel) (by omega) (by omega) givesR
        rw [made, Flow.bind_done, e, Flow.bind_raise, CodeTree.readPart, Source.past_past, Source.past_past,
          List.length_cons, List.length_append, Nat.add_comm 1, Nat.add_right_comm]
        exact ⟨τ, rfl⟩
      · have nothing : (r.firstNodes (m - l.size)).1 = [] := by
          rw [Nat.sub_eq_zero_of_le (Nat.le_of_not_le fits), CodeTree.firstNodes_zero]
        rw [← room'] at givesL
        obtain ⟨τ, e⟩ := ihl (fuel := fuel) (by omega) (by omega) givesL
        rw [e, Flow.bind_raise, nothing, List.append_nil, List.length_cons, Source.past_past, Nat.add_comm 1,
          CodeTree.readPart, room']
        exact ⟨τ, rfl⟩

/-- Settles O50: from the empty arena `Des()` comes to CAPACITY past the first 511 nodes, and the fault discards the
tree. -/
theorem desOverCapacityFaults : Obligations.DesOverCapacityFaults := by
  intro s T herr exceeds gives
  obtain ⟨τ, e⟩ := desNode_over_capacity T (fuel := nodeCap) (t := s.tree.discard) (Nat.le_add_right _ _)
    (by simpa using exceeds) gives
  have body : bodyOf .des s =
      .raise .capacity { s with tree := τ, source := s.source.past (T.firstNodes 511).1.length } := by
    rw [bodyOf, desBody, onTreeSource_eq, desTree, e]
    rfl
  exact ⟨_, exec_of_bodyOf_raise herr body, rfl, rfl, rfl, rfl⟩

end Sys2Proof.Machine
end

section
/-! DES of the header of one leaf and of the header of the degenerate tree (45_tree_deserializer.md R101, R102). -/

namespace Sys2Proof.Machine

/-! ## The kind of tree DES and BUILD leave -/

/-- Wherever the pseudocode has come to, `P` holds of the state. -/
def Flow.Within {σ α : Type} (P : σ → Prop) (m : Flow σ α) : Prop := ∀ s, m.at? = some s → P s

section
variable {σ τ α β : Type}

theorem Flow.Within.bind {P : σ → Prop} {m : Flow σ α} {f : α → σ → Flow σ β} (within : m.Within P)
    (next : ∀ a s, P s → (f a s).Within P) : (m.bind f).Within P := by
  intro t e
  obtain ⟨s, reached, rfl | ⟨a, -, on⟩⟩ := Flow.at?_bind e
  · exact within s reached
  · exact next a s (within s reached) t on

theorem Flow.within_mapState {P : τ → Prop} {f : σ → τ} (m : Flow σ α) (all : ∀ s, P (f s)) :
    (m.mapState f).Within P := by
  intro t e
  obtain ⟨s, -, rfl⟩ := Flow.at?_mapState e
  exact all s

theorem Flow.within_done {P : σ → Prop} {s : σ} (a : α) (h : P s) : (Flow.done a s).Within P := by
  rintro _ ⟨⟩
  exact h

theorem Flow.within_raise {P : σ → Prop} {s : σ} (x : Cause) (h : P s) : (Flow.raise x s : Flow σ α).Within P := by
  rintro _ ⟨⟩
  exact h

end

theorem Tree.alloc_kind {t t' : Tree} {h : Handle} (taken : t.alloc = some (h, t')) : t'.kind = t.kind := by
  obtain ⟨-, rfl⟩ := Tree.alloc_some taken
  rfl

section
variable {p : Tree × Source} {kind : Kind} (h : p.1.kind = kind)
include h

theorem readFlag_keeps_kind : (readFlag p).Within (fun q => q.1.kind = kind) := Flow.within_mapState _ fun _ => h

theorem readSym_keeps_kind : (readSym p).Within (fun q => q.1.kind = kind) := Flow.within_mapState _ fun _ => h

end

/-- `Des()` does not touch `KIND`, however it ends (R95). -/
theorem desNode_keeps_kind {kind : Kind} (fuel : Nat) (p : Tree × Source) (h : p.1.kind = kind) :
    (desNode fuel p).Within (fun q => q.1.kind = kind) := by
  induction fuel generalizing p with
  | zero => exact Flow.within_raise _ h
  | succ fuel ih =>
    rw [desNode]
    split
    · exact Flow.within_raise _ h
    · next g t taken =>
      refine (readFlag_keeps_kind (p := (t, p.2)) ((Tree.alloc_kind taken).trans h)).bind fun flag q hq => ?_
      cases flag with
      | true => exact (readSym_keeps_kind hq).bind fun y r hr => Flow.within_done _ hr
      | false => exact (ih q hq).bind fun a r hr => (ih r hr).bind fun b u hu => Flow.within_done _ hu

/-- DES never makes the degenerate tree; while it is held `KIND` is still that of no tree (R95, R101). -/
theorem desTree_not_singleton (p : Tree × Source) : (desTree p).Within (fun q => q.1.kind ≠ .singleton) := by
  intro q e
  obtain ⟨r, reached, rfl | ⟨h, -, ended⟩⟩ := Flow.at?_bind e
  · rw [desNode_keeps_kind _ _ rfl r reached]
    nofun
  · cases ended
    dsimp only
    split <;> nofun

/-- No DES on an unlocked block leaves the degenerate tree, a DES that is held included (R101). -/
theorem exec_des_not_singleton {s t : State} (herr : s.err = none) (e : exec .des s = .next t) :
    t.tree.kind ≠ .singleton := by
  have body : (bodyOf .des s).Within (fun u => u.tree.kind ≠ .singleton) := fun u reached => by
    obtain ⟨q, at_q, rfl⟩ := Flow.at?_mapState reached
    exact desTree_not_singleton _ q at_q
  rcases exec_next e with ⟨locked, -⟩ | ⟨-, u, -, ⟨ended, rfl⟩ | ⟨x, -, rfl⟩ | ⟨p, held, rfl⟩⟩
  · rw [locked_of_none herr] at locked; cases locked
  · exact body u (by rw [ended]; rfl)
  · nofun
  · exact body u (by rw [held]; rfl)

/-- What BUILD makes is as a value a tree with an internal root, or there is no tree (R20, R21, R76). -/
theorem buildTree_inner (ms : MergeSym) (f : FreqTable) (t : Tree) :
    (∃ τ T, buildTree ms f t = .done () τ ∧ τ.code = some T ∧ T.isInner = true) ∨
      buildTree ms f t = .raise .domain Tree.reset := by
  match present : presentSyms f with
  | [] => exact .inr (buildTree_none ms f t present)
  | [y] => exact .inl ⟨_, _, buildTree_one ms f t present, Tree.degenerate_code y _, rfl⟩
  | y :: z :: ys =>
    obtain ⟨τ, a, e, -, inner, holds, -⟩ := buildTree_full ms f t (by simp [present])
    exact .inl ⟨τ, _, e, Tree.code_of_holds holds, by rw [SlotTree.value_isInner, inner]⟩

/-- No tree BUILD leaves is one leaf (R102). -/
theorem exec_build_not_leaf {s t : State} (herr : s.err = none) (e : exec .build s = .next t) (z : Sym) :
    t.tree.code ≠ some (.leaf z) := by
  rcases buildTree_inner s.mergeSym s.freq s.tree with ⟨τ, T, made, code, inner⟩ | none
  · obtain rfl := Host.Outcome.next.inj (e.symm.trans (exec_build_of_done herr made))
    intro leaf
    obtain rfl := Option.some.inj (code.symm.trans leaf)
    cases inner
  · obtain rfl := Host.Outcome.next.inj (e.symm.trans (exec_build_of_raise herr none))
    nofun

/-- A DES that is done leaves the block unlocked with the tree it made (R95, R106). -/
theorem exec_des_makes {s : State} {τ : Tree} {k : Source} (herr : s.err = none)
    (made : desTree (s.tree, s.source) = .done () (τ, k)) : ∃ t, exec .des s = .next t ∧ t.err = none ∧ t.tree = τ :=
  ⟨_, exec_des_of_done herr made, herr, rfl⟩

/-! ## One leaf -/

/-- The tree of one leaf (R102). -/
def Tree.oneLeaf (y : Sym) : Tree where
  node := [readLeafNode y]
  root := some 0
  leaf := [(y, 0)]
  kind := .leafroot

theorem Tree.oneLeaf_code (y : Sym) : (Tree.oneLeaf y).code = some (.leaf y) := rfl

theorem desTree_of_one_leaf {y : Sym} {k : Source} (t : Tree) (gives : k.gives (true :: symBits y) = true) :
    desTree (t, k) = .done () (Tree.oneLeaf y, k.past 9) := by
  rw [desTree, desNode_leaf (fuel := 510) (h := 0) rfl gives]
  rfl

/-- Settles O49: DES makes the tree of one leaf, whose header is nine bits, and ENC and DEC raise on its `KIND`. -/
theorem desOfOneLeaf : Obligations.DesOfOneLeaf := by
  refine ⟨fun s t herr e => exec_build_not_leaf herr e, fun y s herr gives => ?_⟩
  obtain ⟨t, e, errT, treeT⟩ := exec_des_makes herr (desTree_of_one_leaf s.tree gives)
  have code : t.tree.code = some (.leaf y) := treeT ▸ Tree.oneLeaf_code y
  have kind : t.tree.kind = .leafroot := by rw [treeT]; rfl
  refine ⟨t, e, errT, treeT, fun accepts => ?_, fun z => ?_, ?_⟩
  · exact ⟨_, (serWritesTheHeader t _ errT (by simp [kind]) code accepts).1, errT, rfl⟩
  · exact ⟨_, exec_of_bodyOf_raise (i := .enc z) errT (encBody_of_leafroot kind), rfl⟩
  · exact ⟨_, exec_of_bodyOf_raise (i := .dec) errT (decBody_of_leafroot kind), rfl⟩

/-! ## Two leaves of one symbol -/

/-- The FULL tree of two leaves of one symbol, as DES makes it: the last leaf is the registered one (R99, R101). -/
def Tree.twoLeaves (y : Sym) : Tree where
  node := [{ sym := y, freq := 0, c0 := some 1, c1 := some 2, parent := none },
           { sym := y, freq := 0, c0 := none, c1 := none, parent := some 0 },
           { sym := y, freq := 0, c0 := none, c1 := none, parent := some 0 }]
  root := some 0
  leaf := [(y, 2)]
  kind := .full

theorem Tree.twoLeaves_code (y : Sym) : (Tree.twoLeaves y).code = some (.node (.leaf y) (.leaf y)) := rfl

/-- A symbol registered again in a table of its own stands at the later leaf (R99). -/
theorem leafPut_leafPut_nil (y : Sym) (g h : Handle) : leafPut (leafPut [] y g) y h = [(y, h)] := by
  simp [leafPut, cellPut, cellDrop, cellInsert]

theorem desTree_of_two_leaves {y : Sym} {k : Source} (t : Tree)
    (gives : k.gives (CodeTree.node (.leaf y) (.leaf y)).header = true) :
    desTree (t, k) = .done () (Tree.twoLeaves y, k.past 19) := by
  obtain ⟨flag, rest⟩ := gives_cons.1 gives
  obtain ⟨first, second⟩ : (k.past 1).gives (true :: symBits y) = true ∧
      ((k.past 1).past 9).gives (true :: symBits y) = true := by
    rw [Source.gives_past, Bool.and_eq_true] at rest
    exact rest
  rw [desTree, desNode_inner (fuel := 510) (h := 0) rfl flag, desNode_leaf (fuel := 509) (h := 1) rfl first,
    Flow.bind_done, desNode_leaf (fuel := 509) (h := 2) rfl second, Flow.bind_done, Flow.bind_done]
  change Flow.done () ({ Tree.twoLeaves y with leaf := leafPut (leafPut [] y 1) y 2 }, ((k.past 1).past 9).past 9) = _
  rw [leafPut_leafPut_nil, Source.past_past, Source.past_past]
  rfl

/-- Settles O48: DES makes the FULL tree of two leaves; either bit is a path to a leaf, and the path to the last one is
the bit 1. -/
theorem desOfTheSingletonHeader : Obligations.DesOfTheSingletonHeader := by
  refine ⟨fun s t herr e => exec_des_not_singleton herr e, fun y s herr gives => ?_⟩
  have made := desTree_of_two_leaves s.tree gives
  obtain ⟨t, e, errT, treeT⟩ := exec_des_makes herr made
  have code : t.tree.code = some (.node (.leaf y) (.leaf y)) := treeT ▸ Tree.twoLeaves_code y
  have kind : t.tree.kind = .full := by rw [treeT]; rfl
  refine ⟨t, e, errT, treeT, fun b givesBit => ?_, fun accepts => ?_⟩
  · have path : (CodeTree.node (.leaf y) (.leaf y)).follow [b] = some (.leaf y) := by cases b <;> rfl
    exact ⟨_, exec_dec_of_gives errT (.inl kind) code rfl path givesBit, errT, rfl, rfl⟩
  · have path : (CodeTree.node (.leaf y) (.leaf y)).lastPath y = some [true] := by simp [CodeTree.lastPath]
    have inv : t.tree.Inv := treeT ▸ desTree_inv made
    exact ⟨_, exec_enc_of_lastPath errT inv kind code path accepts, errT, rfl⟩

end Sys2Proof.Machine
end

section
/-! A block with no word to run, idle or locked (60_exceptions.md R108, R114). -/

namespace Sys2Proof.Machine

theorem step_of_idle {s : State} (host : s.host = []) (idle : s.waiting = none) :
    step s = .next { s with rsp := none } := by
  simp only [step, fetch, host, idle]

/-- Settles O15: with no input there is nothing to fetch. -/
theorem idleBlockHoldsItsState : Obligations.IdleBlockHoldsItsState := fun _ host idle => step_of_idle host idle

theorem illegalWord_of_locked {s : State} {x : Cause} (h : s.err = some x) : illegalWord s = lockedAnswer s :=
  if_pos (locked_of_some h)

/-- The lock comes before the decoder's verdict: a legal word and an illegal one have the same answer (R108). -/
theorem step_command_of_locked {s : State} {x : Cause} {w : CmdWord} {rest : List HostInput} (h : s.err = some x)
    (host : s.host = .command w :: rest) (idle : s.waiting = none) :
    step s = .next (lockedAnswer { s with host := rest }) := by
  have locked : ({ s with host := rest } : State).err = some x := h
  cases decoded : decode w with
  | ok i => rw [stepRunsTheDecodedCommand s w rest i host idle decoded, exec_locked i locked]
  | error _ => rw [step_command_of_decode_error host idle decoded, illegalWord_of_locked locked]

/-- Settles O8: the locked answer to commands and to words; the one other step without a reset is to wait. -/
theorem lockedBlockDoesNothing : Obligations.LockedBlockDoesNothing := by
  intro s x herr
  refine ⟨fun i => exec_locked i herr, fun w rest host idle => step_command_of_locked herr host idle,
    fun t noReset noCut e => ?_⟩
  obtain ⟨rest, host, -⟩ | ⟨-, -, rfl⟩ | ⟨w, rest, host, idle, -⟩ | ⟨w, rest, host, -⟩ := step_next e
  · exact absurd host (noReset rest)
  · exact herr
  · rw [step_command_of_locked herr host idle] at e
    cases e
    exact herr
  · exact absurd host (noCut w rest)

end Sys2Proof.Machine
end

section
/-! The status a command ends with (60_exceptions.md R105 to R107), and that pseudocode which comes to its end has met
no transfer that failed (R115). -/

namespace Sys2Proof.Machine

/-! ## Transfers -/

/-- From `s` to `u` the streams have moved by transfers that did not fail: the sink accepted each bit it was handed, and
the source gave a bit at each transfer (R31, R32). -/
def State.TransferredTo (s u : State) : Prop :=
  ∃ out inp : List Bool, s.sink.accepts out.length = true ∧ u.sink = s.sink.written out ∧
    s.source.gives inp = true ∧ u.source = s.source.past inp.length

section
variable {s u : State}

theorem State.TransferredTo.of_eq (hk : u.sink = s.sink) (hc : u.source = s.source) : s.TransferredTo u :=
  ⟨[], [], rfl, hk.trans s.sink.written_nil.symm, rfl, hc⟩

theorem State.TransferredTo.of_written {out : List Bool} (accepts : s.sink.accepts out.length = true)
    (hk : u.sink = s.sink.written out) (hc : u.source = s.source) : s.TransferredTo u :=
  ⟨out, [], accepts, hk, rfl, hc⟩

theorem State.TransferredTo.of_given {inp : List Bool} (gives : s.source.gives inp = true) (hk : u.sink = s.sink)
    (hc : u.source = s.source.past inp.length) : s.TransferredTo u :=
  ⟨[], inp, rfl, hk.trans s.sink.written_nil.symm, gives, hc⟩

/-- In any arena ENC comes to its end only by having its bits accepted (R80). -/
theorem encBody_done_transferred {y : Sym} (e : encBody y s = .done () u) : s.TransferredTo u := by
  unfold encBody at e
  split at e
  · cases e
  · cases e
  all_goals
    split at e
    · cases e
    · split at e
      · cases e
      · obtain ⟨k, writes, rfl⟩ := Flow.mapState_eq_done e
        obtain ⟨accepts, written⟩ := sinkBits_done writes
        exact .of_written accepts written rfl

/-- In any arena DEC comes to its end only by having been given its bits (R85). -/
theorem decBody_done_transferred (e : decBody s = .done () u) : s.TransferredTo u := by
  unfold decBody at e
  split at e
  · cases e
  · cases e
  all_goals
    split at e
    · cases e
    · obtain ⟨y, v, walk, ended⟩ := Flow.bind_eq_done e
      obtain ⟨k, reads, rfl⟩ := Flow.mapState_eq_done walk
      cases ended
      obtain ⟨inp, gives, past⟩ := descend_done reads
      exact .of_given gives rfl past

/-- In any arena SER comes to its end only by having its bits accepted (R90). -/
theorem serBody_done_transferred (e : serBody s = .done () u) : s.TransferredTo u := by
  unfold serBody at e
  split at e
  · cases e
  all_goals
    obtain ⟨k, writes, rfl⟩ := Flow.mapState_eq_done e
    obtain ⟨out, accepts, written⟩ := serNode_done writes
    exact .of_written accepts written rfl

/-- DES comes to its end only by having been given a header (R95). -/
theorem desBody_done_transferred (e : desBody s = .done () u) : s.TransferredTo u := by
  obtain ⟨⟨τ, k⟩, reads, rfl⟩ := Flow.mapState_eq_done e
  obtain ⟨T, -, gives, past, -⟩ := desTree_done reads
  exact .of_given gives rfl past

/-- Pseudocode that comes to its end has passed over no failing transfer (R115). -/
theorem bodyOf_done_transferred {i : Instr} (e : bodyOf i s = .done () u) : s.TransferredTo u := by
  cases i with
  | setf y c => cases e; exact .of_eq rfl rfl
  | clrf => cases e; exact .of_eq rfl rfl
  | build =>
    obtain ⟨τ, -, rfl⟩ := Flow.mapState_eq_done e
    exact .of_eq rfl rfl
  | enc y => exact encBody_done_transferred e
  | dec => exact decBody_done_transferred e
  | ser => exact serBody_done_transferred e
  | des => exact desBody_done_transferred e

end

/-! ## Status -/

/-- Code 0 is that of no fault (R58). -/
theorem Cause.code_ne_zero (x : Cause) : x.code ≠ 0 := by cases x <;> decide

theorem State.errBits_of_none {s : State} (h : s.err = none) : s.errBits = 0 := by simp only [errBits, h]

theorem State.errBits_of_some {s : State} {x : Cause} (h : s.err = some x) : s.errBits = x.code := by
  simp only [errBits, h]

theorem State.errPin_of_none {s : State} (h : s.err = none) : s.errPin = false := by rw [errPin, h]; rfl

theorem State.errPin_of_some {s : State} {x : Cause} (h : s.err = some x) : s.errPin = true := by rw [errPin, h]; rfl

section
variable {i : Instr} {s t : State} (herr : s.err = none) (e : exec i s = .next t)
include herr e

/-- A command whose pseudocode ends leaves ERR 0 and is answered OK (R106). -/
theorem exec_ok_of_done {u : State} (body : bodyOf i s = .done () u) :
    t.err = none ∧ t.rsp = some (rspWord stOk t.tree.kind t.res) := by
  rw [exec_of_bodyOf_done herr body] at e
  cases e
  have kept : Kept s u := bodyOf_kept (i := i) (by rw [body]; rfl)
  exact ⟨kept.err.trans herr, rfl⟩

/-- A command whose pseudocode raises `x` leaves `x` in ERR and is answered with its code (R107). -/
theorem exec_faults_of_raise {x : Cause} {u : State} (body : bodyOf i s = .raise x u) :
    t.err = some x ∧ t.rsp = some (rspWord x.code t.tree.kind t.res) := by
  rw [exec_of_bodyOf_raise herr body] at e
  cases e
  exact ⟨rfl, rfl⟩

/-- The status of a command that ends is ERR as it then stands (R105). -/
theorem exec_status_is_errBits (ended : t.waiting = none) :
    t.rsp = some (rspWord t.errBits t.tree.kind t.res) := by
  rcases exec_next e with ⟨locked, -⟩ | ⟨-, u, -, ⟨body, -⟩ | ⟨x, body, -⟩ | ⟨p, -, rfl⟩⟩
  · rw [locked_of_none herr] at locked; cases locked
  · obtain ⟨err, rsp⟩ := exec_ok_of_done herr e body
    rw [rsp, State.errBits_of_none err]
    rfl
  · obtain ⟨err, rsp⟩ := exec_faults_of_raise herr e body
    rw [rsp, State.errBits_of_some err]
  · cases ended

end

/-- Settles O10: how the pseudocode ends decides ERR and the status, and it ends without a raise only if every transfer
it made went through. -/
theorem statusIsTheFaultMet : Obligations.StatusIsTheFaultMet := by
  intro i s t herr _ e
  refine ⟨fun u body => ?_, fun x u body => ?_, exec_status_is_errBits herr e, fun ended ok => ?_⟩
  · obtain ⟨err, rsp⟩ := exec_ok_of_done herr e body
    exact ⟨err, State.errPin_of_none err, rsp⟩
  · obtain ⟨err, rsp⟩ := exec_faults_of_raise herr e body
    exact ⟨err, x.code_ne_zero, State.errPin_of_some err, rsp⟩
  · obtain ⟨u, body, sink, source⟩ := exec_ended_ok herr e ok ended
    rw [sink, source]
    exact bodyOf_done_transferred body

end Sys2Proof.Machine
end

section
/-! Reset as the host's input, and reset inside a command (70_reset_and_hazards.md R125, 20_memory.md R46). -/

namespace Sys2Proof.Machine

/-- No command takes an input from the host: that is the step's part (R9). -/
theorem exec_host {i : Instr} {s t : State} (e : exec i s = .next t) : t.host = s.host := by
  rcases exec_next e with ⟨-, rfl⟩ | ⟨-, u, kept, ⟨-, rfl⟩ | ⟨x, -, rfl⟩ | ⟨p, -, rfl⟩⟩
  · rfl
  all_goals exact kept.host

/-- A legal word cut by reset is fetched as the command it decodes to. -/
theorem fetch_cutByReset_of_decode_ok {s : State} {w : CmdWord} {rest : List HostInput} {i : Instr}
    (host : s.host = .commandCutByReset w :: rest) (idle : s.waiting = none) (decoded : decode w = .ok i) :
    fetch s = .runThenReset i { s with host := rest } := by
  simp only [fetch, host, idle, decoded]

/-- The command comes to its end, and its response is lost to the reset. -/
theorem step_of_fetch_runThenReset {s t u : State} {i : Instr} (fetched : fetch s = .runThenReset i t)
    (run : exec i t = .next u) : step s = .next u.resetBlock := by
  simp only [step, fetched, run, cutByReset]

theorem step_cutByReset_of_decode_error {s : State} {w : CmdWord} {rest : List HostInput} {e : Illegal}
    (host : s.host = .commandCutByReset w :: rest) (idle : s.waiting = none) (decoded : decode w = .error e) :
    step s = .next ({ s with host := rest } : State).resetBlock := by
  simp only [step, fetch, host, idle, decoded]

/-- Settles O13: the step gives the reset block of the state the command left, or of the state before a word that is no
command, and reset leaves the streams and the host alone. -/
theorem resetAbandonsACommand : Obligations.ResetAbandonsACommand := by
  refine ⟨fun s u w i rest host idle decoded run => ?_, fun s w e rest host idle decoded => ?_⟩
  · have taken : u.host = rest := exec_host run
    exact ⟨_, step_of_fetch_runThenReset (fetch_cutByReset_of_decode_ok host idle decoded) run, by simp [taken]⟩
  · exact ⟨_, step_cutByReset_of_decode_error host idle decoded, by simp⟩

/-- Settles O12: held or not, the block takes the reset, and each register is read off the reset block. -/
theorem resetInputResetsTheBlock : Obligations.ResetInputResetsTheBlock := by
  intro s rest host
  exact ⟨_, step_of_reset host, by simp [State.errPin, State.cmdReady, Tree.ncount]⟩

end Sys2Proof.Machine
end
